-- ==== Sys2Proof/Word.lean ====
section
/-! DEFINITION. The word types of the HUFF core: the 32-bit bus word, the byte, the 22-bit aperture
offset and the bit string (spec 00_scope.md R8, R11; 20_memory.md R47, R50). -/

namespace Sys2Proof

/-- A bus word, a register, a count, a weight: 32 bits, unsigned (R8, R50). -/
abbrev Word := BitVec 32

/-- A byte value 0..255 (R8). -/
abbrev Byte := BitVec 8

/-- A byte offset into the 4 MiB register aperture (R47). -/
abbrev Offset := BitVec 22

/-- A NODE index 0..511 (R36: the fields LEFT, RIGHT and ROOT are 9 bits wide). -/
abbrev NodeIdx := BitVec 9

/-- A bit string (R11): position 0 first, `true` the symbol 1. -/
abbrev Bits := List Bool

end Sys2Proof
end

