-- ==== Sys2Proof/Config.lean ====
section
/-! DEFINITION. What an implementation fixes (the two buffer sizes, the base address, the ID value) and the
free values: constants without a body, which no proof can see into. -/

namespace Sys2Proof

/-- The two buffer sizes of a block (R4, R5).
They are parameters of the model: every state carries them as the hardwired registers IBUF_SIZE and
OBUF_SIZE (R33), no step changes them, and a statement over all states is a statement over all sizes. -/
structure Params where
  ibufSize : Nat
  obufSize : Nat
  deriving DecidableEq, Repr

namespace Config

/-- The default sizes of R4 and R5. -/
def defaultParams : Params := { ibufSize := 65536, obufSize := 1048576 }

/-- The hardwired value of the ID register (R19). -/
def idValue : Word := 0x48554631#32

/-- `MAX_CODE_LEN`, the longest code and the decoder accumulator's capacity (R8). -/
def maxCodeLen : Nat := 255

/-- HFA_BASE, the open platform address of the aperture (R6): no rule depends on it. -/
opaque hfaBase : Nat

/-- The platform address of an aperture offset (R6). -/
def platformAddress (off : Offset) : Nat := hfaBase + off.toNat

/-- FREE VALUE. The byte an IBUF or OBUF index holds while its content is unspecified (R39, R40, R114, R128):
the first argument is the draw at which the buffer became unspecified, the second the index. -/
opaque freeByte : Nat → Nat → Byte

/-- FREE VALUE. Which of the admitted values a STATUS read shows for FREQ_VALID or TREE_VALID while
BUSY = 1 (R22): the argument is the draw, the result is taken modulo the number of admitted values. -/
opaque freePick : Nat → Nat

/-- FREE VALUE. How many steps an accepted command stays running before it completes (R133, R134: finite, and
nothing else is said): the argument is the draw. -/
opaque commandTime : Nat → Nat

/-- FREE VALUE. How many steps reset recovery takes after `rst_n` rises (R128: finitely many): the argument is
the draw. -/
opaque recoveryTime : Nat → Nat

/-- FREE VALUE. Whether DONE, or CTRL.IE, is still to take its reset value after a step of reset recovery (R128: the
block may take finitely many steps to reach the reset state): the argument is the draw. -/
opaque freeLinger : Nat → Bool

end Config

end Sys2Proof
end

