-- ==== Sys2Proof/Machine/State.lean ====
section
/-! DEFINITION. The state of the HUFF core as plain data (10_state.md R15 to R46), the port the host reaches it
through (20_memory.md R49, R54), the reasons a step can stop, and the state after reset. -/

namespace Sys2Proof.Machine

/-- The sequencer's phase (R16). -/
inductive Phase where
  | idle
  | busy
  deriving DecidableEq, Repr

/-- The error codes of R116, in the order of their numbers 0..11. -/
inductive ErrCode where
  | none
  | emptyInput
  /-- Code 2: reserved, never raised (R83, 90_conflicts.md C1). -/
  | degenerateTree
  | unknownSymbol
  | incompleteCode
  | corruptPadding
  | badCommand
  | noTree
  | ringInvalid
  | obufOverflow
  | lenRange
  | badBitchar
  deriving DecidableEq, Repr

/-- One entry of the NODE memory (R36). -/
structure NodeEntry where
  valid : Bool
  internal : Bool
  symbol : Byte
  left : NodeIdx
  right : NodeIdx
  weight : Word
  deriving DecidableEq, Repr

/-- The all-zero NODE entry (R36, R80, R128). -/
def NodeEntry.zero : NodeEntry :=
  { valid := false, internal := false, symbol := 0, left := 0, right := 0, weight := 0 }

/-- One entry of the CODE memory (R37). Position `t` of BITS is the bit `255 - t` of the vector: the store is kept
first symbol most significant, as the CODE window shows it (R59). -/
structure CodeEntry where
  valid : Bool
  len : Byte
  bits : BitVec 256
  deriving DecidableEq, Repr

/-- The all-zero CODE entry (R37, R82, R128). -/
def CodeEntry.zero : CodeEntry := { valid := false, len := 0, bits := 0 }

/-- The FREQ memory (R34). -/
abbrev Freqs := Vector Word 256

/-- The NODE memory (R36). -/
abbrev Nodes := Vector NodeEntry 512

/-- The CODE memory (R37). -/
abbrev Codes := Vector CodeEntry 256

/-- A byte buffer, IBUF or OBUF (R39, R40): the bytes written since the buffer's content was last unspecified, by
rising index. An unlisted index holds no value of the model's: its byte is unspecified, the free value number
`draw` (R39, R40, R114, R128). -/
structure Memory where
  draw : Nat
  cells : List Host.Cell
  deriving DecidableEq, Repr

/-- The sequencer's hidden state (R41 to R45): it starts empty at every command and every stage and is discarded
at completion. -/
structure Hidden where
  /-- The selection set Q of NODE indices during BUILD (R41). -/
  q : List NodeIdx
  /-- The traversal stack of pending (node, path) pairs during DERIVE (R42). -/
  stack : List (NodeIdx × Bits)
  /-- The pack accumulator, 0..7 symbols (R43, R88). -/
  acc : Bits
  /-- The current input byte's unconsumed bits during UNPACK and DECOMPRESS (R43, R96). -/
  inBits : Bits
  /-- The decoder accumulator (R44, R97). -/
  dacc : Bits
  /-- The decoder's overflow flag (R44, R97). -/
  dead : Bool
  /-- The output index of an output command (R45, R87). -/
  outIdx : Nat
  /-- The bit counter of the packer and the unpacker (R88, R99, R101). -/
  nbits : Nat
  deriving DecidableEq, Repr

/-- No hidden state (R45). -/
def Hidden.empty : Hidden :=
  { q := [], stack := [], acc := [], inBits := [], dacc := [], dead := false, outIdx := 0, nbits := 0 }

/-- A bus transaction (R14, R49). A write carries the byte strobes a BUS_BINDING may have (R50). -/
inductive Transaction where
  | read (addr : Offset)
  | write (addr : Offset) (strobes : BitVec 4) (data : Word)
  deriving DecidableEq, Repr

/-- The two bus responses (R14, R49). -/
inductive Response where
  | okay
  | slverr
  deriving DecidableEq, Repr

/-- One answer of the port: the transaction, its response and the data a read returned (0 for a write). -/
structure Answer where
  txn : Transaction
  resp : Response
  data : Word
  deriving DecidableEq, Repr

/-- What the outside world does next: the host of R15 on the bus, and the reset pin of R128. -/
inductive HostEvent where
  /-- A transaction arrives at the port (R49). -/
  | issue (t : Transaction)
  /-- The host repeats a read of `addr` until `data & mask = value` (POLL of R76). -/
  | poll (addr : Offset) (mask value : Word)
  /-- The host presents nothing more until all its transactions are answered. -/
  | await
  /-- The platform drives the pin `rst_n` to this level (R128). -/
  | rst (level : Bool)
  deriving DecidableEq, Repr

/-- The whole machine: everything the spec names, and the model's own `work` and `draws`. -/
structure State where
  /-- The hardwired registers IBUF_SIZE and OBUF_SIZE (R33). -/
  params : Params
  /-- CTRL.IE (R20). -/
  ie : Bool
  /-- CMD: the word of the most recently accepted command (R21); while BUSY, the one being executed (R16). -/
  cmd : Word
  /-- PHASE, visible as STATUS.BUSY (R16, R22). -/
  phase : Phase
  /-- STATUS.DONE (R22). -/
  done : Bool
  /-- STATUS.ERR (R22). -/
  err : Bool
  /-- STATUS.FREQ_VALID (R22). -/
  freqValid : Bool
  /-- STATUS.TREE_VALID (R22). -/
  treeValid : Bool
  /-- ERR_CODE (R23). -/
  errCode : ErrCode
  /-- ERR_INDEX (R24). -/
  errIndex : Word
  /-- ERR_VALUE (R25). -/
  errValue : Word
  /-- IN_LEN (R26). -/
  inLen : Word
  /-- OUT_LEN (R27). -/
  outLen : Word
  /-- BIT_LEN (R28). -/
  bitLen : Word
  /-- PAD, bits [3:0] (R29). -/
  pad : BitVec 4
  /-- NSYM, bits [8:0] (R30). -/
  nsym : BitVec 9
  /-- ROOT, bits [8:0] (R31). -/
  root : NodeIdx
  /-- MAXLEN, bits [7:0] (R32). -/
  maxLen : Byte
  /-- FREQ (R34). -/
  freq : Freqs
  /-- NODE (R36). -/
  node : Nodes
  /-- CODE (R37). -/
  code : Codes
  /-- IBUF (R39). -/
  ibuf : Memory
  /-- OBUF (R40). -/
  obuf : Memory
  /-- The hidden state (R41 to R45). -/
  hidden : Hidden
  /-- The level of the reset input `rst_n` (R128). -/
  rstN : Bool
  /-- How many steps of reset recovery remain (R128). -/
  recovery : Nat
  /-- What the outside world will do, next first (R15, R135). -/
  input : List HostEvent
  /-- The transactions that have arrived and are held, oldest first (R54, R113, R128). -/
  held : List Transaction
  /-- Every answer the port has given, newest first (R49, R115). -/
  answers : List Answer
  /-- The model's own: how many steps the running command still needs before its completing step (R133, R134). -/
  work : Nat
  /-- The model's own: how many free values have been drawn. -/
  draws : Nat
  deriving DecidableEq, Repr

/-- The reasons the machine stops with a fault. No command raises one: an error of a command is a NEXT state
(R114, R117). -/
inductive Fault where
  /-- Raised by the port, never by an instruction: `rst_n` rises while a transaction that has arrived is
  unanswered. R135 makes this a breach of a host duty ("not deassert `rst_n` in the middle of a transaction") and
  93_implementation_defined.md gives it "no move". Safe: the model stops where the spec says nothing. -/
  | resetInMidTransaction
  deriving DecidableEq, Repr

/-- The reasons the model gives an instruction no meaning. -/
inductive Refusal where
  /-- Raised by the dispatch for an instruction without a meaning. Safe. No arm raises it. -/
  | notModelled (mnemonic : String)
  deriving DecidableEq, Repr

/-- The machine right after a hardware reset (R128, 10_state.md section 5): every register and FREQ, NODE and CODE
zero, IDLE, `rst_n` high, IBUF and OBUF unspecified (the free draws 0 and 1), nothing on the bus. -/
def State.reset : State :=
  { params := Config.defaultParams
    ie := false, cmd := 0, phase := .idle
    done := false, err := false, freqValid := false, treeValid := false
    errCode := .none, errIndex := 0, errValue := 0
    inLen := 0, outLen := 0, bitLen := 0, pad := 0, nsym := 0, root := 0, maxLen := 0
    freq := Vector.replicate 256 0
    node := Vector.replicate 512 NodeEntry.zero
    code := Vector.replicate 256 CodeEntry.zero
    ibuf := { draw := 0, cells := [] }
    obuf := { draw := 1, cells := [] }
    hidden := Hidden.empty
    rstN := true, recovery := 0
    input := [], held := [], answers := []
    work := 0, draws := 2 }

end Sys2Proof.Machine
end

