-- ==== Sys2Proof/Syntax.lean ====
section
/-! DEFINITION. The HUFF command set, version 1: one constructor per row of spec/opcode_table.json
(30_encoding.md R70, R71, R74). A command carries no operand field (R72). -/

namespace Sys2Proof

/-- A command word's meaning. -/
inductive Instr where
  /-- NOP, word 0x00000000 (R103). -/
  | nop
  /-- ANALYZE, word 0x00000001 (R78). -/
  | analyze
  /-- BUILD, word 0x00000002 (R80). -/
  | build
  /-- DERIVE, word 0x00000003 (R82). -/
  | derive
  /-- ENCODE, word 0x00000004 (R91). -/
  | encode
  /-- ENCPACK, word 0x00000005 (R92). -/
  | encpack
  /-- PACK, word 0x00000006 (R93). -/
  | pack
  /-- UNPACK, word 0x00000007 (R99). -/
  | unpack
  /-- DECODE, word 0x00000008 (R100). -/
  | decode
  /-- DECOMPRESS, word 0x00000009 (R101). -/
  | decompress
  /-- COMPRESS, word 0x0000000A (R104). -/
  | compress
  /-- ENCODE_ONLY, word 0x0000000B (R105). -/
  | encodeOnly
  /-- A reserved command word (R74, R106; the table's row RESERVED_OP_C_F__BAD_COMMAND and, by R74, every word
  with `w[31:4] != 0`): it completes in error BAD_COMMAND, which records the word itself. -/
  | reserved (w : Word)
  deriving DecidableEq, Repr

end Sys2Proof
end

