-- ==== Sys2Proof/WellFormed.lean ====
section
/-! DEFINITION. Which instructions and which parameters the spec admits. -/

namespace Sys2Proof

/-- An instruction is well formed when some command word stands for it: a `reserved` term must carry a word
that is no legal command (R70: legal words are exactly 0x0..0xB; R74: every other word is reserved). -/
def Instr.wf : Instr → Bool
  | .reserved w => decide (12 ≤ w.toNat)
  | .nop | .analyze | .build | .derive | .encode | .encpack | .pack
  | .unpack | .decode | .decompress | .compress | .encodeOnly => true

/-- A buffer size is a multiple of 4 in 4..2^20 (R4, R5). -/
def sizeOk (n : Nat) : Bool := decide (4 ≤ n) && decide (n ≤ 1048576) && decide (n % 4 = 0)

/-- The parameters the spec admits (R4, R5). -/
def Params.wf (p : Params) : Bool := sizeOk p.ibufSize && sizeOk p.obufSize

end Sys2Proof
end

