-- ==== Sys2Proof/Machine/Ops.lean ====
section
/-! DEFINITION. The named operations every command is written over: the buffers, the three tables, the run of a
command and its two completions (60_exceptions.md R112 to R114), and the two resets (R128, R129). -/

namespace Sys2Proof.Machine

/-! ### Buffers (R39, R40, R63) -/

/-- The byte listed for an index. -/
def lookupCell : List Host.Cell → Nat → Option Byte
  | [], _ => none
  | (i, v) :: cells, a => if a = i then some v else lookupCell cells a

/-- The cells with index `a` holding `v`, by rising index. -/
def insertCell : List Host.Cell → Nat → Byte → List Host.Cell
  | [], a, v => [(a, v)]
  | (i, w) :: cells, a, v =>
    if a < i then (a, v) :: (i, w) :: cells
    else if a = i then (a, v) :: cells
    else (i, w) :: insertCell cells a v

/-- The byte at an index: the one written there, or the unspecified byte of the buffer's draw (R39, R40). -/
def Memory.read (m : Memory) (a : Nat) : Byte :=
  (lookupCell m.cells a).getD (Config.freeByte m.draw a)

/-- A byte written at an index. -/
def Memory.write (m : Memory) (a : Nat) (v : Byte) : Memory :=
  { m with cells := insertCell m.cells a v }

/-- Consecutive bytes written from an index on. -/
def Memory.writeAll (m : Memory) (a : Nat) : List Byte → Memory
  | [] => m
  | v :: vs => (m.write a v).writeAll (a + 1) vs

/-- A buffer every byte of which is unspecified (R114, R128). -/
def Memory.unspecified (draw : Nat) : Memory := { draw := draw, cells := [] }

/-- Whether every index in the cells is at least `lo`, below `size`, and rises. -/
def risingFrom (lo size : Nat) : List Host.Cell → Bool
  | [] => true
  | (i, _) :: cells => decide (lo ≤ i) && decide (i < size) && risingFrom (i + 1) size cells

/-- The canonical form of a buffer of `size` bytes: indices strictly rising and inside the buffer. An unlisted
index has no value to compare an entry with, so no entry can repeat one. -/
def Memory.wf (size : Nat) (m : Memory) : Bool := risingFrom 0 size m.cells

/-! ### The tables (R34, R36, R37) -/

/-- All byte values in ascending order, the FrequencyTable's iteration order (R35). -/
def allBytes : List Byte := (List.range 256).map (BitVec.ofNat 8)

/-- `FREQ[b]`. -/
def freqAt (f : Freqs) (b : Byte) : Word := getElem f b.toNat (by have := b.isLt; omega)

/-- `FREQ[b] <- v`. -/
def setFreq (f : Freqs) (b : Byte) (v : Word) : Freqs := f.set b.toNat v (by have := b.isLt; omega)

/-- `NODE[j]`. -/
def nodeAt (n : Nodes) (j : NodeIdx) : NodeEntry := getElem n j.toNat (by have := j.isLt; omega)

/-- `NODE[j] <- e`. -/
def setNode (n : Nodes) (j : NodeIdx) (e : NodeEntry) : Nodes := n.set j.toNat e (by have := j.isLt; omega)

/-- `CODE[b]`. -/
def codeAt (c : Codes) (b : Byte) : CodeEntry := getElem c b.toNat (by have := b.isLt; omega)

/-- `CODE[b] <- e`. -/
def setCode (c : Codes) (b : Byte) (e : CodeEntry) : Codes := c.set b.toNat e (by have := b.isLt; omega)

/-- FREQ with every bin 0 (R78, R128). -/
def zeroFreqs : Freqs := Vector.replicate 256 0

/-- NODE with every field of every entry 0 (R80, R128). -/
def zeroNodes : Nodes := Vector.replicate 512 NodeEntry.zero

/-- CODE with every field of every entry 0 (R82, R128). -/
def zeroCodes : Codes := Vector.replicate 256 CodeEntry.zero

/-! ### The run of a command -/

/-- What `raise E_NAME(index, value)` carries (R13, R114). -/
structure Raised where
  code : ErrCode
  index : Word
  value : Word
  deriving DecidableEq, Repr

/-- A run of pseudocode: it reached its end, or it reached a `raise`; either way with the state it left, since
errors are precise (R117). -/
inductive Run (σ : Type) where
  | ok (a : σ)
  | raised (r : Raised) (a : σ)
  deriving DecidableEq, Repr

/-- Statements execute in order, and none executes after a `raise` (R13). -/
def Run.bind {σ : Type} (m : Run σ) (f : σ → Run σ) : Run σ :=
  match m with
  | .ok a => f a
  | .raised r a => .raised r a

/-- The state a run left. -/
def Run.left {σ : Type} : Run σ → σ
  | .ok a => a
  | .raised _ a => a

/-- What a run raised. -/
def Run.error {σ : Type} : Run σ → Option Raised
  | .ok _ => none
  | .raised r _ => some r

/-- A check that raises or passes, and changes nothing. -/
def require {σ : Type} (fault : Option Raised) (a : σ) : Run σ :=
  match fault with
  | none => .ok a
  | some r => .raised r a

/-- All hidden state empty, as at the start of every command and stage (R45, R107). -/
def clearHidden (s : State) : State := { s with hidden := Hidden.empty }

/-! ### Acceptance and completion (R112 to R114, R119) -/

/-- `Accept(w)`, the acceptance of a command word (R112). How long the command then runs is a free value
(R133, R134). -/
def accept (w : Word) (s : State) : State :=
  { s with
    cmd := w, done := false, err := false
    errCode := .none, errIndex := 0, errValue := 0
    phase := .busy, hidden := Hidden.empty
    work := Config.commandTime s.draws, draws := s.draws + 1 }

/-- `CompleteOk()` (R113); the hidden state is discarded (R45). -/
def completeOk (s : State) : State :=
  { s with done := true, phase := .idle, hidden := Hidden.empty }

/-- An output command that ends in error: OUT_LEN, BIT_LEN and PAD become 0 and every byte of OBUF becomes
unspecified (R114). -/
def spoilOutput (s : State) : State :=
  { s with outLen := 0, bitLen := 0, pad := 0, obuf := Memory.unspecified s.draws, draws := s.draws + 1 }

/-- Taking an error: `Raise(E_NAME, x, y)` (R114). The block saves no pc, changes no mode and jumps to no vector
(R117); every other write the command made before the raise stays. -/
def raiseError (output : Bool) (r : Raised) (s : State) : State :=
  { (if output then spoilOutput s else s) with
    errCode := r.code, errIndex := r.index, errValue := r.value
    err := true, done := true, phase := .idle, hidden := Hidden.empty }

/-- The return from a completion or an error: the acknowledge, a STATUS write with bit 1 = 1, clears DONE and
leaves ERR and the error record as they are (R119). -/
def acknowledge (s : State) : State := { s with done := false }

/-- A command's end: its pseudocode reached its end (R113) or a `raise` (R114). `output` says whether it is an
output command. -/
def complete (output : Bool) (m : Run State) : Host.Outcome State Fault Refusal :=
  match m with
  | .ok s => .next (completeOk s)
  | .raised r s => .next (raiseError output r s)

/-! ### Resets (R128, R129) -/

/-- Every step of `HardwareReset()` except the IBUF and OBUF line (R128): the part both resets share. The
hardwired sizes, the pin, the bus and the free draws are not state a reset touches. -/
def resetBlock (s : State) : State :=
  { State.reset with
    params := s.params, ibuf := s.ibuf, obuf := s.obuf
    rstN := s.rstN, input := s.input, held := s.held, answers := s.answers, draws := s.draws }

/-- `SoftReset()` (R129): IBUF and OBUF keep their contents. -/
def softReset (s : State) : State := resetBlock s

/-- DONE and CTRL.IE on their way to the reset value 0, with `left` steps of reset recovery still to come (R128): each
either has taken it, for good, or keeps the value from before the fall; both have when recovery ends. DESIGN CHOICE of
form (log entry 23): which of the two is a free value. -/
def settle (left : Nat) (s : State) : State :=
  { s with
    done := s.done && (left != 0 && Config.freeLinger s.draws)
    ie := s.ie && (left != 0 && Config.freeLinger (s.draws + 1))
    draws := s.draws + 2 }

/-- `HardwareReset()` (R128), when `rst_n` rises: IBUF and OBUF become unspecified, and reset recovery takes a
free number of steps. DESIGN CHOICE (log entries 6 and 23): the registers and tables take their values at the rise, but
for DONE and CTRL.IE, the two that `irq` shows, which take theirs at some point of recovery. -/
def hardReset (s : State) : State :=
  settle (Config.recoveryTime (s.draws + 2)) { resetBlock s with
    done := s.done, ie := s.ie
    ibuf := Memory.unspecified s.draws, obuf := Memory.unspecified (s.draws + 1)
    recovery := Config.recoveryTime (s.draws + 2), draws := s.draws + 3 }

end Sys2Proof.Machine
end

