-- ==== Sys2Proof/Machine/Operands.lean ====
section
/-! DEFINITION. The implicit operands of the commands (30_encoding.md R72, R73): the message, the bit strings and
their bytes (00_scope.md R11, R12), the codes (10_state.md R37), and the checks that guard an operand: CheckLen,
CheckCodebook (42_derive.md R85) and CheckPadding (44_unpack_decode.md R95). -/

namespace Sys2Proof.Machine

/-! ### Bytes and bit strings (R11, R12) -/

/-- `bits8(v)`, the most significant bit first (R12). -/
def bits8 (v : Byte) : Bits :=
  [v.getLsbD 7, v.getLsbD 6, v.getLsbD 5, v.getLsbD 4, v.getLsbD 3, v.getLsbD 2, v.getLsbD 1, v.getLsbD 0]

/-- The number a bit string stands for, its first symbol the most significant. -/
def bitsValue (s : Bits) : Nat := s.foldl (fun v x => 2 * v + x.toNat) 0

/-- `byte(s)` of an 8-symbol string (R12). -/
def byteOf (s : Bits) : Byte := BitVec.ofNat 8 (bitsValue s)

/-- `zeros(k)` (R11). -/
def zeros (k : Nat) : Bits := List.replicate k false

/-- `IsPrefix(s, t)`, equality included (R11). -/
def isPrefix : Bits → Bits → Bool
  | [], _ => true
  | _ :: _, [] => false
  | x :: s, y :: t => (x == y) && isPrefix s t

/-- The text bit of a symbol: `0x30 + x` (R91). -/
def textByte (x : Bool) : Byte := 0x30#8 + (if x then 1#8 else 0#8)

/-- Whether a byte is a text bit, 0x30 or 0x31 (R93). -/
def isTextBit (c : Byte) : Bool := (c == 0x30#8) || (c == 0x31#8)

/-- The symbol `c - 0x30` of a text bit (R93, R110). -/
def textSymbol (c : Byte) : Bool := c == 0x31#8

/-! ### Codes (R37, R38) -/

/-- `CODE[b].BITS[t]`: position `t` of the 256-position store (R37, R59). -/
def CodeEntry.symbolAt (e : CodeEntry) (t : Nat) : Bool := e.bits.getLsbD (255 - t)

/-- `code(b) = CODE[b].BITS[0 .. CODE[b].LEN-1]` (R37). -/
def CodeEntry.symbols (e : CodeEntry) : Bits := (List.range e.len.toNat).map e.symbolAt

/-- `s ++ zeros(256 - len(s))` as the 256-position store (R82). -/
def storeBits (s : Bits) : BitVec 256 := BitVec.ofNat 256 (bitsValue s * 2 ^ (256 - s.length))

/-- The entry `Assign(b, s)` writes (R82). -/
def CodeEntry.ofCode (s : Bits) : CodeEntry :=
  { valid := true, len := BitVec.ofNat 8 s.length, bits := storeBits s }

/-- The valid entries of CODE with their byte numbers, in ascending byte order. -/
def validCodes (c : Codes) : List (Nat × CodeEntry) :=
  (c.toList.zipIdx.filter fun p => p.1.valid).map fun p => (p.2, p.1)

/-- The byte a code stands for: some `b` with `CODE[b].VALID = 1` and `code(b) = s` (R38, R97), the first in byte
order; after CheckCodebook there is at most one (R86). -/
def ringLookup (c : Codes) (s : Bits) : Option Byte :=
  (c.toList.findIdx? fun e => e.valid && (e.len.toNat == s.length) && (e.symbols == s)).map (BitVec.ofNat 8)

/-! ### CheckLen and the message (R73) -/

/-- The bytes IBUF[0 .. IN_LEN-1] (R39). -/
def message (s : State) : List Byte := (List.range s.inLen.toNat).map s.ibuf.read

/-- `CheckLen()` (R73): LEN_RANGE when IN_LEN exceeds IBUF_SIZE. -/
def lenFault (s : State) : Option Raised :=
  if s.inLen.toNat > s.params.ibufSize then some { code := .lenRange, index := 0, value := s.inLen } else none

/-! ### CheckCodebook (R85) -/

/-- The first pass of R85: the first valid entry of length 0. -/
def emptyCode (codes : List (Nat × CodeEntry)) : Option Nat :=
  (codes.find? fun p => p.2.len == 0).map Prod.fst

/-- Whether two codes are equal or one is a prefix of the other. -/
def clash (e₁ e₂ : CodeEntry) : Bool := isPrefix e₁.symbols e₂.symbols || isPrefix e₂.symbols e₁.symbols

/-- The second pass of R85: the first pair `b1 < b2`, in `(b1, b2)` order, of valid entries that clash. -/
def prefixPair : List (Nat × CodeEntry) → Option (Nat × Nat)
  | [] => none
  | (b₁, e₁) :: codes =>
    match codes.find? fun p => clash e₁ p.2 with
    | some p => some (b₁, p.1)
    | none => prefixPair codes

/-- `CheckCodebook()` (R85): RING_INVALID for an empty code first, then for a prefix pair. -/
def codebookFault (c : Codes) : Option Raised :=
  match emptyCode (validCodes c) with
  | some b => some { code := .ringInvalid, index := BitVec.ofNat 32 b, value := BitVec.ofNat 32 b }
  | none =>
    match prefixPair (validCodes c) with
    | some (b₁, b₂) => some { code := .ringInvalid, index := BitVec.ofNat 32 b₁, value := BitVec.ofNat 32 b₂ }
    | none => none

/-! ### CheckPadding and the packed bits (R95, R96) -/

/-- The padding count `p`, the second-to-last byte (R95). -/
def paddingCount (s : State) : Nat := (s.ibuf.read (s.inLen.toNat - 2)).toNat

/-- `CheckPadding()` (R95): CORRUPT_PADDING for an input shorter than the trailer, then for a count above 8. -/
def paddingFault (s : State) : Option Raised :=
  if s.inLen.toNat < 2 then some { code := .corruptPadding, index := 0, value := s.inLen }
  else if paddingCount s > 8 then
    some { code := .corruptPadding, index := s.inLen - 2, value := BitVec.ofNat 32 (paddingCount s) }
  else none

/-- The bytes before the trailer, IBUF[0 .. IN_LEN-3] (R96). -/
def dataBytes (s : State) : List Byte := (message s).take (s.inLen.toNat - 2)

/-- The data symbols of the final byte, its first `8-p` bits (R96). -/
def finalSymbols (s : State) (p : Nat) : Bits := (bits8 (s.ibuf.read (s.inLen.toNat - 1))).take (8 - p)

end Sys2Proof.Machine
end

