-- ==== Sys2Proof/Machine/Flags.lean ====
section
/-! DEFINITION. STATUS, the `irq` output and the error codes (10_state.md R22, R23, R46; 60_exceptions.md R116,
R121), the result registers of the output commands (10_state.md R27 to R29), and the two flag bits a STATUS read
leaves unspecified while a command runs. -/

namespace Sys2Proof.Machine

/-- The number of an error code (R116). -/
def ErrCode.number : ErrCode → Nat
  | .none => 0
  | .emptyInput => 1
  | .degenerateTree => 2
  | .unknownSymbol => 3
  | .incompleteCode => 4
  | .corruptPadding => 5
  | .badCommand => 6
  | .noTree => 7
  | .ringInvalid => 8
  | .obufOverflow => 9
  | .lenRange => 10
  | .badBitchar => 11

/-- A STATUS word from its five bits, bits [31:5] reading 0 (R22). -/
def statusBits (busy done err freqValid treeValid : Bool) : Word :=
  BitVec.ofNat 32 (busy.toNat + 2 * done.toNat + 4 * err.toNat + 8 * freqValid.toNat + 16 * treeValid.toNat)

/-- What a STATUS read returns while IDLE (R22). -/
def statusWord (s : State) : Word :=
  statusBits (decide (s.phase = .busy)) s.done s.err s.freqValid s.treeValid

/-- The `irq` output: STATUS.DONE and CTRL.IE (R46, R121), and 0 while `rst_n = 0` (R128). -/
def irq (s : State) : Bool := s.rstN && (s.done && s.ie)

/-- Whether a command is an output command (R114). -/
def isOutput : Instr → Bool
  | .encode | .encpack | .pack | .unpack | .decode | .decompress | .compress | .encodeOnly => true
  | .nop | .analyze | .build | .derive | .reserved _ => false

/-- The result registers a successful output command writes (R27, R28, R29). -/
def setResult (outLen bitLen pad : Nat) (s : State) : State :=
  { s with outLen := BitVec.ofNat 32 outLen, bitLen := BitVec.ofNat 32 bitLen, pad := BitVec.ofNat 4 pad }

/-- Whether CheckLen passes (R73). -/
def lenOk (s : State) : Bool := decide (s.inLen.toNat ≤ s.params.ibufSize)

/-- The values the running command writes to FREQ_VALID (R78, R104, R105). -/
def freqValidWrites (i : Instr) (s : State) : List Bool :=
  match i with
  | .analyze | .compress | .encodeOnly => if lenOk s then [true] else []
  | .nop | .build | .derive | .encode | .encpack | .pack | .unpack | .decode | .decompress | .reserved _ => []

/-- The values the running command writes to TREE_VALID (R78, R80, R104, R105). -/
def treeValidWrites (i : Instr) (s : State) : List Bool :=
  match i with
  | .analyze => if lenOk s then [false] else []
  | .build => [allBytes.any fun b => freqAt s.freq b != 0]
  | .compress | .encodeOnly => if lenOk s then (if s.inLen.toNat = 0 then [false] else [false, true]) else []
  | .nop | .derive | .encode | .encpack | .pack | .unpack | .decode | .decompress | .reserved _ => []

/-- One of the admitted values, chosen by a free value: the value before the command, or one it writes (R22). -/
def admitted (before : Bool) (writes : List Bool) (draw : Nat) : Bool :=
  (before :: writes).getD (Config.freePick draw % (writes.length + 1)) before

/-- What a STATUS read returns while BUSY = 1 (R22): BUSY = 1, DONE = 0, ERR = 0, FREQ_VALID and TREE_VALID each
one of the admitted values, drawn afresh at every read. -/
def busyStatus (i : Instr) (s : State) : Word :=
  statusBits true false false
    (admitted s.freqValid (freqValidWrites i s) s.draws)
    (admitted s.treeValid (treeValidWrites i s) (s.draws + 1))

end Sys2Proof.Machine
end

