-- ==== Sys2Proof/Machine/Analyze.lean ====
section
/-! DEFINITION. ANALYZE, the frequency analyzer (40_analyze.md R78). -/

namespace Sys2Proof.Machine

/-- `FREQ[b] <- FREQ[b] + 1` (R78). -/
def countByte (f : Freqs) (b : Byte) : Freqs := setFreq f b (freqAt f b + 1)

/-- The counts of a message: every bin cleared first, then one count per byte (R78). -/
def histogram (msg : List Byte) : Freqs := msg.foldl countByte zeroFreqs

/-- The number of bins that are not zero (R78, R30). -/
def distinct (f : Freqs) : Nat := (allBytes.filter fun b => freqAt f b != 0).length

/-- The pseudocode of ANALYZE after its checks: FREQ, NSYM and the two flags (R78). -/
def tabulate (s : State) : State :=
  { s with
    freq := histogram (message s), nsym := BitVec.ofNat 9 (distinct (histogram (message s)))
    freqValid := true, treeValid := false }

/-- The pseudocode of ANALYZE (R78). -/
def runAnalyze (s : State) : Run State :=
  (require (lenFault s) (clearHidden s)).bind fun s => .ok (tabulate s)

/-- ANALYZE (R78). -/
def execAnalyze (s : State) : Host.Outcome State Fault Refusal := complete false (runAnalyze s)

end Sys2Proof.Machine
end

