-- ==== Sys2Proof/Machine/Build.lean ====
section
/-! DEFINITION. BUILD, the tree builder (41_build.md R80). -/

namespace Sys2Proof.Machine

/-- The bytes of the FrequencyTable in its iteration order, ascending (R35, R80: `sym`). -/
def presentBytes (f : Freqs) : List Byte := allBytes.filter fun b => freqAt f b != 0

/-- The entry of a leaf (R80). -/
def leafEntry (f : Freqs) (b : Byte) : NodeEntry :=
  { valid := true, internal := false, symbol := b, left := 0, right := 0, weight := freqAt f b }

/-- The entry of a merged node (R80): the first node taken is LEFT, the second RIGHT. -/
def mergedEntry (n : Nodes) (a c : NodeIdx) : NodeEntry :=
  { valid := true, internal := true, symbol := 0, left := a, right := c
    weight := (nodeAt n a).weight + (nodeAt n c).weight }

/-- One Leaf per table entry, at indices counting from `j` (R80). -/
def writeLeaves (f : Freqs) : Nat → List Byte → Nodes → Nodes
  | _, [], n => n
  | j, b :: bs, n => writeLeaves f (j + 1) bs (setNode n (BitVec.ofNat 9 j) (leafEntry f b))

/-- `key(j) < key(k)`: lower weight first, and among equal weights the lower NODE index (R80). -/
def keyLt (n : Nodes) (j k : NodeIdx) : Bool :=
  decide ((nodeAt n j).weight.toNat < (nodeAt n k).weight.toNat)
    || (decide ((nodeAt n j).weight = (nodeAt n k).weight) && decide (j.toNat < k.toNat))

/-- The node of least key in Q (R80, R41). -/
def leastKey (n : Nodes) : List NodeIdx → Option NodeIdx
  | [] => none
  | j :: q =>
    match leastKey n q with
    | none => some j
    | some k => if keyLt n j k then some j else some k

/-- The merges (R80): while Q has at least two nodes, the two of least key leave it and their parent `next` enters
it. Each pass shrinks Q by one (R133), so the length of Q bounds the passes. -/
def mergeNodes : Nat → NodeIdx → Nodes × List NodeIdx → Nodes × List NodeIdx
  | 0, _, t => t
  | fuel + 1, next, (n, q) =>
    match leastKey n q with
    | none => (n, q)
    | some a =>
      match leastKey n (q.erase a) with
      | none => (n, q)
      | some c =>
        mergeNodes fuel (next + 1) (setNode n next (mergedEntry n a c), (q.erase a).erase c ++ [next])

/-- NODE and Q before the first merge: every entry cleared, then the leaves 0 .. n-1 (R80). -/
def leafForest (f : Freqs) : Nodes × List NodeIdx :=
  (writeLeaves f 0 (presentBytes f) zeroNodes, (List.range (presentBytes f).length).map (BitVec.ofNat 9))

/-- NODE and Q after the last merge (R80): a function of FREQ alone (R81). -/
def huffmanForest (f : Freqs) : Nodes × List NodeIdx :=
  mergeNodes (presentBytes f).length (BitVec.ofNat 9 (presentBytes f).length) (leafForest f)

/-- The NODE memory BUILD makes from a table (R80). -/
def treeNodes (f : Freqs) : Nodes := (huffmanForest f).1

/-- The root BUILD makes from a table, "the only element of Q" (R80). -/
def treeRoot (f : Freqs) : NodeIdx := (huffmanForest f).2.headD 0

/-- The tree written: NODE, ROOT and TREE_VALID (R80); Q is the hidden selection set (R41). -/
def plantTree (s : State) : State :=
  { s with
    node := treeNodes s.freq, root := treeRoot s.freq, treeValid := true
    hidden := { s.hidden with q := (huffmanForest s.freq).2 } }

/-- The pseudocode of BUILD (R80): on an empty table TREE_VALID is cleared before EMPTY_INPUT is raised, and NODE and
ROOT are not written. -/
def runBuild (s : State) : Run State :=
  if presentBytes s.freq = [] then
    .raised { code := .emptyInput, index := 0, value := 0 } { clearHidden s with treeValid := false }
  else .ok (plantTree (clearHidden s))

/-- BUILD (R80). -/
def execBuild (s : State) : Host.Outcome State Fault Refusal := complete false (runBuild s)

end Sys2Proof.Machine
end

