-- ==== Sys2Proof/Machine/Derive.lean ====
section
/-! DEFINITION. DERIVE, the codebook generator (42_derive.md R82). -/

namespace Sys2Proof.Machine

/-- `Assign(b, s)` (R82). -/
def assign (c : Codes) (b : Byte) (s : Bits) : Codes := setCode c b (CodeEntry.ofCode s)

/-- `Walk(j, s)` (R82) with its explicit stack (R42): left appends 1 and is taken first, right appends 0 and waits on
the stack; a leaf is assigned its path, and the walk goes on with the stack's top. At most 511 nodes are visited
(R133), which bounds the passes. -/
def walk (n : Nodes) : Nat → NodeIdx → Bits → List (NodeIdx × Bits) → Codes → Codes × List (NodeIdx × Bits)
  | 0, _, _, stack, c => (c, stack)
  | fuel + 1, j, s, stack, c =>
    if (nodeAt n j).internal then
      walk n fuel (nodeAt n j).left (s ++ [true]) (((nodeAt n j).right, s ++ [false]) :: stack) c
    else
      match stack with
      | [] => (assign c (nodeAt n j).symbol s, [])
      | (k, t) :: rest => walk n fuel k t rest (assign c (nodeAt n j).symbol s)

/-- The codebook of the tree at `r`, and the traversal stack at the end (R82): a bare Leaf gets the code `0`. -/
def deriveCodes (n : Nodes) (r : NodeIdx) : Codes × List (NodeIdx × Bits) :=
  if (nodeAt n r).internal then walk n 511 r [] [] zeroCodes
  else (assign zeroCodes (nodeAt n r).symbol [false], [])

/-- The largest LEN of a valid entry (R82). -/
def longestCode (c : Codes) : Nat :=
  c.toList.foldl (fun m e => if e.valid then max m e.len.toNat else m) 0

/-- CODE and MAXLEN written (R82). -/
def writeCodebook (s : State) : State :=
  { s with
    code := (deriveCodes s.node s.root).1
    maxLen := BitVec.ofNat 8 (longestCode (deriveCodes s.node s.root).1)
    hidden := { s.hidden with stack := (deriveCodes s.node s.root).2 } }

/-- The pseudocode of DERIVE (R82): NO_TREE before anything is written. -/
def runDerive (s : State) : Run State :=
  if s.treeValid then .ok (writeCodebook (clearHidden s))
  else .raised { code := .noTree, index := 0, value := 0 } (clearHidden s)

/-- DERIVE (R82). -/
def execDerive (s : State) : Host.Outcome State Fault Refusal := complete false (runDerive s)

end Sys2Proof.Machine
end

