-- ==== Sys2Proof/Machine/Output.lean ====
section
/-! DEFINITION. The procedures the output commands share (43_encode_pack.md R87 to R89, 44_unpack_decode.md R96 to
R98): emitting a byte, the serial packer, the delivery of packed bits, the decoder. They act on OBUF and the hidden
state alone, so nothing else can change while they run. -/

namespace Sys2Proof.Machine

/-- What an output procedure may change: OBUF and the hidden state. -/
structure Out where
  obuf : Memory
  hidden : Hidden
  deriving DecidableEq, Repr

/-- The output procedures run inside a state. -/
def onOut (f : Out → Run Out) (s : State) : Run State :=
  match f { obuf := s.obuf, hidden := s.hidden } with
  | .ok o => .ok { s with obuf := o.obuf, hidden := o.hidden }
  | .raised r o => .raised r { s with obuf := o.obuf, hidden := o.hidden }

/-- `Emit(v, i)` (R87): OBUF_OVERFLOW when the output index has reached OBUF_SIZE. -/
def emit (p : Params) (v : Byte) (i : Nat) (o : Out) : Run Out :=
  if o.hidden.outIdx ≥ p.obufSize then
    .raised { code := .obufOverflow, index := BitVec.ofNat 32 i, value := BitVec.ofNat 32 o.hidden.outIdx } o
  else
    .ok { obuf := o.obuf.write o.hidden.outIdx v
          hidden := { o.hidden with outIdx := o.hidden.outIdx + 1 } }

/-- A step for each symbol of a bit string, in order, at IBUF index `i`. -/
def forSymbols (f : Bool → Nat → Out → Run Out) (i : Nat) : Bits → Out → Run Out
  | [], o => .ok o
  | x :: xs, o => (f x i o).bind (forSymbols f i xs)

/-- A step for each byte of a sequence, in order, its IBUF index counting from `i`. -/
def forBytes (f : Byte → Nat → Out → Run Out) : Nat → List Byte → Out → Run Out
  | _, [], o => .ok o
  | i, b :: bs, o => (f b i o).bind (forBytes f (i + 1) bs)

/-- Emitting a symbol as a text bit (R91, R99). -/
def emitText (p : Params) (x : Bool) (i : Nat) (o : Out) : Run Out := emit p (textByte x) i o

/-- Emitting a symbol as a text bit and counting it (R99). -/
def emitTextCounted (p : Params) (x : Bool) (i : Nat) (o : Out) : Run Out :=
  (emitText p x i o).bind fun o => .ok { o with hidden := { o.hidden with nbits := o.hidden.nbits + 1 } }

/-- The loop over the message that ENCODE and ENCPACK share (R91, R92): UNKNOWN_SYMBOL for a byte with no valid
code, else a step for each symbol of its code. -/
def encodeByte (c : Codes) (f : Bool → Nat → Out → Run Out) (b : Byte) (i : Nat) (o : Out) : Run Out :=
  if (codeAt c b).valid then forSymbols f i (codeAt c b).symbols o
  else .raised { code := .unknownSymbol, index := BitVec.ofNat 32 i, value := b.setWidth 32 } o

/-- A byte of a text-bit input (R93, R100): BAD_BITCHAR unless it is 0x30 or 0x31, else a step for its symbol. -/
def textInput (f : Bool → Nat → Out → Run Out) (c : Byte) (i : Nat) (o : Out) : Run Out :=
  if isTextBit c then f (textSymbol c) i o
  else .raised { code := .badBitchar, index := BitVec.ofNat 32 i, value := c.setWidth 32 } o

/-! ### The packer (R88, R89) -/

/-- `PackBit(x, i)` (R88). -/
def packBit (p : Params) (x : Bool) (i : Nat) (o : Out) : Run Out :=
  let acc := o.hidden.acc ++ [x]
  let o₁ : Out := { o with hidden := { o.hidden with acc := acc, nbits := o.hidden.nbits + 1 } }
  if acc.length = 8 then
    (emit p (byteOf acc) i o₁).bind fun o => .ok { o with hidden := { o.hidden with acc := [] } }
  else .ok o₁

/-- The padding count `p = 8 - r` for a remainder (R89). -/
def padCount (acc : Bits) : Nat := 8 - acc.length

/-- `PackFinish(i)`, the trailer (R89). -/
def packFinish (p : Params) (i : Nat) (o : Out) : Run Out :=
  (emit p (BitVec.ofNat 8 (padCount o.hidden.acc)) i o).bind fun o =>
    emit p (byteOf (o.hidden.acc ++ zeros (padCount o.hidden.acc))) i o

/-! ### The unpacker (R96) -/

/-- The symbols of one input byte, taken one at a time from the unconsumed bits (R43, R96). -/
def feedBits (f : Bool → Nat → Out → Run Out) (i : Nat) : Bits → Out → Run Out
  | [], o => .ok { o with hidden := { o.hidden with inBits := [] } }
  | x :: xs, o => (f x i { o with hidden := { o.hidden with inBits := xs } }).bind (feedBits f i xs)

/-- `ForEachPackedBit(p, F)` over the bytes before the trailer and the final symbols, whose index is `last` (R96). -/
def forPackedBits (f : Bool → Nat → Out → Run Out) (data : List Byte) (final : Bits) (last : Nat) (o : Out) : Run Out :=
  (forBytes (fun b i => feedBits f i (bits8 b)) 0 data o).bind (feedBits f last final)

/-! ### The decoder (R97, R98) -/

/-- `DecodeBit(x, i)` (R97). -/
def decodeBit (p : Params) (c : Codes) (x : Bool) (i : Nat) (o : Out) : Run Out :=
  if o.hidden.dead then .ok o
  else if o.hidden.dacc.length = Config.maxCodeLen then
    .ok { o with hidden := { o.hidden with dead := true } }
  else
    let dacc := o.hidden.dacc ++ [x]
    let o₁ : Out := { o with hidden := { o.hidden with dacc := dacc } }
    match ringLookup c dacc with
    | some b => (emit p b i o₁).bind fun o => .ok { o with hidden := { o.hidden with dacc := [] } }
    | none => .ok o₁

/-- `DecodeBit` after the bit counter of DECOMPRESS (R101). -/
def decodeBitCounted (p : Params) (c : Codes) (x : Bool) (i : Nat) (o : Out) : Run Out :=
  decodeBit p c x i { o with hidden := { o.hidden with nbits := o.hidden.nbits + 1 } }

/-- `DecodeFinish(i)` (R98): INCOMPLETE_CODE after an overflow, else for a non-empty accumulator. -/
def decodeFault (i : Word) (h : Hidden) : Option Raised :=
  if h.dead then some { code := .incompleteCode, index := i, value := 256 }
  else if h.dacc.length ≠ 0 then
    some { code := .incompleteCode, index := i, value := BitVec.ofNat 32 h.dacc.length }
  else none

end Sys2Proof.Machine
end

