-- ==== Sys2Proof/Machine/EncodePack.lean ====
section
/-! DEFINITION. ENCODE, ENCPACK and PACK (43_encode_pack.md R91 to R93). -/

namespace Sys2Proof.Machine

/-- The symbols of the message as text bits (R91). -/
def encodeOut (s : State) (o : Out) : Run Out :=
  forBytes (encodeByte s.code (emitText s.params)) 0 (message s) o

/-- OUT_LEN and BIT_LEN are the output index, PAD is 0 (R91). -/
def encodeResult (s : State) : State := setResult s.hidden.outIdx s.hidden.outIdx 0 s

/-- The pseudocode of ENCODE (R91): CheckLen, CheckCodebook, then byte by byte. -/
def runEncode (s : State) : Run State :=
  (require (lenFault s) (clearHidden s)).bind fun s =>
    (require (codebookFault s.code) s).bind fun s =>
      (onOut (encodeOut s) s).bind fun s => .ok (encodeResult s)

/-- ENCODE (R91). -/
def execEncode (s : State) : Host.Outcome State Fault Refusal := complete true (runEncode s)

/-- OUT_LEN is the output index, BIT_LEN the bit count, PAD the padding count (R92, R93). -/
def packResult (s : State) : State := setResult s.hidden.outIdx s.hidden.nbits (padCount s.hidden.acc) s

/-- The symbols of the message through the packer, then the trailer (R92). -/
def encpackOut (s : State) (o : Out) : Run Out :=
  (forBytes (encodeByte s.code (packBit s.params)) 0 (message s) o).bind
    (packFinish s.params s.inLen.toNat)

/-- The pseudocode of ENCPACK (R92). -/
def runEncpack (s : State) : Run State :=
  (require (lenFault s) (clearHidden s)).bind fun s =>
    (require (codebookFault s.code) s).bind fun s =>
      (onOut (encpackOut s) s).bind fun s => .ok (packResult s)

/-- ENCPACK (R92). -/
def execEncpack (s : State) : Host.Outcome State Fault Refusal := complete true (runEncpack s)

/-- The text bits through the packer, then the trailer (R93). -/
def packOut (s : State) (o : Out) : Run Out :=
  (forBytes (textInput (packBit s.params)) 0 (message s) o).bind (packFinish s.params s.inLen.toNat)

/-- The pseudocode of PACK (R93): CODE is not read. -/
def runPack (s : State) : Run State :=
  (require (lenFault s) (clearHidden s)).bind fun s =>
    (onOut (packOut s) s).bind fun s => .ok (packResult s)

/-- PACK (R93). -/
def execPack (s : State) : Host.Outcome State Fault Refusal := complete true (runPack s)

end Sys2Proof.Machine
end

