-- ==== Sys2Proof/Machine/Composite.lean ====
section
/-! DEFINITION. NOP, COMPRESS, ENCODE_ONLY and the reserved command words (45_composite.md R103 to R107). -/

namespace Sys2Proof.Machine

/-- NOP does nothing but complete (R103). -/
def execNop (s : State) : Host.Outcome State Fault Refusal := complete false (.ok s)

/-- The stages ANALYZE, BUILD and DERIVE in that order, each on the state the previous one left; the first raise ends
the run (R104, R105, R107). -/
def runCodebookStages (s : State) : Run State :=
  (runAnalyze s).bind fun s => (runBuild s).bind fun s => runDerive s

/-- The pseudocode of COMPRESS (R104). -/
def runCompress (s : State) : Run State := (runCodebookStages s).bind fun s => runEncpack s

/-- COMPRESS (R104): an output command in every stage (R107). -/
def execCompress (s : State) : Host.Outcome State Fault Refusal := complete true (runCompress s)

/-- The pseudocode of ENCODE_ONLY (R105). -/
def runEncodeOnly (s : State) : Run State := (runCodebookStages s).bind fun s => runEncode s

/-- ENCODE_ONLY (R105): an output command in every stage (R107). -/
def execEncodeOnly (s : State) : Host.Outcome State Fault Refusal := complete true (runEncodeOnly s)

/-- The pseudocode of a reserved command word: `raise E_BAD_COMMAND(0, w)` (R106). -/
def runReserved (w : Word) (s : State) : Run State :=
  .raised { code := .badCommand, index := 0, value := w } s

/-- A reserved command word (R106). -/
def execReserved (w : Word) (s : State) : Host.Outcome State Fault Refusal := complete false (runReserved w s)

end Sys2Proof.Machine
end

