-- ==== Sys2Proof/Machine/UnpackDecode.lean ====
section
/-! DEFINITION. UNPACK, DECODE and DECOMPRESS (44_unpack_decode.md R99 to R101). -/

namespace Sys2Proof.Machine

/-- A step for each symbol of the PackedBytes (R96). -/
def packedInput (f : Bool → Nat → Out → Run Out) (s : State) (o : Out) : Run Out :=
  forPackedBits f (dataBytes s) (finalSymbols s (paddingCount s)) (s.inLen.toNat - 1) o

/-- OUT_LEN is the output index, BIT_LEN the symbol count, PAD the padding count read (R99, R101). -/
def unpackResult (s : State) : State := setResult s.hidden.outIdx s.hidden.nbits (paddingCount s) s

/-- The pseudocode of UNPACK (R99): CheckLen, CheckPadding, then symbol by symbol; CODE is not read. -/
def runUnpack (s : State) : Run State :=
  (require (lenFault s) (clearHidden s)).bind fun s =>
    (require (paddingFault s) s).bind fun s =>
      (onOut (packedInput (emitTextCounted s.params) s) s).bind fun s => .ok (unpackResult s)

/-- UNPACK (R99). -/
def execUnpack (s : State) : Host.Outcome State Fault Refusal := complete true (runUnpack s)

/-- The text bits through the decoder (R100). -/
def decodeOut (s : State) (o : Out) : Run Out :=
  forBytes (textInput (decodeBit s.params s.code)) 0 (message s) o

/-- OUT_LEN is the output index, BIT_LEN is IN_LEN, PAD is 0 (R100). -/
def decodeResult (s : State) : State := setResult s.hidden.outIdx s.inLen.toNat 0 s

/-- The pseudocode of DECODE (R100): CheckLen, CheckCodebook, byte by byte, then DecodeFinish. -/
def runDecode (s : State) : Run State :=
  (require (lenFault s) (clearHidden s)).bind fun s =>
    (require (codebookFault s.code) s).bind fun s =>
      (onOut (decodeOut s) s).bind fun s =>
        (require (decodeFault s.inLen s.hidden) s).bind fun s => .ok (decodeResult s)

/-- DECODE (R100). -/
def execDecode (s : State) : Host.Outcome State Fault Refusal := complete true (runDecode s)

/-- The pseudocode of DECOMPRESS (R101): CheckLen, CheckPadding, CheckCodebook, symbol by symbol, then
DecodeFinish. -/
def runDecompress (s : State) : Run State :=
  (require (lenFault s) (clearHidden s)).bind fun s =>
    (require (paddingFault s) s).bind fun s =>
      (require (codebookFault s.code) s).bind fun s =>
        (onOut (packedInput (decodeBitCounted s.params s.code) s) s).bind fun s =>
          (require (decodeFault s.inLen s.hidden) s).bind fun s => .ok (unpackResult s)

/-- DECOMPRESS (R101). -/
def execDecompress (s : State) : Host.Outcome State Fault Refusal := complete true (runDecompress s)

end Sys2Proof.Machine
end

