-- ==== Sys2Proof/Machine/Dispatch.lean ====
section
/-! DEFINITION. The dispatch from a command to its meaning (30_encoding.md R71). -/

namespace Sys2Proof.Machine

-- The meaning of an accepted command, from its first statement to its completion.
def exec (i : Instr) (s : State) : Host.Outcome State Fault Refusal :=
  match i with
  | .nop => Sys2Proof.Machine.execNop s
  | .analyze => Sys2Proof.Machine.execAnalyze s
  | .build => Sys2Proof.Machine.execBuild s
  | .derive => Sys2Proof.Machine.execDerive s
  | .encode => Sys2Proof.Machine.execEncode s
  | .encpack => Sys2Proof.Machine.execEncpack s
  | .pack => Sys2Proof.Machine.execPack s
  | .unpack => Sys2Proof.Machine.execUnpack s
  | .decode => Sys2Proof.Machine.execDecode s
  | .decompress => Sys2Proof.Machine.execDecompress s
  | .compress => Sys2Proof.Machine.execCompress s
  | .encodeOnly => Sys2Proof.Machine.execEncodeOnly s
  | .reserved w => Sys2Proof.Machine.execReserved w s

end Sys2Proof.Machine
end

