-- ==== Sys2Proof/Decode.lean ====
section
/-! DEFINITION. From a command word to an instruction, and back (30_encoding.md R70, R71, R74, R75). -/

namespace Sys2Proof

/-- The decoder: it compares the whole word with the "word" column of R71, and every other word is reserved
(R70, R74). Total: every 32-bit word is accepted (R112). -/
def decodeWord (w : Word) : Instr :=
  match w.toNat with
  | 0 => .nop
  | 1 => .analyze
  | 2 => .build
  | 3 => .derive
  | 4 => .encode
  | 5 => .encpack
  | 6 => .pack
  | 7 => .unpack
  | 8 => .decode
  | 9 => .decompress
  | 10 => .compress
  | 11 => .encodeOnly
  | _ => .reserved w

/-- Why a sequence of bits is no command. -/
inductive Reject where
  /-- R75: every command is exactly one 32-bit word; this many bits were given. -/
  | notOneWord (nbits : Nat)
  /-- The number does not fit the stated number of bits. -/
  | tooWide (nbits w : Nat)
  deriving DecidableEq, Repr

/-- The decoder on any bits: `nbits` bits whose value is `w`, bit 0 the least significant of the one command
word (R70, R75). -/
def decodeBits (nbits w : Nat) : Except Reject Instr :=
  if nbits = 32 then
    if w < 2 ^ 32 then .ok (decodeWord (BitVec.ofNat 32 w)) else .error (.tooWide nbits w)
  else .error (.notOneWord nbits)

/-- What the decoder reads from an instruction whose bits are `w`, numbered as spec/opcode_table.json numbers
them. -/
def decodeTableWord (nbits w : Nat) : Option Instr :=
  match decodeBits nbits w with
  | .ok i => some i
  | .error _ => none

/-- The encoder: the command word of an instruction (R71), field OP in bits [3:0] and RSVD = 0 in bits [31:4]
(R70); a reserved word stands for itself. -/
def encode : Instr → Word
  | .nop => 0x00000000#32
  | .analyze => 0x00000001#32
  | .build => 0x00000002#32
  | .derive => 0x00000003#32
  | .encode => 0x00000004#32
  | .encpack => 0x00000005#32
  | .pack => 0x00000006#32
  | .unpack => 0x00000007#32
  | .decode => 0x00000008#32
  | .decompress => 0x00000009#32
  | .compress => 0x0000000A#32
  | .encodeOnly => 0x0000000B#32
  | .reserved w => w

end Sys2Proof
end

