-- ==== Sys2Proof/Machine/Bus.lean ====
section
/-! DEFINITION. The register aperture (20_memory.md R47 to R62) and the registers behind it (10_state.md section 2):
the address map, the data of a read, the effect of a write. -/

namespace Sys2Proof.Machine

/-- The registers, in offset order (10_state.md section 2). -/
inductive Reg where
  | id | ctrl | cmd | status | errCode | errIndex | errValue | inLen
  | outLen | bitLen | pad | nsym | root | maxLen | ibufSize | obufSize
  deriving DecidableEq, Repr

/-- What stands at a mapped word offset (R48). -/
inductive Region where
  | reg (r : Reg)
  /-- FREQ window, bin `b` (R57). -/
  | freq (b : Byte)
  /-- NODE window, word 0 of entry `j` (R58). -/
  | nodeWeight (j : NodeIdx)
  /-- NODE window, word 1 of entry `j` (R58). -/
  | nodeFields (j : NodeIdx)
  /-- CODE window, word `w` of entry `b` (R59). -/
  | code (b : Byte) (w : Nat)
  /-- IBUF window, the word whose lowest byte is `IBUF[i]` (R60). -/
  | ibuf (i : Nat)
  /-- OBUF window, the word whose lowest byte is `OBUF[i]` (R61). -/
  | obuf (i : Nat)
  deriving DecidableEq, Repr

/-- The register at word `k` of the register region (10_state.md section 2). -/
def regAt (k : Nat) : Option Reg :=
  [Reg.id, .ctrl, .cmd, .status, .errCode, .errIndex, .errValue, .inLen,
   .outLen, .bitLen, .pad, .nsym, .root, .maxLen, .ibufSize, .obufSize][k]?

/-- Whether a transaction is misaligned, `addr[1:0] != 0` (R51). -/
def misaligned (a : Offset) : Bool := a.toNat % 4 != 0

/-- The address map (R48): the region of an aligned offset, `none` where it is unmapped. -/
def regionOf (p : Params) (off : Offset) : Option Region :=
  let a := off.toNat
  if a < 0x40 then (regAt (a / 4)).map .reg
  else if a < 0x1000 then none
  else if a < 0x1400 then some (.freq (BitVec.ofNat 8 ((a - 0x1000) / 4)))
  else if a < 0x2000 then none
  else if a < 0x3000 then
    if a % 8 = 0 then some (.nodeWeight (BitVec.ofNat 9 ((a - 0x2000) / 8)))
    else some (.nodeFields (BitVec.ofNat 9 ((a - 0x2000) / 8)))
  else if a < 0x4000 then none
  else if a < 0x8000 then some (.code (BitVec.ofNat 8 ((a - 0x4000) / 64)) ((a - 0x4000) % 64 / 4))
  else if a < 0x100000 then none
  else if a < 0x100000 + p.ibufSize then some (.ibuf (a - 0x100000))
  else if a < 0x200000 then none
  else if a < 0x200000 + p.obufSize then some (.obuf (a - 0x200000))
  else none

/-! ### The words of the windows -/

/-- Word 1 of a NODE entry: `VALID<<31 | INTERNAL<<30 | RIGHT<<17 | LEFT<<8 | SYMBOL` (R58). -/
def nodeWord (e : NodeEntry) : Word :=
  BitVec.ofNat 32 (e.valid.toNat * 2 ^ 31 + e.internal.toNat * 2 ^ 30
    + e.right.toNat * 2 ^ 17 + e.left.toNat * 2 ^ 8 + e.symbol.toNat)

/-- Word `w` of a CODE entry (R59): word 0 holds VALID and LEN, words 1..8 hold BITS most significant first, words
9..15 read 0. -/
def codeWord (e : CodeEntry) (w : Nat) : Word :=
  if w = 0 then BitVec.ofNat 32 (e.valid.toNat + e.len.toNat * 2 ^ 8)
  else if w ≤ 8 then e.bits.extractLsb' (32 * (8 - w)) 32
  else 0

/-- BITS with positions `32(w-1) .. 32(w-1)+31` replaced by a word (R59), `w` in 1..8. -/
def spliceBits (bits : BitVec 256) (w : Nat) (v : Word) : BitVec 256 :=
  let lane := 32 * (8 - w)
  (bits &&& ~~~(((BitVec.allOnes 32).setWidth 256) <<< lane)) ||| ((v.setWidth 256) <<< lane)

/-- A CODE entry after a host write of word `w` (R59); reserved bits and words ignore the write (R53). -/
def writeCodeWord (e : CodeEntry) (w : Nat) (v : Word) : CodeEntry :=
  if w = 0 then { e with valid := v.getLsbD 0, len := v.extractLsb' 8 8 }
  else if w ≤ 8 then { e with bits := spliceBits e.bits w v }
  else e

/-- A word of a byte buffer, the byte at the lowest index in bits [7:0] (R60, R61, R62). -/
def bufferWord (m : Memory) (i : Nat) : Word := m.read (i + 3) ++ m.read (i + 2) ++ m.read (i + 1) ++ m.read i

/-- The bytes of a word in index order (R60, R62). -/
def wordBytes (v : Word) : List Byte :=
  [v.extractLsb' 0 8, v.extractLsb' 8 8, v.extractLsb' 16 8, v.extractLsb' 24 8]

/-! ### Reads -/

/-- The value of a register (10_state.md section 2), reserved bits reading 0 (R53). -/
def readReg (s : State) : Reg → Word
  | .id => Config.idValue
  | .ctrl => BitVec.ofNat 32 s.ie.toNat
  | .cmd => s.cmd
  | .status => statusWord s
  | .errCode => BitVec.ofNat 32 s.errCode.number
  | .errIndex => s.errIndex
  | .errValue => s.errValue
  | .inLen => s.inLen
  | .outLen => s.outLen
  | .bitLen => s.bitLen
  | .pad => s.pad.setWidth 32
  | .nsym => s.nsym.setWidth 32
  | .root => s.root.setWidth 32
  | .maxLen => s.maxLen.setWidth 32
  | .ibufSize => BitVec.ofNat 32 s.params.ibufSize
  | .obufSize => BitVec.ofNat 32 s.params.obufSize

/-- The word a mapped offset reads (R49, R57 to R61). -/
def readRegion (s : State) : Region → Word
  | .reg r => readReg s r
  | .freq b => freqAt s.freq b
  | .nodeWeight j => (nodeAt s.node j).weight
  | .nodeFields j => nodeWord (nodeAt s.node j)
  | .code b w => codeWord (codeAt s.code b) w
  | .ibuf i => bufferWord s.ibuf i
  | .obuf i => bufferWord s.obuf i

/-- `MemRead(addr, 4)` (R49): a misaligned or unmapped read is answered SLVERR with data 0 (R51, R52). No read has a
side effect (R55). -/
def memRead (s : State) (a : Offset) : Response × Word :=
  if misaligned a then (.slverr, 0)
  else match regionOf s.params a with
    | none => (.slverr, 0)
    | some g => (.okay, readRegion s g)

/-! ### Writes -/

/-- A write to CTRL (R20): bit 1 performs the soft reset and the written IE is ignored (R129); otherwise bit 0 is
IE. -/
def writeCtrl (v : Word) (s : State) : State :=
  if v.getLsbD 1 then softReset s else { s with ie := v.getLsbD 0 }

/-- A write to STATUS affects only DONE (R22, R119). -/
def writeStatus (v : Word) (s : State) : State := if v.getLsbD 1 then acknowledge s else s

/-- A write to a register (10_state.md section 2): read-only registers ignore it (R53). -/
def writeReg (v : Word) (s : State) : Reg → State
  | .ctrl => writeCtrl v s
  | .cmd => accept v s
  | .status => writeStatus v s
  | .inLen => { s with inLen := v }
  | .id | .errCode | .errIndex | .errValue | .outLen | .bitLen | .pad
  | .nsym | .root | .maxLen | .ibufSize | .obufSize => s

/-- A write to a mapped offset (R53, R57 to R61): the FREQ, NODE and OBUF windows ignore it. -/
def writeRegion (v : Word) (s : State) : Region → State
  | .reg r => writeReg v s r
  | .code b w => { s with code := setCode s.code b (writeCodeWord (codeAt s.code b) w v) }
  | .ibuf i => { s with ibuf := s.ibuf.writeAll i (wordBytes v) }
  | .freq _ | .nodeWeight _ | .nodeFields _ | .obuf _ => s

/-- `MemWrite(addr, 4, v)` (R49): a partial-strobe, misaligned or unmapped write is answered SLVERR and has no
effect (R50, R51, R52). -/
def memWrite (s : State) (a : Offset) (strobes : BitVec 4) (v : Word) : Response × State :=
  if strobes != 0xF#4 then (.slverr, s)
  else if misaligned a then (.slverr, s)
  else match regionOf s.params a with
    | none => (.slverr, s)
    | some g => (.okay, writeRegion v s g)

/-- The port records an answer. -/
def record (t : Transaction) (r : Response) (d : Word) (s : State) : State :=
  { s with answers := { txn := t, resp := r, data := d } :: s.answers }

/-- A transaction takes its effect and is answered (R49). -/
def transact (t : Transaction) (s : State) : State :=
  match t with
  | .read a => record t (memRead s a).1 (memRead s a).2 s
  | .write a strobes v => record t (memWrite s a strobes v).1 0 (memWrite s a strobes v).2

end Sys2Proof.Machine
end

