-- ==== Sys2Proof/Machine/Port.lean ====
section
/-! DEFINITION. The port and the pins between the sequencer's commands: which transaction takes effect next, the hold
while a command runs (20_memory.md R49, R54), and the reset input (70_reset_and_hazards.md R128). -/

namespace Sys2Proof.Machine

/-- The offset of STATUS (10_state.md section 2). -/
def statusOffset : Offset := 0x00C#22

/-- Whether a transaction is a read of STATUS, the only one answered while BUSY = 1 (R54). -/
def isStatusRead : Transaction → Bool
  | .read a => decide (a = statusOffset)
  | .write _ _ _ => false

/-- The rest of what the outside world will do. -/
def withInput (es : List HostEvent) (s : State) : State := { s with input := es }

/-- A transaction arrives and is held, after those that arrived before it (R54, R113). -/
def hold (t : Transaction) (s : State) : State := { s with held := s.held ++ [t] }

/-- One read of a POLL (R76): when the data match, the host goes on; otherwise it will read again. -/
def pollStep (mask value data : Word) (es : List HostEvent) (s : State) : State :=
  if data &&& mask = value then withInput es s else s

/-- A read of STATUS while BUSY = 1, answered at once (R22, R54). -/
def answerBusyStatus (s : State) : State :=
  record (.read statusOffset) .okay (busyStatus (decodeWord s.cmd) s) { s with draws := s.draws + 2 }

/-- The reads of STATUS among transactions that are held while BUSY = 1, answered at once, in order (R22, R54). -/
def answerStatusReads : List Transaction → State → State
  | [], s => s
  | t :: ts, s => answerStatusReads ts (if isStatusRead t then answerBusyStatus s else s)

/-- The oldest held transaction takes its effect, and the others stay held (R54, R113). If it starts a command, the
STATUS reads that reset recovery held behind it are answered at once, since they are not held while BUSY = 1 (R54). -/
def release (t : Transaction) (ts : List Transaction) (s : State) : State :=
  let s₁ := transact t { s with held := ts }
  match s₁.phase with
  | .idle => s₁
  | .busy => answerStatusReads ts { s₁ with held := ts.filter fun x => !isStatusRead x }

/-- A step while IDLE (R49, R54, R127): a held transaction first, in the order of arrival; then what the outside world
does next; with nothing to do the block keeps all state. -/
def idleStep (s : State) : State :=
  match s.held with
  | t :: ts => release t ts s
  | [] =>
    match s.input with
    | [] => s
    | .issue t :: es => transact t (withInput es s)
    | .poll a m v :: es => pollStep m v (memRead s a).2 es (transact (.read a) s)
    | .await :: es => withInput es s
    | .rst level :: es => { withInput es s with rstN := level }

/-- A step while a command runs and will not complete yet (R54): a STATUS read is answered, any other transaction is
held, `rst_n` may fall (R128). No STATUS read is among the held ones (`HeldQuiet` of Sys2Proof/Safety.lean). -/
def busyStep (work : Nat) (s : State) : State :=
  let s₁ := { s with work := work }
  match s.input with
  | [] => s₁
  | .issue t :: es => if isStatusRead t then answerBusyStatus (withInput es s₁) else hold t (withInput es s₁)
  | .poll a m v :: es =>
    if a = statusOffset then pollStep m v (busyStatus (decodeWord s.cmd) s) es (answerBusyStatus s₁) else s₁
  | .await :: es => if s.held = [] then withInput es s₁ else s₁
  | .rst level :: es => { withInput es s₁ with rstN := level }

/-- A step of reset recovery (R128): every transaction is held, STATUS reads included, and the block comes nearer to its
reset state. -/
def recoveryStep (left : Nat) (s : State) : State :=
  let s₁ := settle left { s with recovery := left }
  match s.input with
  | [] => s₁
  | .issue t :: es => hold t (withInput es s₁)
  | .poll _ _ _ :: _ => s₁
  | .await :: es => if s.held = [] then withInput es s₁ else s₁
  | .rst level :: es => { withInput es s₁ with rstN := level }

/-- A step while `rst_n = 0` (R128): no transaction is answered. When `rst_n` rises the block is reset; a rise in the
middle of a transaction is outside the spec (R135). -/
def lowStep (s : State) : Host.Outcome State Fault Refusal :=
  match s.input with
  | [] => .next s
  | .issue t :: es => .next (hold t (withInput es s))
  | .poll a _ _ :: es => .next (hold (.read a) (withInput es s))
  | .await :: es => .next (if s.held = [] then withInput es s else s)
  | .rst false :: es => .next (withInput es s)
  | .rst true :: es =>
    match s.held with
    | [] => .next (hardReset { withInput es s with rstN := true })
    | _ :: _ => .fault .resetInMidTransaction

/-- The state in which the very next step runs the command word `w`: accepted (R112), out of reset, and with no more
steps to wait. -/
def acceptNow (w : Word) (s : State) : State :=
  { accept w s with rstN := true, recovery := 0, work := 0 }

end Sys2Proof.Machine
end

