-- ==== Sys2Proof/Machine/Step.lean ====
section
/-! DEFINITION. One step of the machine. -/

namespace Sys2Proof.Machine

/-- One step: under reset and in reset recovery the pins and the port move (R128); while IDLE the host moves (R49);
while BUSY the port moves as long as the command's free running time lasts (R54, R134), then the sequencer runs the
accepted command to its completion (R112). -/
def step (s : State) : Host.Outcome State Fault Refusal :=
  if s.rstN then
    match s.recovery with
    | left + 1 => .next (recoveryStep left s)
    | 0 =>
      match s.phase with
      | .idle => .next (idleStep s)
      | .busy =>
        match s.work with
        | work + 1 => .next (busyStep work s)
        | 0 => exec (decodeWord s.cmd) s
  else lowStep s

/-- The state in which the next step runs the command whose bits are `w`: the block fetches nothing (R18), so this
stands for the host's CMD write having been accepted. -/
def State.withFetchWord (s : State) (nbits w : Nat) : State := acceptNow (BitVec.ofNat 32 (w % 2 ^ nbits)) s

end Sys2Proof.Machine
end

