-- ==== Sys2Proof/Machine/Script.lean ====
section
/-! DEFINITION. The host script syntax (30_encoding.md R76, R77): each line as what the outside world does next. A bus
operation waits for its answer before the next line begins. -/

namespace Sys2Proof.Machine

/-- `WR off, v` (R76). -/
def scriptWr (off : Offset) (v : Word) : List HostEvent := [.issue (.write off 0xF#4 v), .await]

/-- `RD off` (R76): the data stand in the answer. -/
def scriptRd (off : Offset) : List HostEvent := [.issue (.read off), .await]

/-- `POLL off, m, v` (R76). -/
def scriptPoll (off : Offset) (m v : Word) : List HostEvent := [.poll off m v]

/-- `CMD MNEMONIC` (R76). -/
def scriptCmd (i : Instr) : List HostEvent := scriptWr 0x008#22 (encode i)

/-- `RUN MNEMONIC` (R77). -/
def scriptRun (i : Instr) : List HostEvent :=
  scriptCmd i ++ scriptPoll 0x00C#22 0x00000003#32 0x00000002#32 ++ scriptWr 0x00C#22 0x00000002#32

/-- The word `b(4k) | b(4k+1)<<8 | b(4k+2)<<16 | b(4k+3)<<24` with missing bytes 0 (R77). -/
def loadinWord (m : List Byte) (k : Nat) : Word :=
  m.getD (4 * k + 3) 0 ++ m.getD (4 * k + 2) 0 ++ m.getD (4 * k + 1) 0 ++ m.getD (4 * k) 0

/-- `LOADIN b0 b1 ... b(N-1)` (R77). -/
def scriptLoadin (m : List Byte) : List HostEvent :=
  ((List.range ((m.length + 3) / 4)).flatMap fun k => scriptWr (BitVec.ofNat 22 (0x100000 + 4 * k)) (loadinWord m k))
    ++ scriptWr 0x01C#22 (BitVec.ofNat 32 m.length)

/-- The word whose bit `31-t` is `s[32(w-1)+t]`, 0 beyond `len(s)` (R77). -/
def setcodeWord (s : Bits) (w : Nat) : Word :=
  BitVec.ofNat 32 (bitsValue ((List.range 32).map fun t => s.getD (32 * (w - 1) + t) false))

/-- `SETCODE b, L, s` with `L = len(s)` (R77). -/
def scriptSetcode (b : Byte) (s : Bits) : List HostEvent :=
  scriptWr (BitVec.ofNat 22 (0x4000 + 64 * b.toNat)) (BitVec.ofNat 32 (s.length * 2 ^ 8 + 1))
    ++ (List.range 8).flatMap fun w =>
      scriptWr (BitVec.ofNat 22 (0x4000 + 64 * b.toNat + 4 * (w + 1))) (setcodeWord s (w + 1))

/-- `CLRCODE b` (R77). -/
def scriptClrcode (b : Byte) : List HostEvent := scriptWr (BitVec.ofNat 22 (0x4000 + 64 * b.toNat)) 0

end Sys2Proof.Machine
end

