-- ==== Sys2Proof/Safety.lean ====
section
/-! DEFINITION. The terms claims are stated in: the EncodedBits and PackedBytes of the spec as plain functions (R11,
R90, R96), what the codebook and the tree must be (R84, R85, R81), what a command's outcome is (R115), and the
invariant of the machine. -/

namespace Sys2Proof.Machine

/-! ### Runs -/

/-- `k` steps of the machine, ended by the first fault or refusal. -/
def runSteps : Nat → State → Host.Outcome State Fault Refusal
  | 0, s => .next s
  | k + 1, s =>
    match step s with
    | .next t => runSteps k t
    | .fault r => .fault r
    | .refused r => .refused r

/-! ### Outcomes -/

/-- A command on `s` that ended without error (R113), with nothing changed but what `f` wrote. -/
def succeeded (s : State) : State := { s with done := true, phase := .idle, hidden := Hidden.empty }

/-- A command on `s` that is no output command and ended in error (R114). -/
def failed (e : ErrCode) (x y : Word) (s : State) : State :=
  { s with
    errCode := e, errIndex := x, errValue := y
    err := true, done := true, phase := .idle, hidden := Hidden.empty }

/-- An output command on `s` that ended in error (R114): OUT_LEN, BIT_LEN and PAD are 0 and every byte of OBUF is the
free value of the draw taken. -/
def failedOutput (e : ErrCode) (x y : Word) (s : State) : State :=
  { s with
    errCode := e, errIndex := x, errValue := y
    err := true, done := true, phase := .idle, hidden := Hidden.empty
    outLen := 0, bitLen := 0, pad := 0
    obuf := { draw := s.draws, cells := [] }, draws := s.draws + 1 }

/-- An output command on `s` that ended without error, having written `bytes` from OBUF[0] on (R40, R113). -/
def succeededOutput (bytes : List Byte) (bitLen pad : Nat) (s : State) : State :=
  { s with
    done := true, phase := .idle, hidden := Hidden.empty
    obuf := s.obuf.writeAll 0 bytes
    outLen := BitVec.ofNat 32 bytes.length, bitLen := BitVec.ofNat 32 bitLen, pad := BitVec.ofNat 4 pad }

/-- The bytes OBUF[0 .. OUT_LEN-1] (R115). -/
def outputBytes (s : State) : List Byte := (List.range s.outLen.toNat).map s.obuf.read

/-- A host that has put `m` into IBUF from IBUF[0] on and its length into IN_LEN (R131 step 3). -/
def loadMessage (m : List Byte) (s : State) : State :=
  { s with ibuf := s.ibuf.writeAll 0 m, inLen := BitVec.ofNat 32 m.length }

/-- The errors a command may end in, in the order its checks can fire (R116, R118). -/
def mayRaise : Instr → List ErrCode
  | .nop => []
  | .analyze => [.lenRange]
  | .build => [.emptyInput]
  | .derive => [.noTree]
  | .encode | .encpack => [.lenRange, .ringInvalid, .unknownSymbol, .obufOverflow]
  | .pack => [.lenRange, .badBitchar, .obufOverflow]
  | .unpack => [.lenRange, .corruptPadding, .obufOverflow]
  | .decode => [.lenRange, .ringInvalid, .badBitchar, .obufOverflow, .incompleteCode]
  | .decompress => [.lenRange, .corruptPadding, .ringInvalid, .obufOverflow, .incompleteCode]
  | .compress | .encodeOnly => [.lenRange, .emptyInput, .obufOverflow]
  | .reserved _ => [.badCommand]

/-! ### Bit streams -/

/-- EncodedBits: the codes of the message bytes in order (00_scope.md glossary). -/
def encodedBits (c : Codes) (m : List Byte) : Bits := m.flatMap fun b => (codeAt c b).symbols

/-- Every byte of a message has a valid code. -/
def Coded (c : Codes) (m : List Byte) : Prop := ∀ b ∈ m, (codeAt c b).valid = true

/-- The text form of a bit string, one byte 0x30 or 0x31 per symbol (R91). -/
def textBits (e : Bits) : List Byte := e.map textByte

/-- The padding count of the PackedBytes of `N` symbols, `8 - (N mod 8)` (R90). -/
def packPadding (N : Nat) : Nat := 8 - N % 8

/-- The PackedBytes of a bit string (R90): the full 8-bit groups, the padding count, the final byte. -/
def packedBytes (e : Bits) : List Byte :=
  ((List.range (e.length / 8)).map fun g => byteOf ((e.drop (8 * g)).take 8))
    ++ [BitVec.ofNat 8 (packPadding e.length),
        byteOf (e.drop (8 * (e.length / 8)) ++ zeros (packPadding e.length))]

/-- The EncodedBits of the PackedBytes in IBUF, `p` their padding count (R96). -/
def packedSymbols (s : State) : Bits := (dataBytes s).flatMap bits8 ++ finalSymbols s (paddingCount s)

/-- The trailer of the PackedBytes in IBUF passes CheckPadding (R95). -/
def PaddingOk (s : State) : Prop := 2 ≤ s.inLen.toNat ∧ paddingCount s ≤ 8

/-- The IBUF index that holds symbol `k` of the PackedBytes in IBUF (R96). -/
def symbolIndex (s : State) (k : Nat) : Nat :=
  if k < 8 * (s.inLen.toNat - 2) then k / 8 else s.inLen.toNat - 1

/-! ### The codebook (R84, R85) -/

/-- `IsPrefix(s, t)` holds when `len(s) <= len(t)` and `t[0..len(s)-1] = s` (R11). -/
def BitPrefix (s t : Bits) : Prop := s.length ≤ t.length ∧ t.take s.length = s

/-- No valid code is empty and no valid code is a prefix of another, equal codes included (R84, R85). -/
def PrefixFree (c : Codes) : Prop :=
  (∀ b, (codeAt c b).valid = true → (codeAt c b).symbols ≠ []) ∧
  ∀ b₁ b₂, b₁ ≠ b₂ → (codeAt c b₁).valid = true → (codeAt c b₂).valid = true →
    ¬ BitPrefix (codeAt c b₁).symbols (codeAt c b₂).symbols

/-- No valid code is a first part of a bit string: the decoder matches nothing in it (R97). -/
def NoCodeStarts (c : Codes) (s : Bits) : Prop :=
  ∀ b, (codeAt c b).valid = true → ¬ BitPrefix (codeAt c b).symbols s

/-- A CODE moved elsewhere and written back "entry by entry with VALID, LEN and the first LEN positions of BITS
unchanged" (R111). -/
def SameRing (c d : Codes) : Prop :=
  ∀ b, (codeAt d b).valid = (codeAt c b).valid ∧
    ((codeAt c b).valid = true → (codeAt d b).len = (codeAt c b).len ∧ (codeAt d b).symbols = (codeAt c b).symbols)

/-! ### The tree (R80, R81) -/

/-- The sum of all counts of a table. -/
def freqTotal (f : Freqs) : Nat := (allBytes.map fun b => (freqAt f b).toNat).sum

/-- `p` is an internal node with the child `j`. -/
def ParentOf (n : Nodes) (p j : NodeIdx) : Prop :=
  (nodeAt n p).valid = true ∧ (nodeAt n p).internal = true ∧ ((nodeAt n p).left = j ∨ (nodeAt n p).right = j)

/-- The node reached from `j` along a path, 1 to the left child and 0 to the right (R82). -/
def follow (n : Nodes) : NodeIdx → Bits → NodeIdx
  | j, [] => j
  | j, x :: path => follow n (if x then (nodeAt n j).left else (nodeAt n j).right) path

/-- Whether every node on a path before its last is internal. -/
def throughInternal (n : Nodes) : NodeIdx → Bits → Bool
  | _, [] => true
  | j, x :: path =>
    (nodeAt n j).internal && throughInternal n (if x then (nodeAt n j).left else (nodeAt n j).right) path

/-- What R81 says of NODE and ROOT after a successful BUILD from the table `f` with `n` leaves. -/
structure HuffmanTree (f : Freqs) (n : Nodes) (r : NodeIdx) : Prop where
  /-- "NODE[0 .. 2n-2] are VALID" (R81.1). -/
  valid : ∀ j : NodeIdx, (nodeAt n j).valid = true ↔ j.toNat < 2 * (presentBytes f).length - 1
  /-- "every other entry is all zero" (R81.1). -/
  unused : ∀ j : NodeIdx, 2 * (presentBytes f).length - 1 ≤ j.toNat → nodeAt n j = NodeEntry.zero
  /-- "ROOT = `2n-2`" (R81.1). -/
  root : r.toNat = 2 * (presentBytes f).length - 2
  /-- The first `n` entries are the leaves in ascending byte order, each with its count (R80, R81.3). -/
  leaf : ∀ (j : NodeIdx) (h : j.toNat < (presentBytes f).length), nodeAt n j = leafEntry f (presentBytes f)[j.toNat]
  /-- The other valid entries are internal: "exactly two children, both with lower indices than itself" (R81.2). -/
  internal : ∀ j : NodeIdx, (presentBytes f).length ≤ j.toNat → j.toNat < 2 * (presentBytes f).length - 1 →
    (nodeAt n j).internal = true ∧ (nodeAt n j).symbol = 0 ∧
    (nodeAt n j).left.toNat < j.toNat ∧ (nodeAt n j).right.toNat < j.toNat ∧ (nodeAt n j).left ≠ (nodeAt n j).right
  /-- "every node other than ROOT is the child of exactly one internal node" (R81.2). -/
  oneParent : ∀ j : NodeIdx, j.toNat < 2 * (presentBytes f).length - 1 → j ≠ r → ∃! p, ParentOf n p j
  /-- ROOT is nobody's child (R81.2). -/
  noParent : ∀ p, ¬ ParentOf n p r
  /-- "every internal node's weight is the sum of its children's" (R81.3). -/
  weight : ∀ j : NodeIdx, (nodeAt n j).internal = true → (nodeAt n j).weight.toNat =
    (nodeAt n (nodeAt n j).left).weight.toNat + (nodeAt n (nodeAt n j).right).weight.toNat
  /-- "the ROOT weight is the sum of FREQ" (R81.3). -/
  total : (nodeAt n r).weight.toNat = freqTotal f
  /-- "For every internal node, `key(LEFT) < key(RIGHT)`" (R81.4). -/
  ordered : ∀ j : NodeIdx, (nodeAt n j).internal = true → keyLt n (nodeAt n j).left (nodeAt n j).right = true

/-! ### The invariant -/

/-- What holds between any two steps of the machine, at reset and ever after. -/
structure Invariant (s : State) : Prop where
  /-- The parameters are admitted (R4, R5). -/
  params : s.params.wf = true
  /-- IBUF is in canonical form and inside its size (R39). -/
  ibuf : s.ibuf.wf s.params.ibufSize = true
  /-- OBUF is in canonical form and inside its size (R40). -/
  obuf : s.obuf.wf s.params.obufSize = true
  /-- No hidden state outlives a command (R45). -/
  hidden : s.hidden = Hidden.empty
  /-- While BUSY, DONE and ERR are 0 (R22, R112). -/
  busyQuiet : s.phase = .busy → s.done = false ∧ s.err = false
  /-- ERR says whether an error is recorded (R22, R23, R114). -/
  errRecord : s.err = false ↔ s.errCode = .none
  /-- Without an error the record is zero (R112, R116). -/
  emptyRecord : s.errCode = .none → s.errIndex = 0 ∧ s.errValue = 0
  /-- Code 2 is never written (R23, R83). -/
  noDegenerate : s.errCode ≠ .degenerateTree
  /-- OUT_LEN is at most OBUF_SIZE (R27). -/
  outLen : s.outLen.toNat ≤ s.params.obufSize
  /-- PAD is 0..8 (R29). -/
  pad : s.pad.toNat ≤ 8
  /-- NSYM is the number of entries of the FrequencyTable (R30). -/
  nsym : s.nsym.toNat = (presentBytes s.freq).length
  /-- The counts sum to at most IBUF_SIZE, so no count or weight overflows (R34, R110). -/
  counts : freqTotal s.freq ≤ s.params.ibufSize
  /-- Without a successful ANALYZE since reset the table is empty (R22, R34). -/
  freqValid : s.freqValid = false → s.freq = zeroFreqs
  /-- NODE holds either all zeros or a tree BUILD made (R36). -/
  node : s.node = zeroNodes ∨ ∃ f : Freqs, presentBytes f ≠ [] ∧ freqTotal f ≤ s.params.ibufSize ∧ s.node = treeNodes f
  /-- While TREE_VALID the tree is the one of the present table (R22, R31, R78). -/
  treeValid : s.treeValid = true →
    presentBytes s.freq ≠ [] ∧ s.node = treeNodes s.freq ∧ s.root = treeRoot s.freq

/-! ### The hold -/

/-- While a command runs no read of STATUS is held (R54). It is kept by every step, beside the invariant. -/
def HeldQuiet (s : State) : Prop :=
  s.rstN = true → s.phase = .busy → s.recovery = 0 ∧ ∀ x ∈ s.held, isStatusRead x = false

/-- The answers to reads of STATUS with these data. -/
def statusAnswers (data : List Word) : List Answer :=
  data.map fun d => { txn := .read 0x00C#22, resp := .okay, data := d }

end Sys2Proof.Machine
end

