-- ==== Sys2Proof/Certificates/Slice0/Obligations.lean ====
section
/-! DEFINITION. The statements for the provers. Each docstring names the rule of spec/ it formalises. -/

open Sys2Proof Sys2Proof.Machine

/-! ### Encoding (30_encoding.md) -/

/-- R70, R71, R74: decoding an encoded well-formed instruction gives it back, and every word is the encoding of what
it decodes to. -/
def Obligations.DecodeEncodeAgree : Prop :=
  (∀ i : Instr, i.wf = true → decodeWord (encode i) = i) ∧
  ∀ w : Word, (decodeWord w).wf = true ∧ encode (decodeWord w) = w

/-- R70: the legal words are those with `w[31:4] = 0` and an assigned opcode 0x0..0xB; every other word is reserved and
stands for itself. -/
def Obligations.LegalWords : Prop :=
  ∀ w : Word,
    ((w.extractLsb' 4 28 = 0 ∧ (w.extractLsb' 0 4).toNat ≤ 0xB) ↔ ∀ v : Word, decodeWord w ≠ .reserved v) ∧
    (¬ (w.extractLsb' 4 28 = 0 ∧ (w.extractLsb' 0 4).toNat ≤ 0xB) → decodeWord w = .reserved w)

/-- R71, R75: a few words of the opcode map, and lengths that are no command. -/
def Obligations.SampleWords : Prop :=
  decodeTableWord 32 0x00000000 = some .nop ∧
  decodeTableWord 32 0x00000001 = some .analyze ∧
  decodeTableWord 32 0x00000006 = some .pack ∧
  decodeTableWord 32 0x00000009 = some .decompress ∧
  decodeTableWord 32 0x0000000B = some .encodeOnly ∧
  decodeTableWord 32 0x0000000F = some (.reserved 0x0000000F#32) ∧
  decodeTableWord 32 0x80000001 = some (.reserved 0x80000001#32) ∧
  decodeTableWord 8 0x01 = none ∧ decodeTableWord 64 0x01 = none

/-- R112, R18: once an accepted command's waiting is over, a step runs the instruction the word decodes to, and nothing
else is around it; `withFetchWord`, the model's own (log entry 2), places exactly that. -/
def Obligations.StepRunsDecoded : Prop :=
  (∀ s : State, s.rstN = true → s.recovery = 0 → s.phase = .busy → s.work = 0 →
    step s = exec (decodeWord s.cmd) s) ∧
  ∀ (s : State) (i : Instr), i.wf = true →
    step (s.withFetchWord 32 (encode i).toNat) = exec i (s.withFetchWord 32 (encode i).toNat) ∧
    (s.withFetchWord 32 (encode i).toNat).cmd = encode i

/-! ### The life of a command (60_exceptions.md) -/

/-- R112: a CMD write that takes effect while IDLE, at once or released from the hold, is answered OKAY and starts the
command; nothing but the completion state changes. The STATUS reads that were held behind a released CMD write (reset
recovery holds them) are then answered at once with BUSY = 1, DONE = 0, ERR = 0 and the command's `busyStatus`
(`BusyStatus` says what that shows), and the other transactions stay held
(R54, R22 as log entry 10 reads them). How long the command then waits (`work`, and the draws taken) is the model's
free value (log entry 1). -/
def Obligations.CmdWriteAccepts : Prop :=
  ∀ (s : State) (w : Word), s.rstN = true → s.recovery = 0 → s.phase = .idle →
    ∃ n : Nat,
      (∀ es, s.held = [] → s.input = .issue (.write 0x008#22 0xF#4 w) :: es → ∃ d : Nat,
        step s = .next { s with
          cmd := w, done := false, err := false, errCode := .none, errIndex := 0, errValue := 0
          phase := .busy, hidden := Hidden.empty, work := n, draws := d
          input := es
          answers := { txn := .write 0x008#22 0xF#4 w, resp := .okay, data := 0 } :: s.answers }) ∧
      (∀ ts, s.held = .write 0x008#22 0xF#4 w :: ts → ∃ (d : Nat) (data : List Word),
        data.length = (ts.filter isStatusRead).length ∧
        (∀ v ∈ data, v.getLsbD 0 = true ∧ v.getLsbD 1 = false ∧ v.getLsbD 2 = false ∧
          ∃ k, v = busyStatus (decodeWord w) { accept w s with draws := k }) ∧
        step s = .next { s with
          cmd := w, done := false, err := false, errCode := .none, errIndex := 0, errValue := 0
          phase := .busy, hidden := Hidden.empty, work := n, draws := d
          held := ts.filter fun x => !isStatusRead x
          answers := statusAnswers data ++
            { txn := .write 0x008#22 0xF#4 w, resp := .okay, data := 0 } :: s.answers }) ∧
      ∀ t : State, t.rstN = true → t.recovery = 0 → t.phase = .busy → t.work = 0 → t.cmd = w →
        step t = exec (decodeWord w) t

/-- R133, R54, and the model's waiting `work` (log entry 1): from any busy state, if the platform does not touch the
reset pin, the command completes within `work + 1` steps, whatever the host does meanwhile; until its last step only
the port has moved, and the last step is the command's own effect. -/
def Obligations.CommandCompletes : Prop :=
  ∀ s : State, s.rstN = true → s.recovery = 0 → s.phase = .busy → (∀ l, HostEvent.rst l ∉ s.input) →
    ∃ (k : Nat) (s' t : State), k ≤ s.work ∧ runSteps k s = .next s' ∧
      s' = { s with
        work := 0, input := s'.input, held := s'.held, answers := s'.answers, draws := s'.draws } ∧
      exec (decodeWord s.cmd) s' = .next t ∧ runSteps (k + 1) s = .next t ∧
      t.phase = .idle ∧ t.done = true

/-- R113, R114, R15: every command answers a next state, IDLE with DONE = 1 and no hidden state left, and none changes
CTRL.IE, CMD, IN_LEN, IBUF, the parameters, the pin or the bus. -/
def Obligations.CommandsKeepHostState : Prop :=
  ∀ (i : Instr) (s : State), ∃ t, exec i s = .next t ∧
    t.phase = .idle ∧ t.done = true ∧ t.hidden = Hidden.empty ∧
    t.params = s.params ∧ t.ie = s.ie ∧ t.cmd = s.cmd ∧ t.inLen = s.inLen ∧ t.ibuf = s.ibuf ∧
    t.rstN = s.rstN ∧ t.recovery = s.recovery ∧ t.input = s.input ∧ t.held = s.held ∧
    t.answers = s.answers ∧ t.work = s.work

/-- R116, R118, R83, R104, R105: a command either leaves the error record as it is, or ends in one of the errors of its
row, with ERR = 1. No row holds DEGENERATE_TREE. For COMPRESS and ENCODE_ONLY this says that NO_TREE, RING_INVALID and
UNKNOWN_SYMBOL cannot arise. -/
def Obligations.ErrorsOfEachCommand : Prop :=
  (∀ (i : Instr) (s : State), ∃ t, exec i s = .next t ∧
    ((t.err = s.err ∧ t.errCode = s.errCode ∧ t.errIndex = s.errIndex ∧ t.errValue = s.errValue) ∨
      (t.err = true ∧ t.errCode ∈ mayRaise i))) ∧
  ∀ i : Instr, ErrCode.degenerateTree ∉ mayRaise i ∧ ErrCode.none ∉ mayRaise i

/-- R103: NOP changes nothing but the completion state. -/
def Obligations.NopOnlyCompletes : Prop :=
  ∀ s : State, exec .nop s = .next { s with done := true, phase := .idle, hidden := Hidden.empty }

/-- R106: a reserved word ends in BAD_COMMAND with ERR_INDEX 0 and ERR_VALUE the word, and changes nothing else; CMD
reads back the word. -/
def Obligations.ReservedIsBadCommand : Prop :=
  (∀ w : Word, (w.extractLsb' 4 28 ≠ 0 ∨ 0xC ≤ (w.extractLsb' 0 4).toNat) → decodeWord w = .reserved w) ∧
  (∀ (w : Word) (s : State), exec (.reserved w) s = .next { s with
    errCode := .badCommand, errIndex := 0, errValue := w
    err := true, done := true, phase := .idle, hidden := Hidden.empty }) ∧
  ∀ (w : Word) (s : State), ∃ t, exec (.reserved w) (accept w s) = .next t ∧
    memRead t 0x008#22 = (.okay, w) ∧ memRead t 0x010#22 = (.okay, 6) ∧ memRead t 0x018#22 = (.okay, w)

/-- R73: every command that reads IN_LEN ends in LEN_RANGE, with nothing else written, when IN_LEN exceeds
IBUF_SIZE; the output commands then zero their results. -/
def Obligations.LengthCheck : Prop :=
  ∀ s : State, s.params.ibufSize < s.inLen.toNat →
    exec .analyze s = .next (failed .lenRange 0 s.inLen s) ∧
    ∀ i ∈ [Instr.encode, .encpack, .pack, .unpack, .decode, .decompress, .compress, .encodeOnly],
      exec i s = .next (failedOutput .lenRange 0 s.inLen s)

/-! ### ANALYZE (40_analyze.md) -/

/-- R78: ANALYZE counts the message and changes nothing else. The last three clauses are the source's invariant R79,
which the spec derives from R78 and which follows from the counts. -/
def Obligations.AnalyzeCounts : Prop :=
  (∀ s : State, s.params.ibufSize < s.inLen.toNat → exec .analyze s = .next (failed .lenRange 0 s.inLen s)) ∧
  ∀ s : State, s.inLen.toNat ≤ s.params.ibufSize →
    ∃ (f : Freqs) (n : BitVec 9),
      exec .analyze s = .next (succeeded { s with freq := f, nsym := n, freqValid := true, treeValid := false }) ∧
      (∀ b, (freqAt f b).toNat = (message s).count b) ∧
      n.toNat = (allBytes.filter fun b => freqAt f b != 0).length ∧
      freqTotal f = s.inLen.toNat ∧
      (∀ b, b ∈ message s → 1 ≤ (freqAt f b).toNat) ∧
      ∀ b, b ∉ message s → freqAt f b = 0

/-! ### BUILD (41_build.md) -/

/-- R80, and what the spec derives from it in R81: a successful BUILD makes the Huffman tree of the table, a function of
FREQ alone; on an empty table BUILD ends in EMPTY_INPUT with TREE_VALID cleared. The premise on the total is R110's: no
weight overflows. -/
def Obligations.BuildMakesHuffmanTree : Prop :=
  (∀ s : State, (∀ b, freqAt s.freq b = 0) →
    exec .build s = .next (failed .emptyInput 0 0 { s with treeValid := false })) ∧
  ∀ f : Freqs, (∃ b, freqAt f b ≠ 0) → freqTotal f < 2 ^ 32 →
    ∃ (n : Nodes) (r : NodeIdx), HuffmanTree f n r ∧
      ∀ s : State, s.freq = f → exec .build s = .next (succeeded { s with node := n, root := r, treeValid := true })

/-- R80: each merge takes the two nodes of least key among those no earlier node has taken, two different ones; the first
is LEFT, the second RIGHT. -/
def Obligations.BuildMergesLeast : Prop :=
  ∀ s : State, (∃ b, freqAt s.freq b ≠ 0) → freqTotal s.freq < 2 ^ 32 →
    ∃ (n : Nodes) (r : NodeIdx),
      exec .build s = .next (succeeded { s with node := n, root := r, treeValid := true }) ∧
      ∀ k : NodeIdx, (presentBytes s.freq).length ≤ k.toNat → k.toNat < 2 * (presentBytes s.freq).length - 1 →
        ((nodeAt n k).left.toNat < k.toNat ∧ ∀ p, p.toNat < k.toNat → ¬ ParentOf n p (nodeAt n k).left) ∧
        ((nodeAt n k).right.toNat < k.toNat ∧ ∀ p, p.toNat < k.toNat → ¬ ParentOf n p (nodeAt n k).right) ∧
        (nodeAt n k).left ≠ (nodeAt n k).right ∧
        ∀ j : NodeIdx, j.toNat < k.toNat → (∀ p, p.toNat < k.toNat → ¬ ParentOf n p j) →
          (j ≠ (nodeAt n k).left → keyLt n (nodeAt n k).left j = true) ∧
          (j ≠ (nodeAt n k).left → j ≠ (nodeAt n k).right → keyLt n (nodeAt n k).right j = true)

/-! ### DERIVE and the codebook check (42_derive.md) -/

/-- R82: without a valid tree DERIVE ends in NO_TREE; with one, it gives each leaf its path from ROOT, 1 to the left and
0 to the right, a bare leaf the code `0`, every other byte an all-zero entry, and MAXLEN the longest. -/
def Obligations.DeriveAssignsPaths : Prop :=
  (∀ s : State, s.treeValid = false → exec .derive s = .next (failed .noTree 0 0 s)) ∧
  ∀ s : State, Invariant s → s.treeValid = true →
    ∃ (c : Codes) (m : Byte),
      exec .derive s = .next (succeeded { s with code := c, maxLen := m }) ∧
      ((nodeAt s.node s.root).internal = false → ∀ b, codeAt c b =
        if b = (nodeAt s.node s.root).symbol then { valid := true, len := 1, bits := 0 } else CodeEntry.zero) ∧
      ((nodeAt s.node s.root).internal = true →
        (∀ p : Bits, throughInternal s.node s.root p = true → (nodeAt s.node (follow s.node s.root p)).internal = false →
          (codeAt c (nodeAt s.node (follow s.node s.root p)).symbol).valid = true ∧
          (codeAt c (nodeAt s.node (follow s.node s.root p)).symbol).len.toNat = p.length ∧
          ∀ t, t < 256 →
            (codeAt c (nodeAt s.node (follow s.node s.root p)).symbol).symbolAt t = p.getD t false) ∧
        ∀ b, (∀ p : Bits, throughInternal s.node s.root p = true →
            (nodeAt s.node (follow s.node s.root p)).internal = false →
            (nodeAt s.node (follow s.node s.root p)).symbol ≠ b) →
          codeAt c b = CodeEntry.zero) ∧
      (∀ b, (codeAt c b).valid = true → (codeAt c b).len.toNat ≤ m.toNat) ∧
      ∃ b, (codeAt c b).valid = true ∧ (codeAt c b).len = m

/-- R84.1, R84.2, R84.3, R84.5: after DERIVE exactly the bytes of the table have valid codes, the codes are non-empty and
prefix-free, the Kraft sum is 1 (1/2 for one leaf), and the codebook check passes. -/
def Obligations.DerivedCodebook : Prop :=
  ∀ s : State, Invariant s → s.treeValid = true →
    ∃ t, exec .derive s = .next t ∧
      (∀ b, (codeAt t.code b).valid = true ↔ freqAt s.freq b ≠ 0) ∧
      PrefixFree t.code ∧
      ((presentBytes s.freq).map fun b => 2 ^ (256 - (codeAt t.code b).len.toNat)).sum
        = (if (presentBytes s.freq).length = 1 then 2 ^ 255 else 2 ^ 256) ∧
      codebookFault t.code = none

/-- R84.4, read over the bytes that have codes (log entry 19): of two bytes of the table, the one with the lower count
has no shorter code. -/
def Obligations.CodeLengthMonotone : Prop :=
  ∀ s : State, Invariant s → s.treeValid = true →
    ∃ t, exec .derive s = .next t ∧
      ∀ x y : Byte, freqAt s.freq x ≠ 0 → (freqAt s.freq x).toNat < (freqAt s.freq y).toNat →
        (codeAt t.code y).len.toNat ≤ (codeAt t.code x).len.toNat

/-- R85: a codebook with an empty code or a prefix pair stops ENCODE, ENCPACK, DECODE and DECOMPRESS with RING_INVALID:
the first empty code if there is one, else the first pair in `(b1, b2)` order. A well-formed codebook never does. -/
def Obligations.CodebookCheck : Prop :=
  ∀ s : State, s.inLen.toNat ≤ s.params.ibufSize →
    (¬ PrefixFree s.code → ∃ b₁ b₂ : Byte,
      ((b₁ = b₂ ∧ (codeAt s.code b₁).valid = true ∧ (codeAt s.code b₁).len = 0 ∧
          ∀ b : Byte, b.toNat < b₁.toNat → ¬ ((codeAt s.code b).valid = true ∧ (codeAt s.code b).len = 0)) ∨
        ((∀ b : Byte, ¬ ((codeAt s.code b).valid = true ∧ (codeAt s.code b).len = 0)) ∧
          b₁.toNat < b₂.toNat ∧ (codeAt s.code b₁).valid = true ∧ (codeAt s.code b₂).valid = true ∧
          (BitPrefix (codeAt s.code b₁).symbols (codeAt s.code b₂).symbols ∨
            BitPrefix (codeAt s.code b₂).symbols (codeAt s.code b₁).symbols) ∧
          ∀ d₁ d₂ : Byte, d₁.toNat < d₂.toNat → (codeAt s.code d₁).valid = true → (codeAt s.code d₂).valid = true →
            (BitPrefix (codeAt s.code d₁).symbols (codeAt s.code d₂).symbols ∨
              BitPrefix (codeAt s.code d₂).symbols (codeAt s.code d₁).symbols) →
            b₁.toNat < d₁.toNat ∨ (b₁ = d₁ ∧ b₂.toNat ≤ d₂.toNat))) ∧
      (∀ i ∈ [Instr.encode, .encpack, .decode],
        exec i s = .next (failedOutput .ringInvalid (b₁.setWidth 32) (b₂.setWidth 32) s)) ∧
      (PaddingOk s →
        exec .decompress s = .next (failedOutput .ringInvalid (b₁.setWidth 32) (b₂.setWidth 32) s))) ∧
    (PrefixFree s.code → s.errCode = .none → ∀ i ∈ [Instr.encode, .encpack, .decode, .decompress],
      ∃ t, exec i s = .next t ∧ t.errCode ≠ .ringInvalid)

/-- R86: in a codebook that passes the check the ring lookup of a code finds its byte, no two bytes have equal codes, and
no proper first part of a code is matched, so a match is always final. -/
def Obligations.MatchIsFinal : Prop :=
  ∀ c : Codes, codebookFault c = none →
    (∀ b, (codeAt c b).valid = true → ringLookup c (codeAt c b).symbols = some b) ∧
    (∀ s b, ringLookup c s = some b → (codeAt c b).valid = true ∧ (codeAt c b).symbols = s) ∧
    ∀ b s t, (codeAt c b).valid = true → (codeAt c b).symbols = s ++ t → t ≠ [] → ringLookup c s = none

/-! ### ENCODE, ENCPACK, PACK (43_encode_pack.md) -/

/-- R91: a coded message that fits is written as text bits. -/
def Obligations.EncodeSucceeds : Prop :=
  ∀ s : State, s.inLen.toNat ≤ s.params.ibufSize → PrefixFree s.code → Coded s.code (message s) →
    (encodedBits s.code (message s)).length ≤ s.params.obufSize →
    exec .encode s = .next (succeededOutput (textBits (encodedBits s.code (message s)))
      (encodedBits s.code (message s)).length 0 s)

/-- R91, R118: the first byte without a valid code, or the first byte whose symbols do not fit, whichever comes first,
ends ENCODE. -/
def Obligations.EncodeErrors : Prop :=
  ∀ (s : State) (m₁ m₂ : List Byte) (b : Byte), s.inLen.toNat ≤ s.params.ibufSize → PrefixFree s.code →
    message s = m₁ ++ b :: m₂ → Coded s.code m₁ → (encodedBits s.code m₁).length ≤ s.params.obufSize →
    ((codeAt s.code b).valid = false →
      exec .encode s = .next (failedOutput .unknownSymbol (BitVec.ofNat 32 m₁.length) (b.setWidth 32) s)) ∧
    ((codeAt s.code b).valid = true → s.params.obufSize < (encodedBits s.code (m₁ ++ [b])).length →
      exec .encode s =
        .next (failedOutput .obufOverflow (BitVec.ofNat 32 m₁.length) (BitVec.ofNat 32 s.params.obufSize) s))

/-- R92, R90: a coded message whose PackedBytes fit is packed. -/
def Obligations.EncpackSucceeds : Prop :=
  ∀ s : State, s.inLen.toNat ≤ s.params.ibufSize → PrefixFree s.code → Coded s.code (message s) →
    (encodedBits s.code (message s)).length / 8 + 2 ≤ s.params.obufSize →
    exec .encpack s = .next (succeededOutput (packedBytes (encodedBits s.code (message s)))
      (encodedBits s.code (message s)).length (packPadding (encodedBits s.code (message s)).length) s)

/-- R92, R118: the first byte without a valid code, the first byte that completes a group which does not fit, or the
trailer that does not fit, whichever comes first, ends ENCPACK. -/
def Obligations.EncpackErrors : Prop :=
  ∀ s : State, s.inLen.toNat ≤ s.params.ibufSize → PrefixFree s.code →
    (∀ (m₁ m₂ : List Byte) (b : Byte), message s = m₁ ++ b :: m₂ → Coded s.code m₁ →
      (encodedBits s.code m₁).length / 8 ≤ s.params.obufSize →
      ((codeAt s.code b).valid = false →
        exec .encpack s = .next (failedOutput .unknownSymbol (BitVec.ofNat 32 m₁.length) (b.setWidth 32) s)) ∧
      ((codeAt s.code b).valid = true → s.params.obufSize < (encodedBits s.code (m₁ ++ [b])).length / 8 →
        exec .encpack s =
          .next (failedOutput .obufOverflow (BitVec.ofNat 32 m₁.length) (BitVec.ofNat 32 s.params.obufSize) s))) ∧
    (Coded s.code (message s) → (encodedBits s.code (message s)).length / 8 ≤ s.params.obufSize →
      s.params.obufSize < (encodedBits s.code (message s)).length / 8 + 2 →
      exec .encpack s = .next (failedOutput .obufOverflow s.inLen (BitVec.ofNat 32 s.params.obufSize) s))

/-- R93, R90: text bits whose PackedBytes fit are packed. -/
def Obligations.PackSucceeds : Prop :=
  ∀ (s : State) (e : Bits), s.inLen.toNat ≤ s.params.ibufSize → message s = textBits e →
    e.length / 8 + 2 ≤ s.params.obufSize →
    exec .pack s = .next (succeededOutput (packedBytes e) e.length (packPadding e.length) s)

/-- R93, R118: the first byte that is no text bit, the first symbol that completes a group which does not fit, or the
trailer that does not fit, whichever comes first, ends PACK. -/
def Obligations.PackErrors : Prop :=
  ∀ (s : State) (e : Bits), s.inLen.toNat ≤ s.params.ibufSize → e.length / 8 ≤ s.params.obufSize →
    (∀ (c : Byte) (m : List Byte), message s = textBits e ++ c :: m → c ≠ 0x30#8 → c ≠ 0x31#8 →
      exec .pack s = .next (failedOutput .badBitchar (BitVec.ofNat 32 e.length) (c.setWidth 32) s)) ∧
    (∀ (x : Bool) (m : List Byte), message s = textBits (e ++ [x]) ++ m →
      e.length + 1 = 8 * (s.params.obufSize + 1) →
      exec .pack s =
        .next (failedOutput .obufOverflow (BitVec.ofNat 32 e.length) (BitVec.ofNat 32 s.params.obufSize) s)) ∧
    (message s = textBits e → s.params.obufSize < e.length / 8 + 2 →
      exec .pack s = .next (failedOutput .obufOverflow s.inLen (BitVec.ofNat 32 s.params.obufSize) s))

/-! ### UNPACK, DECODE, DECOMPRESS (44_unpack_decode.md) -/

/-- R99: PackedBytes with a good trailer whose text bits fit are unpacked; PAD is the count read. -/
def Obligations.UnpackSucceeds : Prop :=
  ∀ s : State, s.inLen.toNat ≤ s.params.ibufSize → PaddingOk s →
    (packedSymbols s).length ≤ s.params.obufSize →
    exec .unpack s = .next (succeededOutput (textBits (packedSymbols s)) (packedSymbols s).length (paddingCount s) s) ∧
    (packedSymbols s).length = 8 * (s.inLen.toNat - 2) + (8 - paddingCount s)

/-- R95, R99, R118: an input shorter than the trailer, then a count above 8, ends UNPACK and DECOMPRESS in
CORRUPT_PADDING; text bits that do not fit end UNPACK in OBUF_OVERFLOW. -/
def Obligations.UnpackErrors : Prop :=
  ∀ s : State, s.inLen.toNat ≤ s.params.ibufSize →
    (∀ i ∈ [Instr.unpack, .decompress],
      (s.inLen.toNat < 2 → exec i s = .next (failedOutput .corruptPadding 0 s.inLen s)) ∧
      (2 ≤ s.inLen.toNat → 8 < paddingCount s →
        exec i s =
          .next (failedOutput .corruptPadding (s.inLen - 2) ((s.ibuf.read (s.inLen.toNat - 2)).setWidth 32) s))) ∧
    (PaddingOk s → s.params.obufSize < (packedSymbols s).length →
      exec .unpack s = .next (failedOutput .obufOverflow (BitVec.ofNat 32 (symbolIndex s s.params.obufSize))
        (BitVec.ofNat 32 s.params.obufSize) s))

/-- R100: text bits that are the codes of a message which fits are decoded to the message. -/
def Obligations.DecodeSucceeds : Prop :=
  ∀ (s : State) (m : List Byte), s.inLen.toNat ≤ s.params.ibufSize → PrefixFree s.code → Coded s.code m →
    message s = textBits (encodedBits s.code m) → m.length ≤ s.params.obufSize →
    exec .decode s = .next (succeededOutput m s.inLen.toNat 0 s)

/-- R97, R98, R100, R118: after the codes of a message `m`, symbols that start no code end DECODE in INCOMPLETE_CODE at
the end of the input (256 for more than 255 of them); a byte that is no text bit ends it in BAD_BITCHAR; the first
decoded byte that does not fit ends it in OBUF_OVERFLOW. -/
def Obligations.DecodeErrors : Prop :=
  ∀ (s : State) (m : List Byte) (e : Bits), s.inLen.toNat ≤ s.params.ibufSize → PrefixFree s.code →
    Coded s.code m →
    (m.length ≤ s.params.obufSize → NoCodeStarts s.code e → e ≠ [] →
      message s = textBits (encodedBits s.code m ++ e) →
      exec .decode s = .next (failedOutput .incompleteCode s.inLen
        (BitVec.ofNat 32 (if 255 < e.length then 256 else e.length)) s)) ∧
    (∀ (c : Byte) (rest : List Byte), m.length ≤ s.params.obufSize → NoCodeStarts s.code e →
      message s = textBits (encodedBits s.code m ++ e) ++ c :: rest → c ≠ 0x30#8 → c ≠ 0x31#8 →
      exec .decode s = .next (failedOutput .badBitchar
        (BitVec.ofNat 32 ((encodedBits s.code m).length + e.length)) (c.setWidth 32) s)) ∧
    (∀ rest : List Byte, m.length = s.params.obufSize + 1 →
      message s = textBits (encodedBits s.code m) ++ rest →
      exec .decode s = .next (failedOutput .obufOverflow
        (BitVec.ofNat 32 ((encodedBits s.code m).length - 1)) (BitVec.ofNat 32 s.params.obufSize) s))

/-- R101: PackedBytes whose symbols are the codes of a message which fits are decompressed to the message. -/
def Obligations.DecompressSucceeds : Prop :=
  ∀ (s : State) (m : List Byte), s.inLen.toNat ≤ s.params.ibufSize → PaddingOk s → PrefixFree s.code →
    Coded s.code m → packedSymbols s = encodedBits s.code m → m.length ≤ s.params.obufSize →
    exec .decompress s = .next (succeededOutput m (packedSymbols s).length (paddingCount s) s)

/-- R97, R98, R101, R118: as DECODE on the symbols of the PackedBytes; an overflow reports the IBUF index that holds the
symbol which completed the byte. -/
def Obligations.DecompressErrors : Prop :=
  ∀ (s : State) (m : List Byte) (e : Bits), s.inLen.toNat ≤ s.params.ibufSize → PaddingOk s → PrefixFree s.code →
    Coded s.code m →
    (m.length ≤ s.params.obufSize → NoCodeStarts s.code e → e ≠ [] →
      packedSymbols s = encodedBits s.code m ++ e →
      exec .decompress s = .next (failedOutput .incompleteCode s.inLen
        (BitVec.ofNat 32 (if 255 < e.length then 256 else e.length)) s)) ∧
    (∀ rest : Bits, m.length = s.params.obufSize + 1 → packedSymbols s = encodedBits s.code m ++ rest →
      exec .decompress s = .next (failedOutput .obufOverflow
        (BitVec.ofNat 32 (symbolIndex s ((encodedBits s.code m).length - 1)))
        (BitVec.ofNat 32 s.params.obufSize) s))

/-! ### COMPRESS and ENCODE_ONLY (45_composite.md) -/

/-- R104, R105, R107: on a non-empty message that passes the length check, COMPRESS is ANALYZE, BUILD, DERIVE and then
ENCPACK on what they left, ENCODE_ONLY the same with ENCODE, and none of the first three stages fails; on an empty
message both end in EMPTY_INPUT with the writes of the ANALYZE stage kept. -/
def Obligations.CompositeStages : Prop :=
  (∀ s : State, 0 < s.inLen.toNat → s.inLen.toNat ≤ s.params.ibufSize →
    ∃ s₁ s₂ s₃ : State,
      exec .analyze s = .next s₁ ∧ exec .build s₁ = .next s₂ ∧ exec .derive s₂ = .next s₃ ∧
      s₃.err = s.err ∧ s₃.errCode = s.errCode ∧ s₃.treeValid = true ∧
      exec .compress s = exec .encpack s₃ ∧ exec .encodeOnly s = exec .encode s₃) ∧
  ∀ s : State, s.inLen.toNat = 0 → ∀ i ∈ [Instr.compress, .encodeOnly],
    exec i s = .next (failedOutput .emptyInput 0 0
      { s with freq := zeroFreqs, nsym := 0, freqValid := true, treeValid := false })

/-- R104: COMPRESS leaves the message's counts in FREQ and how many bytes have one in NSYM, their Huffman tree in NODE and
ROOT, a prefix-free codebook of exactly the message's bytes in CODE with its longest length in MAXLEN, and the message's
PackedBytes in OBUF if they fit (they always do in a buffer of `255 * IN_LEN / 8 + 2` bytes); otherwise it ends in
OBUF_OVERFLOW and the new tables stay, with ERR_INDEX the first byte that completes a group which does not fit, or IN_LEN
when only the trailer does not. -/
def Obligations.CompressResult : Prop :=
  ∀ s : State, 0 < s.inLen.toNat → s.inLen.toNat ≤ s.params.ibufSize →
    ∃ (f : Freqs) (n : BitVec 9) (nd : Nodes) (r : NodeIdx) (c : Codes) (l : Byte),
      (∀ b, (freqAt f b).toNat = (message s).count b) ∧ n.toNat = (presentBytes f).length ∧
      HuffmanTree f nd r ∧ PrefixFree c ∧ (∀ b, (codeAt c b).valid = true ↔ b ∈ message s) ∧
      (∀ b, (codeAt c b).valid = true → (codeAt c b).len.toNat ≤ l.toNat) ∧
      (∃ b, (codeAt c b).valid = true ∧ (codeAt c b).len = l) ∧
      (encodedBits c (message s)).length ≤ 255 * s.inLen.toNat ∧
      ((encodedBits c (message s)).length / 8 + 2 ≤ s.params.obufSize →
        exec .compress s = .next (succeededOutput (packedBytes (encodedBits c (message s)))
          (encodedBits c (message s)).length (packPadding (encodedBits c (message s)).length)
          { s with freq := f, nsym := n, node := nd, root := r, code := c, maxLen := l,
                   freqValid := true, treeValid := true })) ∧
      (255 * s.inLen.toNat / 8 + 2 ≤ s.params.obufSize →
        exec .compress s = .next (succeededOutput (packedBytes (encodedBits c (message s)))
          (encodedBits c (message s)).length (packPadding (encodedBits c (message s)).length)
          { s with freq := f, nsym := n, node := nd, root := r, code := c, maxLen := l,
                   freqValid := true, treeValid := true })) ∧
      (∀ (m₁ m₂ : List Byte) (b : Byte), message s = m₁ ++ b :: m₂ →
        (encodedBits c m₁).length / 8 ≤ s.params.obufSize →
        s.params.obufSize < (encodedBits c (m₁ ++ [b])).length / 8 →
        exec .compress s = .next (failedOutput .obufOverflow (BitVec.ofNat 32 m₁.length)
          (BitVec.ofNat 32 s.params.obufSize)
          { s with freq := f, nsym := n, node := nd, root := r, code := c, maxLen := l,
                   freqValid := true, treeValid := true })) ∧
      ((encodedBits c (message s)).length / 8 ≤ s.params.obufSize →
        s.params.obufSize < (encodedBits c (message s)).length / 8 + 2 →
        exec .compress s = .next (failedOutput .obufOverflow s.inLen (BitVec.ofNat 32 s.params.obufSize)
          { s with freq := f, nsym := n, node := nd, root := r, code := c, maxLen := l,
                   freqValid := true, treeValid := true }))

/-- R105: ENCODE_ONLY, the same with the text bits, of which none may be without room. -/
def Obligations.EncodeOnlyResult : Prop :=
  ∀ s : State, 0 < s.inLen.toNat → s.inLen.toNat ≤ s.params.ibufSize →
    ∃ (f : Freqs) (n : BitVec 9) (nd : Nodes) (r : NodeIdx) (c : Codes) (l : Byte),
      (∀ b, (freqAt f b).toNat = (message s).count b) ∧ n.toNat = (presentBytes f).length ∧
      HuffmanTree f nd r ∧ PrefixFree c ∧ (∀ b, (codeAt c b).valid = true ↔ b ∈ message s) ∧
      (∀ b, (codeAt c b).valid = true → (codeAt c b).len.toNat ≤ l.toNat) ∧
      (∃ b, (codeAt c b).valid = true ∧ (codeAt c b).len = l) ∧
      (encodedBits c (message s)).length ≤ 255 * s.inLen.toNat ∧
      ((encodedBits c (message s)).length ≤ s.params.obufSize →
        exec .encodeOnly s = .next (succeededOutput (textBits (encodedBits c (message s)))
          (encodedBits c (message s)).length 0
          { s with freq := f, nsym := n, node := nd, root := r, code := c, maxLen := l,
                   freqValid := true, treeValid := true })) ∧
      (255 * s.inLen.toNat ≤ s.params.obufSize →
        exec .encodeOnly s = .next (succeededOutput (textBits (encodedBits c (message s)))
          (encodedBits c (message s)).length 0
          { s with freq := f, nsym := n, node := nd, root := r, code := c, maxLen := l,
                   freqValid := true, treeValid := true })) ∧
      (∀ (m₁ m₂ : List Byte) (b : Byte), message s = m₁ ++ b :: m₂ →
        (encodedBits c m₁).length ≤ s.params.obufSize →
        s.params.obufSize < (encodedBits c (m₁ ++ [b])).length →
        exec .encodeOnly s = .next (failedOutput .obufOverflow (BitVec.ofNat 32 m₁.length)
          (BitVec.ofNat 32 s.params.obufSize)
          { s with freq := f, nsym := n, node := nd, root := r, code := c, maxLen := l,
                   freqValid := true, treeValid := true }))

/-- R111.1, R111.3: DECOMPRESS of what COMPRESS wrote, with the ring it left or an equal one, gives the message back. -/
def Obligations.CompressRoundTrip : Prop :=
  ∀ s t u : State, s.params.wf = true → 0 < s.inLen.toNat → s.inLen.toNat ≤ s.params.ibufSize →
    s.inLen.toNat ≤ s.params.obufSize → s.err = false → exec .compress s = .next t → t.err = false →
    t.outLen.toNat ≤ s.params.ibufSize → u.params = s.params → u.inLen = t.outLen → message u = outputBytes t →
    SameRing t.code u.code →
    ∃ v, exec .decompress u = .next v ∧ v.err = u.err ∧ v.errCode = u.errCode ∧
      v.outLen = s.inLen ∧ outputBytes v = message s

/-- R111.2, R111.3: DECODE of what ENCODE_ONLY wrote gives the message back. -/
def Obligations.EncodeOnlyRoundTrip : Prop :=
  ∀ s t u : State, s.params.wf = true → 0 < s.inLen.toNat → s.inLen.toNat ≤ s.params.ibufSize →
    s.inLen.toNat ≤ s.params.obufSize → s.err = false → exec .encodeOnly s = .next t → t.err = false →
    t.outLen.toNat ≤ s.params.ibufSize → u.params = s.params → u.inLen = t.outLen → message u = outputBytes t →
    SameRing t.code u.code →
    ∃ v, exec .decode u = .next v ∧ v.err = u.err ∧ v.errCode = u.errCode ∧
      v.outLen = s.inLen ∧ outputBytes v = message s

/-- R94: ENCPACK writes what PACK makes of ENCODE's output. -/
def Obligations.PackOfEncode : Prop :=
  ∀ s t u v : State, s.params.wf = true → s.err = false → exec .encode s = .next t → t.err = false →
    u.params = s.params → u.inLen = t.outLen → message u = outputBytes t → u.err = false →
    exec .pack u = .next v → v.err = false →
    ∃ w, exec .encpack s = .next w ∧ w.err = false ∧ w.outLen = v.outLen ∧ w.bitLen = v.bitLen ∧ w.pad = v.pad ∧
      outputBytes w = outputBytes v

/-- R102: DECOMPRESS writes what DECODE makes of UNPACK's output. -/
def Obligations.DecodeOfUnpack : Prop :=
  ∀ s t u v : State, s.params.wf = true → s.err = false → exec .unpack s = .next t → t.err = false →
    u.params = s.params → u.code = s.code → u.inLen = t.outLen → message u = outputBytes t → u.err = false →
    exec .decode u = .next v → v.err = false →
    ∃ w, exec .decompress s = .next w ∧ w.err = false ∧ w.outLen = v.outLen ∧ outputBytes w = outputBytes v

/-! ### What the commands leave (60_exceptions.md R114, 10_state.md R40) -/

/-- R114, R40: an output command that ends in error zeroes OUT_LEN, BIT_LEN and PAD, and every OBUF byte is then the
free value of the draw taken (log entry 3), about which nothing can be proved. -/
def Obligations.OutputErrorSpoils : Prop :=
  ∀ (i : Instr) (s : State), isOutput i = true → s.err = false →
    ∃ t, exec i s = .next t ∧ (t.err = true →
      t.outLen = 0 ∧ t.bitLen = 0 ∧ t.pad = 0 ∧ t.errCode ≠ .none ∧
      ∀ a, t.obuf.read a = Config.freeByte s.draws a)

/-- R40, R27, R29: an output command that succeeds leaves OUT_LEN at most OBUF_SIZE, PAD at most 8 and every OBUF byte at
or beyond OUT_LEN as it was. -/
def Obligations.OutputSuccessFrame : Prop :=
  ∀ (i : Instr) (s : State), isOutput i = true → s.params.wf = true → s.err = false →
    ∃ t, exec i s = .next t ∧ (t.err = false →
      t.outLen.toNat ≤ s.params.obufSize ∧ t.pad.toNat ≤ 8 ∧
      ∀ a, t.outLen.toNat ≤ a → t.obuf.read a = s.obuf.read a)

/-- R72, R27, R40: the single output commands leave the tables and their flags; the commands that are no output commands
leave the results and OBUF; ANALYZE leaves NODE, ROOT, CODE and MAXLEN, BUILD leaves FREQ, NSYM, CODE and MAXLEN, DERIVE
leaves FREQ, NSYM, NODE, ROOT and the flags. -/
def Obligations.CommandFrames : Prop :=
  ∀ s : State,
    (∀ i ∈ [Instr.encode, .encpack, .pack, .unpack, .decode, .decompress], ∃ t, exec i s = .next t ∧
      t.freq = s.freq ∧ t.node = s.node ∧ t.code = s.code ∧ t.nsym = s.nsym ∧ t.root = s.root ∧
      t.maxLen = s.maxLen ∧ t.freqValid = s.freqValid ∧ t.treeValid = s.treeValid) ∧
    (∀ i : Instr, isOutput i = false → ∃ t, exec i s = .next t ∧
      t.outLen = s.outLen ∧ t.bitLen = s.bitLen ∧ t.pad = s.pad ∧ t.obuf = s.obuf ∧ t.draws = s.draws) ∧
    (∃ t, exec .analyze s = .next t ∧
      t.node = s.node ∧ t.root = s.root ∧ t.code = s.code ∧ t.maxLen = s.maxLen) ∧
    (∃ t, exec .build s = .next t ∧
      t.freq = s.freq ∧ t.nsym = s.nsym ∧ t.code = s.code ∧ t.maxLen = s.maxLen ∧ t.freqValid = s.freqValid) ∧
    ∃ t, exec .derive s = .next t ∧
      t.freq = s.freq ∧ t.nsym = s.nsym ∧ t.node = s.node ∧ t.root = s.root ∧
      t.freqValid = s.freqValid ∧ t.treeValid = s.treeValid

/-- R45: no command's result depends on hidden state it is entered with. -/
def Obligations.HiddenIndependence : Prop :=
  ∀ (i : Instr) (s : State) (h : Hidden), exec i { s with hidden := h } = exec i s

/-- R38: decoding reads CODE only: DECODE and DECOMPRESS do the same whatever FREQ, NODE, ROOT and the flags hold, and
leave them. -/
def Obligations.DecodeReadsCodeOnly : Prop :=
  ∀ (i : Instr) (s : State) (f : Freqs) (n : Nodes) (r : NodeIdx) (k : BitVec 9) (l : Byte) (fv tv : Bool),
    i ∈ [Instr.decode, .decompress] →
    ∃ t, exec i s = .next t ∧
      exec i { s with freq := f, node := n, root := r, nsym := k, maxLen := l, freqValid := fv, treeValid := tv }
        = .next { t with freq := f, node := n, root := r, nsym := k, maxLen := l, freqValid := fv, treeValid := tv }

/-! ### The register aperture (20_memory.md) -/

/-- R51, R52, R50, over the address map R48: a misaligned, unmapped or partial-strobe access is answered SLVERR, a read
with data 0, and has no effect; every other access is answered OKAY. -/
def Obligations.RefusedAccesses : Prop :=
  ∀ (s : State) (a : Offset), s.params.wf = true →
    ((a.toNat % 4 ≠ 0 ∨
        ¬ (a.toNat < 0x40 ∨ (0x1000 ≤ a.toNat ∧ a.toNat < 0x1400) ∨ (0x2000 ≤ a.toNat ∧ a.toNat < 0x3000) ∨
          (0x4000 ≤ a.toNat ∧ a.toNat < 0x8000) ∨
          (0x100000 ≤ a.toNat ∧ a.toNat < 0x100000 + s.params.ibufSize) ∨
          (0x200000 ≤ a.toNat ∧ a.toNat < 0x200000 + s.params.obufSize))) →
      memRead s a = (.slverr, 0) ∧ ∀ (k : BitVec 4) (v : Word), memWrite s a k v = (.slverr, s)) ∧
    (¬ (a.toNat % 4 ≠ 0 ∨
        ¬ (a.toNat < 0x40 ∨ (0x1000 ≤ a.toNat ∧ a.toNat < 0x1400) ∨ (0x2000 ≤ a.toNat ∧ a.toNat < 0x3000) ∨
          (0x4000 ≤ a.toNat ∧ a.toNat < 0x8000) ∨
          (0x100000 ≤ a.toNat ∧ a.toNat < 0x100000 + s.params.ibufSize) ∨
          (0x200000 ≤ a.toNat ∧ a.toNat < 0x200000 + s.params.obufSize))) →
      (memRead s a).1 = .okay ∧ ∀ v : Word, (memWrite s a 0xF#4 v).1 = .okay) ∧
    ∀ (k : BitVec 4) (v : Word), k ≠ 0xF#4 → memWrite s a k v = (.slverr, s)

/-- R53: an aligned write to a read-only register or window is answered OKAY and has no effect, and so are writes to the
reserved words of the CODE window; reserved bits and words read 0. -/
def Obligations.ReadOnlyWrites : Prop :=
  ∀ (s : State) (a : Offset) (v : Word), s.params.wf = true → a.toNat % 4 = 0 →
    (a ∈ [0x000#22, 0x010#22, 0x014#22, 0x018#22, 0x020#22, 0x024#22, 0x028#22, 0x02C#22, 0x030#22, 0x034#22,
          0x038#22, 0x03C#22] ∨
      (0x1000 ≤ a.toNat ∧ a.toNat < 0x1400) ∨ (0x2000 ≤ a.toNat ∧ a.toNat < 0x3000) ∨
      (0x200000 ≤ a.toNat ∧ a.toNat < 0x200000 + s.params.obufSize) ∨
      (0x4000 ≤ a.toNat ∧ a.toNat < 0x8000 ∧ 9 ≤ a.toNat % 64 / 4) →
      memWrite s a 0xF#4 v = (.okay, s)) ∧
    (memWrite s 0x00C#22 0xF#4 v = (.okay, { s with done := s.done && !v.getLsbD 1 })) ∧
    (memRead s 0x004#22).2 &&& 0xFFFFFFFE#32 = 0 ∧
    (memRead s 0x00C#22).2 &&& 0xFFFFFFE0#32 = 0 ∧
    (memRead s 0x010#22).2 &&& 0xFFFFFF00#32 = 0 ∧
    (memRead s 0x028#22).2 &&& 0xFFFFFFF0#32 = 0 ∧
    (memRead s 0x02C#22).2 &&& 0xFFFFFE00#32 = 0 ∧
    (memRead s 0x030#22).2 &&& 0xFFFFFE00#32 = 0 ∧
    (memRead s 0x034#22).2 &&& 0xFFFFFF00#32 = 0 ∧
    (0x2000 ≤ a.toNat → a.toNat < 0x3000 → a.toNat % 8 = 4 → (memRead s a).2 &&& 0x3C000000#32 = 0) ∧
    (0x4000 ≤ a.toNat → a.toNat < 0x8000 → a.toNat % 64 = 0 → (memRead s a).2 &&& 0xFFFF00FE#32 = 0) ∧
    (0x4000 ≤ a.toNat → a.toNat < 0x8000 → 9 ≤ a.toNat % 64 / 4 → memRead s a = (.okay, 0))

/-- R57, R58, R61: the words of the FREQ, NODE and OBUF windows; a write to one is answered OKAY and has no effect. -/
def Obligations.ReadOnlyWindows : Prop :=
  ∀ s : State, s.params.wf = true →
    (∀ b : Byte, memRead s (BitVec.ofNat 22 (0x1000 + 4 * b.toNat)) = (.okay, freqAt s.freq b) ∧
      ∀ v : Word, memWrite s (BitVec.ofNat 22 (0x1000 + 4 * b.toNat)) 0xF#4 v = (.okay, s)) ∧
    (∀ j : NodeIdx,
      (∀ v : Word, memWrite s (BitVec.ofNat 22 (0x2000 + 8 * j.toNat)) 0xF#4 v = (.okay, s) ∧
        memWrite s (BitVec.ofNat 22 (0x2000 + 8 * j.toNat + 4)) 0xF#4 v = (.okay, s)) ∧
      memRead s (BitVec.ofNat 22 (0x2000 + 8 * j.toNat)) = (.okay, (nodeAt s.node j).weight) ∧
      ∃ w : Word, memRead s (BitVec.ofNat 22 (0x2000 + 8 * j.toNat + 4)) = (.okay, w) ∧
        w.getLsbD 31 = (nodeAt s.node j).valid ∧ w.getLsbD 30 = (nodeAt s.node j).internal ∧
        w.extractLsb' 26 4 = 0 ∧ w.extractLsb' 17 9 = (nodeAt s.node j).right ∧
        w.extractLsb' 8 9 = (nodeAt s.node j).left ∧ w.extractLsb' 0 8 = (nodeAt s.node j).symbol) ∧
    ∀ k : Nat, 4 * k < s.params.obufSize →
      (∀ v : Word, memWrite s (BitVec.ofNat 22 (0x200000 + 4 * k)) 0xF#4 v = (.okay, s)) ∧
      ∃ w : Word, memRead s (BitVec.ofNat 22 (0x200000 + 4 * k)) = (.okay, w) ∧
        w.extractLsb' 0 8 = s.obuf.read (4 * k) ∧ w.extractLsb' 8 8 = s.obuf.read (4 * k + 1) ∧
        w.extractLsb' 16 8 = s.obuf.read (4 * k + 2) ∧ w.extractLsb' 24 8 = s.obuf.read (4 * k + 3)

/-- R60: the word at `0x100000 + 4k` holds IBUF[4k .. 4k+3], lowest index in bits [7:0]; a write changes these four bytes
and nothing else. -/
def Obligations.IbufWindow : Prop :=
  ∀ (s : State) (k : Nat), s.params.wf = true → 4 * k < s.params.ibufSize →
    (∃ w : Word, memRead s (BitVec.ofNat 22 (0x100000 + 4 * k)) = (.okay, w) ∧
      w.extractLsb' 0 8 = s.ibuf.read (4 * k) ∧ w.extractLsb' 8 8 = s.ibuf.read (4 * k + 1) ∧
      w.extractLsb' 16 8 = s.ibuf.read (4 * k + 2) ∧ w.extractLsb' 24 8 = s.ibuf.read (4 * k + 3)) ∧
    ∀ v : Word, ∃ t : State, memWrite s (BitVec.ofNat 22 (0x100000 + 4 * k)) 0xF#4 v = (.okay, t) ∧
      t = { s with ibuf := t.ibuf } ∧
      t.ibuf.read (4 * k) = v.extractLsb' 0 8 ∧ t.ibuf.read (4 * k + 1) = v.extractLsb' 8 8 ∧
      t.ibuf.read (4 * k + 2) = v.extractLsb' 16 8 ∧ t.ibuf.read (4 * k + 3) = v.extractLsb' 24 8 ∧
      (∀ a, a < 4 * k ∨ 4 * k + 4 ≤ a → t.ibuf.read a = s.ibuf.read a) ∧
      memRead t (BitVec.ofNat 22 (0x100000 + 4 * k)) = (.okay, v)

/-- R59: the words of a CODE entry: VALID and LEN in word 0, BITS most significant first in words 1..8; a write changes
that entry's part and nothing else. Words 9..15 and the other bits of word 0 read 0 and ignore writes. -/
def Obligations.CodeWindow : Prop :=
  ∀ (s : State) (b : Byte) (v : Word),
    (∃ w : Word, memRead s (BitVec.ofNat 22 (0x4000 + 64 * b.toNat)) = (.okay, w) ∧
      w.getLsbD 0 = (codeAt s.code b).valid ∧ w.extractLsb' 8 8 = (codeAt s.code b).len ∧
      w.extractLsb' 1 7 = 0 ∧ w.extractLsb' 16 16 = 0) ∧
    (∀ w : Nat, 9 ≤ w → w ≤ 15 →
      memRead s (BitVec.ofNat 22 (0x4000 + 64 * b.toNat + 4 * w)) = (.okay, 0) ∧
      memWrite s (BitVec.ofNat 22 (0x4000 + 64 * b.toNat + 4 * w)) 0xF#4 v = (.okay, s)) ∧
    (∃ t : State, memWrite s (BitVec.ofNat 22 (0x4000 + 64 * b.toNat)) 0xF#4 v = (.okay, t) ∧
      t = { s with code := t.code } ∧
      codeAt t.code b = { codeAt s.code b with valid := v.getLsbD 0, len := v.extractLsb' 8 8 } ∧
      ∀ d, d ≠ b → codeAt t.code d = codeAt s.code d) ∧
    ∀ w : Nat, 1 ≤ w → w ≤ 8 →
      (∃ u : Word, memRead s (BitVec.ofNat 22 (0x4000 + 64 * b.toNat + 4 * w)) = (.okay, u) ∧
        ∀ t, t < 32 → u.getLsbD (31 - t) = (codeAt s.code b).symbolAt (32 * (w - 1) + t)) ∧
      ∃ t : State, memWrite s (BitVec.ofNat 22 (0x4000 + 64 * b.toNat + 4 * w)) 0xF#4 v = (.okay, t) ∧
        t = { s with code := t.code } ∧
        (codeAt t.code b).valid = (codeAt s.code b).valid ∧ (codeAt t.code b).len = (codeAt s.code b).len ∧
        (∀ k, k < 32 → (codeAt t.code b).symbolAt (32 * (w - 1) + k) = v.getLsbD (31 - k)) ∧
        (∀ k, k < 256 → k / 32 ≠ w - 1 → (codeAt t.code b).symbolAt k = (codeAt s.code b).symbolAt k) ∧
        ∀ d, d ≠ b → codeAt t.code d = codeAt s.code d

/-- R19 to R33: what each register reads while IDLE, and the numbers of the error codes (R116). -/
def Obligations.RegisterReads : Prop :=
  (∀ s : State, s.phase = .idle →
    memRead s 0x000#22 = (.okay, 0x48554631#32) ∧
    memRead s 0x004#22 = (.okay, if s.ie then 1 else 0) ∧
    memRead s 0x008#22 = (.okay, s.cmd) ∧
    (∃ w : Word, memRead s 0x00C#22 = (.okay, w) ∧ w.getLsbD 0 = false ∧ w.getLsbD 1 = s.done ∧
      w.getLsbD 2 = s.err ∧ w.getLsbD 3 = s.freqValid ∧ w.getLsbD 4 = s.treeValid ∧ w.toNat < 32) ∧
    memRead s 0x010#22 = (.okay, BitVec.ofNat 32 s.errCode.number) ∧
    memRead s 0x014#22 = (.okay, s.errIndex) ∧
    memRead s 0x018#22 = (.okay, s.errValue) ∧
    memRead s 0x01C#22 = (.okay, s.inLen) ∧
    memRead s 0x020#22 = (.okay, s.outLen) ∧
    memRead s 0x024#22 = (.okay, s.bitLen) ∧
    memRead s 0x028#22 = (.okay, s.pad.setWidth 32) ∧
    memRead s 0x02C#22 = (.okay, s.nsym.setWidth 32) ∧
    memRead s 0x030#22 = (.okay, s.root.setWidth 32) ∧
    memRead s 0x034#22 = (.okay, s.maxLen.setWidth 32) ∧
    memRead s 0x038#22 = (.okay, BitVec.ofNat 32 s.params.ibufSize) ∧
    memRead s 0x03C#22 = (.okay, BitVec.ofNat 32 s.params.obufSize)) ∧
  ErrCode.none.number = 0 ∧ ErrCode.emptyInput.number = 1 ∧ ErrCode.degenerateTree.number = 2 ∧
  ErrCode.unknownSymbol.number = 3 ∧ ErrCode.incompleteCode.number = 4 ∧ ErrCode.corruptPadding.number = 5 ∧
  ErrCode.badCommand.number = 6 ∧ ErrCode.noTree.number = 7 ∧ ErrCode.ringInvalid.number = 8 ∧
  ErrCode.obufOverflow.number = 9 ∧ ErrCode.lenRange.number = 10 ∧ ErrCode.badBitchar.number = 11

/-- R20, R26, R119: writes of CTRL without a soft reset, of IN_LEN and of STATUS. -/
def Obligations.RegisterWrites : Prop :=
  ∀ (s : State) (v : Word),
    (v.getLsbD 1 = false → memWrite s 0x004#22 0xF#4 v = (.okay, { s with ie := v.getLsbD 0 })) ∧
    memWrite s 0x01C#22 0xF#4 v = (.okay, { s with inLen := v }) ∧
    memWrite s 0x00C#22 0xF#4 v = (.okay, { s with done := s.done && !v.getLsbD 1 })

/-! ### Resets, the hold and the interrupt (70_reset_and_hazards.md, 60_exceptions.md) -/

/-- R129: a CTRL write with bit 1 = 1 puts everything but IBUF and OBUF at its reset value, whatever bit 0 is. -/
def Obligations.SoftReset : Prop :=
  ∀ (s : State) (v : Word), s.phase = .idle → v.getLsbD 1 = true →
    ∃ t : State, memWrite s 0x004#22 0xF#4 v = (.okay, t) ∧
      t = { s with
        ie := false, cmd := 0, phase := .idle, done := false, err := false, freqValid := false, treeValid := false
        errCode := .none, errIndex := 0, errValue := 0, inLen := 0, outLen := 0, bitLen := 0, pad := 0
        nsym := 0, root := 0, maxLen := 0, freq := zeroFreqs, node := zeroNodes, code := zeroCodes
        hidden := Hidden.empty, recovery := 0, work := 0 } ∧
      irq t = false ∧ memRead t 0x00C#22 = (.okay, 0) ∧ memRead t 0x008#22 = (.okay, 0)

/-- R128: while `rst_n = 0` nothing is answered and `irq = 0`; a fall abandons the running command with no completion and
no error record; the rise takes everything to its reset value, IBUF and OBUF to free values, but that DONE and CTRL.IE may
keep the value of the fall into recovery; in reset recovery every transaction is held, nothing else moves, DONE and IE can
only fall, and both are 0 when it ends. The free values, the number of recovery steps and when in them DONE and IE fall are
the model's (log entries 3, 6 and 23), and so is that the state of the fall stands until the rise (log entry 14, deduced)
and that a rise with a transaction unanswered is a fault (log entry 13). -/
def Obligations.HardReset : Prop :=
  (∀ s : State, s.rstN = false → irq s = false ∧
    ((∃ t, step s = .next t ∧ t.answers = s.answers) ∨ step s = .fault .resetInMidTransaction)) ∧
  (∀ (s : State) (n : Nat) (es : List HostEvent), s.rstN = true → s.recovery = 0 → s.phase = .busy → s.work = n + 1 →
    s.input = .rst false :: es → step s = .next { s with work := n, input := es, rstN := false }) ∧
  (∀ (s : State) (es : List HostEvent), s.rstN = true → s.recovery = 0 → s.phase = .idle → s.held = [] →
    s.input = .rst false :: es → step s = .next { s with input := es, rstN := false }) ∧
  (∀ (s : State) (es : List HostEvent), s.rstN = false → s.held = [] → s.input = .rst true :: es →
    ∃ (k d : Nat) (bi bo : Memory) (done ie : Bool), step s = .next { s with
      ie := ie, cmd := 0, phase := .idle, done := done, err := false, freqValid := false, treeValid := false
      errCode := .none, errIndex := 0, errValue := 0, inLen := 0, outLen := 0, bitLen := 0, pad := 0
      nsym := 0, root := 0, maxLen := 0, freq := zeroFreqs, node := zeroNodes, code := zeroCodes
      ibuf := bi, obuf := bo, hidden := Hidden.empty, rstN := true, input := es
      recovery := k, work := 0, draws := d } ∧
      (∀ a, bi.read a = Config.freeByte s.draws a) ∧ (∀ a, bo.read a = Config.freeByte (s.draws + 1) a) ∧
      (done = true → s.done = true) ∧ (ie = true → s.ie = true) ∧ (k = 0 → done = false ∧ ie = false)) ∧
  ∀ (s : State) (n : Nat), s.rstN = true → s.recovery = n + 1 →
    ∃ (done ie : Bool) (t : State), step s = .next t ∧
      t = { s with
        done := done, ie := ie, recovery := n, rstN := t.rstN, input := t.input, held := t.held, draws := t.draws } ∧
      (done = true → s.done = true) ∧ (ie = true → s.ie = true) ∧ (n = 0 → done = false ∧ ie = false) ∧
      ∀ (x : Transaction) (es : List HostEvent), s.input = .issue x :: es →
        t.held = s.held ++ [x] ∧ t.input = es ∧ t.rstN = true

/-- R49, R54, R55: while IDLE a transaction takes its effect and is answered: a read with what `memRead` gives and no
effect, a write with what `memWrite` gives; a poll reads once more unless the data match (R76); with nothing to do all
state is kept (R127). While a command runs, every transaction but a read of STATUS is held without effect or answer, a
read of STATUS is answered at once (`BusyStatus` says what `busyStatus` shows), and the held ones take their effect in the
order of their arrival when the block is IDLE, one a step (log entry 10; a held CMD write: `CmdWriteAccepts`). No step
leaves a read of STATUS held while a command runs. The host's events are the model's form (log entry 11). -/
def Obligations.HoldWhileBusy : Prop :=
  (∀ s : State, s.rstN = true → s.recovery = 0 → s.phase = .idle → s.held = [] →
    (s.input = [] → step s = .next s) ∧
    ∀ es : List HostEvent,
      (∀ a : Offset, s.input = .issue (.read a) :: es → step s = .next { s with
        input := es
        answers := { txn := .read a, resp := (memRead s a).1, data := (memRead s a).2 } :: s.answers }) ∧
      (∀ (a : Offset) (k : BitVec 4) (v : Word), s.input = .issue (.write a k v) :: es →
        step s = .next { (memWrite { s with input := es } a k v).2 with
          answers := { txn := .write a k v, resp := (memWrite { s with input := es } a k v).1, data := 0 }
            :: s.answers }) ∧
      ∀ (a : Offset) (m v : Word), s.input = .poll a m v :: es → step s = .next { s with
        input := if (memRead s a).2 &&& m = v then es else s.input
        answers := { txn := .read a, resp := (memRead s a).1, data := (memRead s a).2 } :: s.answers }) ∧
  (∀ (s : State) (n : Nat) (es : List HostEvent), s.rstN = true → s.recovery = 0 → s.phase = .busy →
    s.work = n + 1 →
    (∀ x : Transaction, s.input = .issue x :: es → x ≠ .read 0x00C#22 →
      step s = .next { s with work := n, held := s.held ++ [x], input := es }) ∧
    (s.input = .issue (.read 0x00C#22) :: es → ∃ k : Nat, step s = .next { s with
      work := n, input := es, draws := k
      answers := { txn := .read 0x00C#22, resp := .okay, data := busyStatus (decodeWord s.cmd) s } :: s.answers }) ∧
    ∀ m v : Word, s.input = .poll 0x00C#22 m v :: es → ∃ k : Nat, step s = .next { s with
      work := n, input := if busyStatus (decodeWord s.cmd) s &&& m = v then es else s.input, draws := k
      answers := { txn := .read 0x00C#22, resp := .okay, data := busyStatus (decodeWord s.cmd) s } :: s.answers }) ∧
  (∀ (s : State) (ts : List Transaction), s.rstN = true → s.recovery = 0 → s.phase = .idle →
    (∀ a : Offset, s.held = .read a :: ts → step s = .next { s with
      held := ts
      answers := { txn := .read a, resp := (memRead s a).1, data := (memRead s a).2 } :: s.answers }) ∧
    ∀ (a : Offset) (k : BitVec 4) (v : Word), s.held = .write a k v :: ts → ¬ (a = 0x008#22 ∧ k = 0xF#4) →
      step s = .next { (memWrite { s with held := ts } a k v).2 with
        answers := { txn := .write a k v, resp := (memWrite { s with held := ts } a k v).1, data := 0 }
          :: s.answers }) ∧
  ∀ s t : State, HeldQuiet s → step s = .next t → HeldQuiet t

/-- R22: a STATUS read while a command runs shows BUSY = 1, DONE = 0, ERR = 0, and FREQ_VALID and TREE_VALID each
either the value before the command or a value the command writes; the value the command leaves is among them. Which
values a command writes is deduced (log entry 5). -/
def Obligations.BusyStatus : Prop :=
  ∀ (i : Instr) (s : State),
    (busyStatus i s).getLsbD 0 = true ∧ (busyStatus i s).getLsbD 1 = false ∧ (busyStatus i s).getLsbD 2 = false ∧
    (busyStatus i s).toNat < 32 ∧
    (busyStatus i s).getLsbD 3 ∈ s.freqValid :: freqValidWrites i s ∧
    (busyStatus i s).getLsbD 4 ∈ s.treeValid :: treeValidWrites i s ∧
    ∃ t, exec i s = .next t ∧ t.freqValid ∈ s.freqValid :: freqValidWrites i s ∧
      t.treeValid ∈ s.treeValid :: treeValidWrites i s

/-- R46, R121: `irq` is DONE and IE, in reset recovery too: every completion, in error or not, raises it exactly when
IE = 1, an acceptance, an acknowledge and a soft reset lower it, and a CTRL write raises or lowers it at once. -/
def Obligations.IrqFollowsDone : Prop :=
  (∀ s : State, s.rstN = true → irq s = (s.done && s.ie)) ∧
  (∀ (i : Instr) (s : State), s.rstN = true → ∃ t, exec i s = .next t ∧ irq t = s.ie) ∧
  ∀ (s : State) (v : Word),
    irq (memWrite s 0x008#22 0xF#4 v).2 = false ∧
    (v.getLsbD 1 = true → irq (memWrite s 0x00C#22 0xF#4 v).2 = false) ∧
    (v.getLsbD 1 = true → irq (memWrite s 0x004#22 0xF#4 v).2 = false) ∧
    (v.getLsbD 1 = false → irq (memWrite s 0x004#22 0xF#4 v).2 = (s.rstN && (s.done && v.getLsbD 0)))

/-! ### The whole machine -/

/-- R128, R130: the state after a hardware reset. That a step without input leaves it is R130's "No command runs by
itself after reset" in the model's form (log entries 2 and 4). -/
def Obligations.ResetValues : Prop :=
  State.reset.phase = .idle ∧ memRead State.reset 0x00C#22 = (.okay, 0) ∧ State.reset.ie = false ∧
  State.reset.cmd = 0 ∧ State.reset.errCode = .none ∧ State.reset.errIndex = 0 ∧ State.reset.errValue = 0 ∧
  State.reset.inLen = 0 ∧ State.reset.outLen = 0 ∧ State.reset.bitLen = 0 ∧ State.reset.pad = 0 ∧
  State.reset.nsym = 0 ∧ State.reset.root = 0 ∧ State.reset.maxLen = 0 ∧
  (∀ b, freqAt State.reset.freq b = 0) ∧ (∀ j, nodeAt State.reset.node j = NodeEntry.zero) ∧
  (∀ b, codeAt State.reset.code b = CodeEntry.zero) ∧ State.reset.hidden = Hidden.empty ∧
  irq State.reset = false ∧ step State.reset = .next State.reset

/-- The invariant holds at reset. -/
def Obligations.ResetInvariant : Prop := Invariant State.reset

/-- Every step keeps the invariant: the canonical form of both buffers, the legal ranges of the registers, the error
record, and the tables' agreement with each other (R22, R23, R27, R29, R30, R34, R36, R45, R110). -/
def Obligations.InvariantKept : Prop :=
  ∀ s t : State, Invariant s → step s = .next t → Invariant t

/-- R76, R77: LOADIN leaves the bytes as the message, the rest of its last word 0 and the rest of IBUF as it was; SETCODE
gives a byte its code, with BITS zero beyond it; nothing else but the answers changes. The host's events are the model's
form (log entry 11). -/
def Obligations.ScriptLoads : Prop :=
  ∀ (s : State) (es : List HostEvent), s.rstN = true → s.recovery = 0 → s.phase = .idle → s.held = [] →
    s.params.wf = true →
    (∀ m : List Byte, m.length ≤ s.params.ibufSize → s.input = scriptLoadin m ++ es →
      ∃ (k : Nat) (t : State), runSteps k s = .next t ∧
        t = { s with ibuf := t.ibuf, inLen := BitVec.ofNat 32 m.length, input := es, answers := t.answers } ∧
        message t = m ∧
        (∀ a, m.length ≤ a → a < 4 * ((m.length + 3) / 4) → t.ibuf.read a = 0) ∧
        ∀ a, 4 * ((m.length + 3) / 4) ≤ a → t.ibuf.read a = s.ibuf.read a) ∧
    ∀ (b : Byte) (e : Bits), e.length ≤ 255 → s.input = scriptSetcode b e ++ es →
      ∃ (k : Nat) (t : State), runSteps k s = .next t ∧
        t = { s with code := t.code, input := es, answers := t.answers } ∧
        (codeAt t.code b).valid = true ∧ (codeAt t.code b).symbols = e ∧
        (∀ n, e.length ≤ n → n < 256 → (codeAt t.code b).symbolAt n = false) ∧
        ∀ d, d ≠ b → codeAt t.code d = codeAt s.code d

/-- R77, R133: from an IDLE block, RUN of any command comes to its end: the command has had its effect, DONE is clear
again, and the script goes on. The host's events are the model's form (log entry 11). -/
def Obligations.ScriptRun : Prop :=
  ∀ (s : State) (i : Instr) (es : List HostEvent), s.rstN = true → s.recovery = 0 → s.phase = .idle → s.held = [] →
    i.wf = true → s.input = scriptRun i ++ es →
    ∃ (k d : Nat) (t u : State), runSteps k s = .next t ∧
      exec i { accept (encode i) s with draws := d } = .next u ∧
      t = { u with done := false, input := es, held := [], answers := t.answers, work := t.work } ∧
      t.phase = .idle ∧ t.cmd = encode i
end

