-- ==== Sys2Proof/Laws/Tables.lean ====
section
/-! SUPPORT. The laws of the three tables FREQ, NODE and CODE: read after write, other entries untouched, all zero. -/

namespace Sys2Proof.Machine

theorem mem_allBytes (b : Byte) : b ∈ allBytes := by
  simp only [allBytes, List.mem_map, List.mem_range]
  exact ⟨b.toNat, b.isLt, by simp⟩

@[simp] theorem length_allBytes : allBytes.length = 256 := by simp [allBytes]

theorem getElem_allBytes (k : Nat) (h : k < allBytes.length) : allBytes[k] = BitVec.ofNat 8 k := by
  simp [allBytes]

theorem nodup_allBytes : allBytes.Nodup := by
  unfold allBytes
  refine List.Nodup.map_on ?_ List.nodup_range
  intro x hx y hy h
  have h := congrArg BitVec.toNat h
  simp only [List.mem_range] at hx hy
  simp only [BitVec.toNat_ofNat] at h
  omega

@[simp] theorem freqAt_setFreq_same (f : Freqs) (b : Byte) (v : Word) : freqAt (setFreq f b v) b = v := by
  simp [freqAt, setFreq]

theorem freqAt_setFreq (f : Freqs) (b c : Byte) (v : Word) :
    freqAt (setFreq f b v) c = if c = b then v else freqAt f c := by
  unfold freqAt setFreq
  have h : b.toNat = c.toNat ↔ c = b := by rw [← BitVec.toNat_inj, eq_comm]
  change (Vector.set f b.toNat v _)[c.toNat] = if c = b then v else f[c.toNat]
  rw [Vector.getElem_set]
  simp only [h]

theorem nodeAt_setNode (n : Nodes) (j k : NodeIdx) (e : NodeEntry) :
    nodeAt (setNode n j e) k = if k = j then e else nodeAt n k := by
  unfold nodeAt setNode
  have h : j.toNat = k.toNat ↔ k = j := by rw [← BitVec.toNat_inj, eq_comm]
  change (Vector.set n j.toNat e _)[k.toNat] = if k = j then e else n[k.toNat]
  rw [Vector.getElem_set]
  simp only [h]

theorem codeAt_setCode (c : Codes) (b d : Byte) (e : CodeEntry) :
    codeAt (setCode c b e) d = if d = b then e else codeAt c d := by
  unfold codeAt setCode
  have h : b.toNat = d.toNat ↔ d = b := by rw [← BitVec.toNat_inj, eq_comm]
  change getElem (Vector.set c b.toNat e _) d.toNat _ = if d = b then e else getElem c d.toNat _
  rw [Vector.getElem_set]
  simp only [h]

@[simp] theorem codeAt_setCode_same (c : Codes) (b : Byte) (e : CodeEntry) : codeAt (setCode c b e) b = e := by
  simp [codeAt_setCode]

theorem codeAt_setCode_other (c : Codes) {b d : Byte} (e : CodeEntry) (h : d ≠ b) :
    codeAt (setCode c b e) d = codeAt c d := by
  simp [codeAt_setCode, h]

@[simp] theorem nodeAt_setNode_same (n : Nodes) (j : NodeIdx) (e : NodeEntry) : nodeAt (setNode n j e) j = e := by
  simp [nodeAt_setNode]

theorem nodeAt_setNode_other (n : Nodes) {j k : NodeIdx} (e : NodeEntry) (h : k ≠ j) :
    nodeAt (setNode n j e) k = nodeAt n k := by
  simp [nodeAt_setNode, h]

@[simp] theorem freqAt_zeroFreqs (b : Byte) : freqAt zeroFreqs b = 0 := by
  change (Vector.replicate 256 (0 : Word))[b.toNat] = 0
  simp

@[simp] theorem nodeAt_zeroNodes (j : NodeIdx) : nodeAt zeroNodes j = NodeEntry.zero := by
  change (Vector.replicate 512 NodeEntry.zero)[j.toNat] = NodeEntry.zero
  simp

@[simp] theorem codeAt_zeroCodes (b : Byte) : codeAt zeroCodes b = CodeEntry.zero := by
  change (Vector.replicate 256 CodeEntry.zero)[b.toNat] = CodeEntry.zero
  simp

/-- Two CODE memories with equal entries are equal. -/
theorem codes_ext {c d : Codes} (h : ∀ b, codeAt c b = codeAt d b) : c = d := by
  apply Vector.ext
  intro i hi
  have h := h (BitVec.ofNat 8 i)
  unfold codeAt at h
  simpa [Nat.mod_eq_of_lt (show i < 256 from hi)] using h

/-- Two FREQ memories with equal bins are equal. -/
theorem freqs_ext {f g : Freqs} (h : ∀ b, freqAt f b = freqAt g b) : f = g := by
  apply Vector.ext
  intro i hi
  have h := h (BitVec.ofNat 8 i)
  unfold freqAt at h
  simpa [Nat.mod_eq_of_lt (show i < 256 from hi)] using h

theorem mem_presentBytes {f : Freqs} {b : Byte} : b ∈ presentBytes f ↔ freqAt f b ≠ 0 := by
  simp [presentBytes, mem_allBytes]

theorem nodup_presentBytes (f : Freqs) : (presentBytes f).Nodup := nodup_allBytes.filter _

theorem length_presentBytes_le (f : Freqs) : (presentBytes f).length ≤ 256 := by
  have h := List.length_filter_le (fun b => freqAt f b != 0) allBytes
  simpa [presentBytes] using h

@[simp] theorem presentBytes_zeroFreqs : presentBytes zeroFreqs = [] := by
  simp [presentBytes]

@[simp] theorem freqTotal_zeroFreqs : freqTotal zeroFreqs = 0 := by
  simp only [freqTotal, freqAt_zeroFreqs]
  generalize allBytes = bs
  induction bs with
  | nil => rfl
  | cons b bs ih => simp

end Sys2Proof.Machine
end

