-- ==== Sys2Proof/Laws/Bits.lean ====
section
/-! SUPPORT. The laws of bit strings and bytes (R11, R12, R37): bytes and their eight symbols, text bits, the code an
entry stores, prefixes. -/

namespace Sys2Proof.Machine

@[simp] theorem length_bits8 (v : Byte) : (bits8 v).length = 8 := rfl

/-- `byte(bits8(v)) = v` (R12). -/
@[simp] theorem byteOf_bits8 (v : Byte) : byteOf (bits8 v) = v := by
  revert v; decide +kernel

theorem bits8_byteOf_eight (a b c d e f g h : Bool) : bits8 (byteOf [a, b, c, d, e, f, g, h]) = [a, b, c, d, e, f, g, h] := by
  revert a b c d e f g h; decide +kernel

/-- A string of eight symbols is the bits of its byte (R12). -/
theorem bits8_byteOf {s : Bits} (hs : s.length = 8) : bits8 (byteOf s) = s := by
  match s, hs with
  | [a, b, c, d, e, f, g, h], _ => exact bits8_byteOf_eight a b c d e f g h

@[simp] theorem isTextBit_textByte (x : Bool) : isTextBit (textByte x) = true := by cases x <;> rfl

@[simp] theorem textSymbol_textByte (x : Bool) : textSymbol (textByte x) = x := by cases x <;> rfl

theorem textByte_textSymbol {c : Byte} (h : isTextBit c = true) : textByte (textSymbol c) = c := by
  simp only [isTextBit, Bool.or_eq_true, beq_iff_eq] at h
  rcases h with rfl | rfl <;> rfl

@[simp] theorem length_textBits (e : Bits) : (textBits e).length = e.length := by simp [textBits]

@[simp] theorem length_zeros (k : Nat) : (zeros k).length = k := by simp [zeros]

@[simp] theorem map_textSymbol_textBits (e : Bits) : (textBits e).map textSymbol = e := by
  simp [textBits, Function.comp_def]

theorem isTextBit_of_mem_textBits (e : Bits) : ∀ c ∈ textBits e, isTextBit c = true := by
  intro c hc
  obtain ⟨x, _, rfl⟩ := List.mem_map.mp hc
  exact isTextBit_textByte x

theorem textBits_append (d e : Bits) : textBits (d ++ e) = textBits d ++ textBits e := by simp [textBits]

/-! ### Prefixes -/

theorem isPrefix_iff {s t : Bits} : isPrefix s t = true ↔ BitPrefix s t := by
  induction s generalizing t with
  | nil => simp [isPrefix, BitPrefix]
  | cons x s ih =>
    cases t with
    | nil => simp [isPrefix, BitPrefix]
    | cons y t =>
      simp only [isPrefix, Bool.and_eq_true, beq_iff_eq, ih, BitPrefix, List.length_cons, List.take_succ_cons,
        List.cons.injEq, Nat.add_le_add_iff_right]
      constructor
      · rintro ⟨rfl, h₁, h₂⟩; exact ⟨h₁, rfl, h₂⟩
      · rintro ⟨h₁, rfl, h₂⟩; exact ⟨rfl, h₁, h₂⟩

theorem bitPrefix_iff {s t : Bits} : BitPrefix s t ↔ s <+: t := by
  rw [List.prefix_iff_eq_take]
  constructor
  · exact fun h => h.2.symm
  · intro h
    refine ⟨?_, h.symm⟩
    rw [h]; simp

/-! ### The stored code -/

@[simp] theorem CodeEntry.length_symbols (e : CodeEntry) : e.symbols.length = e.len.toNat := by
  simp [CodeEntry.symbols]

theorem CodeEntry.getElem_symbols (e : CodeEntry) (k : Nat) (h : k < e.symbols.length) :
    e.symbols[k] = e.symbolAt k := by
  simp [CodeEntry.symbols]

theorem bitsValue_snoc (s : Bits) (x : Bool) : bitsValue (s ++ [x]) = 2 * bitsValue s + x.toNat := by
  simp [bitsValue]

theorem bitsValue_lt (s : Bits) : bitsValue s < 2 ^ s.length := by
  induction s using List.reverseRecOn with
  | nil => simp [bitsValue]
  | append_singleton s x ih =>
    rw [bitsValue_snoc]
    simp only [List.length_append, List.length_cons, List.length_nil, pow_succ, zero_add]
    cases x <;> simp only [Bool.toNat_false, Bool.toNat_true] <;> omega

theorem testBit_bitsValue (s : Bits) (k : Nat) (h : k < s.length) :
    (bitsValue s).testBit (s.length - 1 - k) = s[k] := by
  induction s using List.reverseRecOn with
  | nil => simp at h
  | append_singleton s x ih =>
    rw [bitsValue_snoc]
    simp only [List.length_append, List.length_cons, List.length_nil, zero_add] at h ⊢
    by_cases hk : k = s.length
    · subst hk
      simp only [Nat.add_sub_cancel, Nat.sub_self, Nat.testBit_zero, List.getElem_concat_length]
      cases x <;> simp
    · have hk' : k < s.length := by omega
      have h₁ : s.length + 1 - 1 - k = (s.length - 1 - k) + 1 := by omega
      rw [h₁, Nat.testBit_succ, List.getElem_append_left hk', ← ih hk']
      congr 1
      cases x <;> simp only [Bool.toNat_false, Bool.toNat_true] <;> omega

/-- The entry `Assign(b, s)` writes holds the code `s` (R37, R82). -/
theorem CodeEntry.symbols_ofCode {s : Bits} (h : s.length ≤ 255) : (CodeEntry.ofCode s).symbols = s := by
  apply List.ext_getElem
  · simp [CodeEntry.ofCode]; omega
  · intro k h₁ h₂
    rw [CodeEntry.getElem_symbols]
    simp only [CodeEntry.symbolAt, CodeEntry.ofCode, storeBits, BitVec.getLsbD_ofNat, Nat.testBit_mul_two_pow]
    rw [← testBit_bitsValue s k h₂]
    have h₃ : 255 - k - (256 - s.length) = s.length - 1 - k := by omega
    simp [h₃, show 255 - k < 256 by omega, show 256 - s.length ≤ 255 - k by omega]

@[simp] theorem CodeEntry.valid_ofCode (s : Bits) : (CodeEntry.ofCode s).valid = true := rfl

@[simp] theorem CodeEntry.symbols_zero : CodeEntry.zero.symbols = [] := rfl

theorem encodedBits_cons (c : Codes) (b : Byte) (m : List Byte) :
    encodedBits c (b :: m) = (codeAt c b).symbols ++ encodedBits c m := rfl

/-- The symbol at which a growing bit string passes a length, and what stands before it. -/
theorem exists_split {A B : Bits} {n : Nat} (h1 : A.length ≤ n) (h2 : n < (A ++ B).length) :
   ∃ E x rest, E.length = n ∧ A <+: E ∧ A ++ B = E ++ x :: rest := by
  refine ⟨(A ++ B).take n, (A ++ B)[n], (A ++ B).drop (n+1), by rw [List.length_take]; omega, ?_, ?_⟩
  · rw [List.take_append]; rw [List.take_of_length_le h1]; exact List.prefix_append _ _
  · rw [List.cons_getElem_drop_succ, List.take_append_drop]

theorem encodedBits_append (c : Codes) (m n : List Byte) : encodedBits c (m ++ n) = encodedBits c m ++ encodedBits c n := by
  simp [encodedBits]

end Sys2Proof.Machine
end

