-- ==== Sys2Proof/Laws/Codebook.lean ====
section
/-! SUPPORT. What the codebook check finds (R85) and what the ring lookup finds (R38, R86, R97). -/

namespace Sys2Proof.Machine

theorem codeAt_eq_getElem (c : Codes) (i : Nat) (hi : i < 256) :
    codeAt c (BitVec.ofNat 8 i) = c.toList[i]'(by simpa using hi) := by
  unfold codeAt
  simp [Nat.mod_eq_of_lt (show i < 256 from hi)]

/-- The valid entries, each with its byte number. -/
theorem mem_validCodes {c : Codes} {i : Nat} {e : CodeEntry} :
    (i, e) ∈ validCodes c ↔ i < 256 ∧ e = codeAt c (BitVec.ofNat 8 i) ∧ e.valid = true := by
  simp only [validCodes, List.mem_map, List.mem_filter, List.mem_zipIdx_iff_getElem?, Prod.exists, Prod.mk.injEq]
  constructor
  · rintro ⟨e', i', ⟨h₁, h₂⟩, rfl, rfl⟩
    obtain ⟨hi, h₁⟩ := List.getElem?_eq_some_iff.mp h₁
    have hi' : i' < 256 := by simpa using hi
    exact ⟨hi', by rw [codeAt_eq_getElem c i' hi', h₁], h₂⟩
  · rintro ⟨hi, rfl, hv⟩
    refine ⟨_, i, ⟨?_, hv⟩, rfl, rfl⟩
    rw [List.getElem?_eq_getElem (by simpa using hi), codeAt_eq_getElem c i hi]

theorem mem_validCodes_byte {c : Codes} (b : Byte) (h : (codeAt c b).valid = true) :
    (b.toNat, codeAt c b) ∈ validCodes c :=
  mem_validCodes.mpr ⟨b.isLt, by simp, h⟩

/-- The valid entries stand in ascending byte order. -/
theorem validCodes_ascending (c : Codes) : (validCodes c).Pairwise fun p q => p.1 < q.1 := by
  unfold validCodes
  rw [List.pairwise_map]
  apply List.Pairwise.filter
  have h : (c.toList.zipIdx.map Prod.snd).Pairwise (· < ·) := by
    rw [List.zipIdx_map_snd, List.range'_eq_map_range]
    simpa [List.pairwise_map] using List.pairwise_lt_range
  exact List.pairwise_map.mp h

/-- In an ascending list, a relation between neighbours in order is one between members in order. -/
theorem pairwise_iff_of_ascending {α : Type} {R : Nat × α → Nat × α → Prop} {l : List (Nat × α)}
    (h : l.Pairwise fun p q => p.1 < q.1) :
    l.Pairwise R ↔ ∀ p ∈ l, ∀ q ∈ l, p.1 < q.1 → R p q := by
  induction l with
  | nil => simp
  | cons a l ih =>
    obtain ⟨h₁, h₂⟩ := List.pairwise_cons.mp h
    rw [List.pairwise_cons, ih h₂]
    constructor
    · rintro ⟨h₃, h₄⟩ p hp q hq hpq
      rcases List.mem_cons.mp hp with rfl | hp'
      · rcases List.mem_cons.mp hq with rfl | hq'
        · omega
        · exact h₃ q hq'
      · rcases List.mem_cons.mp hq with rfl | hq'
        · have := h₁ p hp'; omega
        · exact h₄ p hp' q hq' hpq
    · intro h₃
      exact ⟨fun q hq => h₃ a (by simp) q (by simp [hq]) (h₁ q hq),
        fun p hp q hq hpq => h₃ p (by simp [hp]) q (by simp [hq]) hpq⟩

theorem CodeEntry.symbols_eq_nil {e : CodeEntry} : e.symbols = [] ↔ e.len = 0 := by
  rw [← List.length_eq_zero_iff, CodeEntry.length_symbols]
  constructor
  · exact fun h => BitVec.eq_of_toNat_eq (by simpa using h)
  · exact fun h => by simp [h]

theorem emptyCode_none {codes : List (Nat × CodeEntry)} :
    emptyCode codes = none ↔ ∀ p ∈ codes, p.2.symbols ≠ [] := by
  simp [emptyCode, CodeEntry.symbols_eq_nil]

theorem clash_iff {e₁ e₂ : CodeEntry} :
    clash e₁ e₂ = true ↔ BitPrefix e₁.symbols e₂.symbols ∨ BitPrefix e₂.symbols e₁.symbols := by
  simp [clash, isPrefix_iff]

theorem prefixPair_none {codes : List (Nat × CodeEntry)} :
    prefixPair codes = none ↔ codes.Pairwise fun p q => ¬ clash p.2 q.2 = true := by
  induction codes with
  | nil => simp [prefixPair]
  | cons p codes ih =>
    obtain ⟨b, e⟩ := p
    simp only [prefixPair, List.pairwise_cons]
    cases h : codes.find? fun p => clash e p.2 with
    | none =>
      rw [List.find?_eq_none] at h
      simp only [ih]
      exact ⟨fun h' => ⟨h, h'⟩, fun h' => h'.2⟩
    | some q =>
      have h₁ := List.mem_of_find?_eq_some h
      have h₂ := List.find?_some h
      simp only [reduceCtorEq, false_iff, not_and]
      exact fun h' => absurd h₂ (h' q h₁)

/-- The codebook check passes exactly on the prefix-free codebooks without an empty code (R85). -/
theorem codebookFault_none {c : Codes} : codebookFault c = none ↔ PrefixFree c := by
  have hsplit : codebookFault c = none ↔ emptyCode (validCodes c) = none ∧ prefixPair (validCodes c) = none := by
    unfold codebookFault
    cases emptyCode (validCodes c) <;> cases prefixPair (validCodes c) <;> simp
  rw [hsplit, emptyCode_none, prefixPair_none, pairwise_iff_of_ascending (validCodes_ascending c)]
  constructor
  · rintro ⟨h₁, h₂⟩
    refine ⟨fun b hb => h₁ _ (mem_validCodes_byte b hb), ?_⟩
    intro b₁ b₂ hne hb₁ hb₂ hp
    have hm₁ := mem_validCodes_byte b₁ hb₁
    have hm₂ := mem_validCodes_byte b₂ hb₂
    have hne' : b₁.toNat ≠ b₂.toNat := fun h => hne (BitVec.eq_of_toNat_eq h)
    rcases Nat.lt_or_gt_of_ne hne' with h | h
    · exact h₂ _ hm₁ _ hm₂ h (clash_iff.mpr (.inl hp))
    · exact h₂ _ hm₂ _ hm₁ h (clash_iff.mpr (.inr hp))
  · rintro ⟨h₁, h₂⟩
    constructor
    · rintro ⟨i, e⟩ hp
      obtain ⟨_, rfl, hv⟩ := mem_validCodes.mp hp
      exact h₁ _ hv
    · rintro ⟨i, e⟩ hp ⟨j, d⟩ hq hij hc
      obtain ⟨hi, rfl, hv⟩ := mem_validCodes.mp hp
      obtain ⟨hj, rfl, hw⟩ := mem_validCodes.mp hq
      have hne : BitVec.ofNat 8 i ≠ BitVec.ofNat 8 j := by
        intro h
        have h := congrArg BitVec.toNat h
        simp only [BitVec.toNat_ofNat] at h
        simp only at hij
        omega
      rcases clash_iff.mp hc with h | h
      · exact h₂ _ _ hne hv hw h
      · exact h₂ _ _ hne.symm hw hv h

/-- Whatever the check raises, it is RING_INVALID (R85). -/
theorem codebookFault_code {c : Codes} {r : Raised} (h : codebookFault c = some r) : r.code = .ringInvalid := by
  unfold codebookFault at h
  split at h
  · cases h; rfl
  · split at h
    · cases h; rfl
    · cases h

/-! ### The ring -/

/-- What the ring lookup finds is a valid entry with exactly that code (R97). -/
theorem ringLookup_some {c : Codes} {s : Bits} {b : Byte} (h : ringLookup c s = some b) :
    (codeAt c b).valid = true ∧ (codeAt c b).symbols = s := by
  simp only [ringLookup, Option.map_eq_some_iff] at h
  obtain ⟨i, hi, rfl⟩ := h
  obtain ⟨hlt, hp, _⟩ := List.findIdx?_eq_some_iff_getElem.mp hi
  have hlt' : i < 256 := by simpa using hlt
  rw [codeAt_eq_getElem c i hlt']
  simp only [Bool.and_eq_true, beq_iff_eq] at hp
  exact ⟨hp.1.1, hp.2⟩

/-- Where the lookup finds nothing, no valid entry has that code (R97). -/
theorem ringLookup_none {c : Codes} {s : Bits} (h : ringLookup c s = none) (b : Byte)
    (hv : (codeAt c b).valid = true) : (codeAt c b).symbols ≠ s := by
  simp only [ringLookup, Option.map_eq_none_iff, List.findIdx?_eq_none_iff] at h
  intro hs
  have hb := h (codeAt c b) (by
    have := codeAt_eq_getElem c b.toNat b.isLt
    simp only [BitVec.ofNat_toNat, BitVec.setWidth_eq] at this
    rw [this]; exact List.getElem_mem _)
  rw [hv, hs] at hb
  simp [← hs] at hb

/-- In a prefix-free ring the lookup of a code finds its byte (R86). -/
theorem ringLookup_code {c : Codes} (hc : PrefixFree c) {b : Byte} (hv : (codeAt c b).valid = true) :
    ringLookup c (codeAt c b).symbols = some b := by
  cases h : ringLookup c (codeAt c b).symbols with
  | none => exact absurd rfl (ringLookup_none h b hv)
  | some d =>
    obtain ⟨hd, hs⟩ := ringLookup_some h
    by_contra hne
    have hne : d ≠ b := fun h' => hne (by rw [h'])
    exact hc.2 d b hne hd hv (by rw [hs]; exact ⟨le_refl _, List.take_length⟩)

/-- In a prefix-free ring no proper prefix of a code is itself a code: a match is always final (R86). -/
theorem ringLookup_proper {c : Codes} (hc : PrefixFree c) {b : Byte} (hv : (codeAt c b).valid = true) {s t : Bits}
    (hst : (codeAt c b).symbols = s ++ t) (ht : t ≠ []) : ringLookup c s = none := by
  cases h : ringLookup c s with
  | none => rfl
  | some d =>
    obtain ⟨hd, hs⟩ := ringLookup_some h
    by_cases hne : d = b
    · subst hne
      rw [hs] at hst
      exact absurd (List.self_eq_append_right.mp hst) ht
    · exact absurd (bitPrefix_iff.mpr (by rw [hs, hst]; exact List.prefix_append s t)) (hc.2 d b hne hd hv)

/-! ### What the check reports (R85) -/

/-- The first entry in byte order that a search finds. -/
theorem find_first {α : Type} {l : List (Nat × α)} (h : l.Pairwise fun p q => p.1 < q.1) {f : Nat × α → Bool} {q : Nat × α}
    (hf : l.find? f = some q) : q ∈ l ∧ f q = true ∧ ∀ q' ∈ l, q'.1 < q.1 → f q' = false := by
  obtain ⟨h1, as, bs, h2, h3⟩ := List.find?_eq_some_iff_append.mp hf
  refine ⟨List.mem_of_find?_eq_some hf, h1, ?_⟩
  subst h2
  intro q' hq' hlt
  rw [List.pairwise_append] at h
  rcases List.mem_append.mp hq' with h' | h'
  · simpa using h3 q' h'
  · rcases List.mem_cons.mp h' with rfl | h'
    · omega
    · have := (List.pairwise_cons.mp h.2.1).1 q' h'; omega

/-- The first clashing pair in `(b1, b2)` order. -/
theorem prefixPair_some {codes : List (Nat × CodeEntry)} (h : codes.Pairwise fun p q => p.1 < q.1) {b₁ b₂ : Nat}
    (hp : prefixPair codes = some (b₁, b₂)) :
    ∃ e₁ e₂, (b₁, e₁) ∈ codes ∧ (b₂, e₂) ∈ codes ∧ b₁ < b₂ ∧ clash e₁ e₂ = true ∧
      ∀ d₁ f₁ d₂ f₂, (d₁, f₁) ∈ codes → (d₂, f₂) ∈ codes → d₁ < d₂ → clash f₁ f₂ = true → b₁ < d₁ ∨ (b₁ = d₁ ∧ b₂ ≤ d₂) := by
  induction codes with
  | nil => cases hp
  | cons p codes ih =>
    obtain ⟨b, e⟩ := p
    obtain ⟨h1, h2⟩ := List.pairwise_cons.mp h
    rw [prefixPair] at hp
    cases hf : codes.find? fun p => clash e p.2 with
    | some q =>
      rw [hf] at hp
      simp only [Option.some.injEq, Prod.mk.injEq] at hp
      obtain ⟨rfl, rfl⟩ := hp
      obtain ⟨h3, h4, h5⟩ := find_first h2 hf
      refine ⟨e, q.2, by simp, by simp [h3], h1 _ h3, h4, ?_⟩
      intro d₁ f₁ d₂ f₂ hd₁ hd₂ hlt hc
      rcases List.mem_cons.mp hd₁ with heq | hd₁
      · cases heq
        rcases List.mem_cons.mp hd₂ with heq | hd₂
        · cases heq; omega
        · right; refine ⟨rfl, ?_⟩
          by_contra hlt'
          have := h5 _ hd₂ (by simpa using hlt')
          simp only [hc] at this; cases this
      · left; exact h1 _ hd₁
    | none =>
      rw [hf] at hp
      obtain ⟨e₁, e₂, h3, h4, h5, h6, h7⟩ := ih h2 hp
      refine ⟨e₁, e₂, by simp [h3], by simp [h4], h5, h6, ?_⟩
      rw [List.find?_eq_none] at hf
      intro d₁ f₁ d₂ f₂ hd₁ hd₂ hlt hc
      rcases List.mem_cons.mp hd₁ with heq | hd₁
      · cases heq
        rcases List.mem_cons.mp hd₂ with heq | hd₂
        · cases heq; omega
        · exact absurd hc (hf _ hd₂)
      · rcases List.mem_cons.mp hd₂ with heq | hd₂
        · cases heq; have := h1 _ hd₁; simp only at this; omega
        · exact h7 _ _ _ _ hd₁ hd₂ hlt hc

/-- What the check reports of a codebook that is not well formed (R85). -/
theorem codebookFault_some {c : Codes} (h : ¬ PrefixFree c) : ∃ b₁ b₂ : Byte,
      ((b₁ = b₂ ∧ (codeAt c b₁).valid = true ∧ (codeAt c b₁).len = 0 ∧
          ∀ b : Byte, b.toNat < b₁.toNat → ¬ ((codeAt c b).valid = true ∧ (codeAt c b).len = 0)) ∨
        ((∀ b : Byte, ¬ ((codeAt c b).valid = true ∧ (codeAt c b).len = 0)) ∧
          b₁.toNat < b₂.toNat ∧ (codeAt c b₁).valid = true ∧ (codeAt c b₂).valid = true ∧
          (BitPrefix (codeAt c b₁).symbols (codeAt c b₂).symbols ∨
            BitPrefix (codeAt c b₂).symbols (codeAt c b₁).symbols) ∧
          ∀ d₁ d₂ : Byte, d₁.toNat < d₂.toNat → (codeAt c d₁).valid = true → (codeAt c d₂).valid = true →
            (BitPrefix (codeAt c d₁).symbols (codeAt c d₂).symbols ∨
              BitPrefix (codeAt c d₂).symbols (codeAt c d₁).symbols) →
            b₁.toNat < d₁.toNat ∨ (b₁ = d₁ ∧ b₂.toNat ≤ d₂.toNat))) ∧
   codebookFault c = some { code := .ringInvalid, index := b₁.setWidth 32, value := b₂.setWidth 32 } := by
  have hof : ∀ n, n < 256 → (BitVec.ofNat 8 n).setWidth 32 = BitVec.ofNat 32 n := by
    intro n hn; apply BitVec.eq_of_toNat_eq; simp; omega
  have hto : ∀ n, n < 256 → (BitVec.ofNat 8 n).toNat = n := by
    intro n hn; simp; omega
  rw [← codebookFault_none] at h
  unfold codebookFault at h ⊢
  cases he : emptyCode (validCodes c) with
  | some b =>
    simp only [emptyCode, Option.map_eq_some_iff] at he
    obtain ⟨⟨b', e⟩, hf, rfl⟩ := he
    obtain ⟨h1, h2, h3⟩ := find_first (validCodes_ascending c) hf
    obtain ⟨hb, rfl, hv⟩ := mem_validCodes.mp h1
    refine ⟨BitVec.ofNat 8 b', BitVec.ofNat 8 b', .inl ⟨rfl, hv, by simpa using h2, ?_⟩, ?_⟩
    · intro b hlt ⟨h4, h5⟩
      rw [hto _ hb] at hlt
      have := h3 _ (mem_validCodes_byte b h4) hlt
      simp [h5] at this
    · simp only [hof _ hb]
  | none =>
    rw [he] at h
    simp only at h
    cases hp : prefixPair (validCodes c) with
    | none => rw [hp] at h; exact absurd rfl h
    | some p =>
      obtain ⟨n₁, n₂⟩ := p
      obtain ⟨e₁, e₂, h1, h2, h3, h4, h5⟩ := prefixPair_some (validCodes_ascending c) hp
      obtain ⟨hb₁, rfl, hv₁⟩ := mem_validCodes.mp h1
      obtain ⟨hb₂, rfl, hv₂⟩ := mem_validCodes.mp h2
      refine ⟨BitVec.ofNat 8 n₁, BitVec.ofNat 8 n₂, .inr ⟨?_, by rw [hto _ hb₁, hto _ hb₂]; exact h3, hv₁, hv₂, clash_iff.mp h4, ?_⟩, ?_⟩
      · intro b ⟨h6, h7⟩
        exact emptyCode_none.mp he _ (mem_validCodes_byte b h6) (CodeEntry.symbols_eq_nil.mpr h7)
      · intro d₁ d₂ hlt hd₁ hd₂ hc
        rcases h5 _ _ _ _ (mem_validCodes_byte d₁ hd₁) (mem_validCodes_byte d₂ hd₂) hlt (clash_iff.mpr hc) with h6 | ⟨h6, h7⟩
        · left; rw [hto _ hb₁]; exact h6
        · right; exact ⟨BitVec.eq_of_toNat_eq (by rw [hto _ hb₁]; exact h6), by rw [hto _ hb₂]; exact h7⟩
      · simp only [hof _ hb₁, hof _ hb₂]

end Sys2Proof.Machine
end

