-- ==== Sys2Proof/Laws/Memory.lean ====
section
/-! SUPPORT. The laws of the byte buffers: read after write, other bytes untouched, the canonical form kept. -/

namespace Sys2Proof.Machine

theorem lookupCell_insertCell (cells : List Host.Cell) (a b : Nat) (v : Byte) :
    lookupCell (insertCell cells a v) b = if b = a then some v else lookupCell cells b := by
  induction cells with
  | nil => simp only [insertCell, lookupCell]
  | cons c cells ih =>
    obtain ⟨i, w⟩ := c
    simp only [insertCell]
    split
    · simp only [lookupCell]
    · split
      · rename_i h₁ h₂
        subst h₂
        simp only [lookupCell]
        split <;> simp_all
      · simp only [lookupCell, ih]
        split <;> split <;> simp_all

@[simp] theorem Memory.draw_write (m : Memory) (a : Nat) (v : Byte) : (m.write a v).draw = m.draw := rfl

theorem Memory.read_write (m : Memory) (a b : Nat) (v : Byte) :
    (m.write a v).read b = if b = a then v else m.read b := by
  simp only [Memory.read, Memory.write, lookupCell_insertCell]
  split <;> simp

@[simp] theorem Memory.read_write_same (m : Memory) (a : Nat) (v : Byte) : (m.write a v).read a = v := by
  simp [Memory.read_write]

theorem Memory.read_write_other (m : Memory) {a b : Nat} (v : Byte) (h : b ≠ a) :
    (m.write a v).read b = m.read b := by
  simp [Memory.read_write, h]

/-- What a run of bytes written leaves at every index. -/
theorem Memory.read_writeAll (vs : List Byte) (m : Memory) (a b : Nat) :
    (m.writeAll a vs).read b = if a ≤ b then (vs[b - a]?).getD (m.read b) else m.read b := by
  induction vs generalizing m a with
  | nil => simp [Memory.writeAll]
  | cons v vs ih =>
    simp only [Memory.writeAll, ih, Memory.read_write]
    by_cases h : a ≤ b
    · by_cases h₂ : b = a
      · subst h₂; simp
      · obtain ⟨k, rfl⟩ : ∃ k, b = a + 1 + k := ⟨b - (a + 1), by omega⟩
        have h₁ : a + 1 + k - a = k + 1 := by omega
        have h₃ : a + 1 + k - (a + 1) = k := by omega
        simp [h₁, h₃, show ¬ (a + 1 + k = a) by omega, show a ≤ a + 1 + k by omega]
    · simp [h, show ¬ a + 1 ≤ b by omega, show b ≠ a by omega]

theorem Memory.read_writeAll_mem (vs : List Byte) (m : Memory) (a k : Nat) (h : k < vs.length) :
    (m.writeAll a vs).read (a + k) = vs[k] := by
  simp [Memory.read_writeAll, h]

theorem Memory.read_writeAll_outside (vs : List Byte) (m : Memory) (a b : Nat) (h : b < a ∨ a + vs.length ≤ b) :
    (m.writeAll a vs).read b = m.read b := by
  rw [Memory.read_writeAll]
  split
  · rw [List.getElem?_eq_none (by omega)]; rfl
  · rfl

theorem Memory.writeAll_append (us vs : List Byte) (m : Memory) (a : Nat) :
    m.writeAll a (us ++ vs) = (m.writeAll a us).writeAll (a + us.length) vs := by
  induction us generalizing m a with
  | nil => simp [Memory.writeAll]
  | cons u us ih => simp [Memory.writeAll, ih, Nat.add_assoc, Nat.add_comm 1]

theorem Memory.writeAll_snoc (us : List Byte) (v : Byte) (m : Memory) (a : Nat) :
    m.writeAll a (us ++ [v]) = (m.writeAll a us).write (a + us.length) v := by
  simp [Memory.writeAll_append, Memory.writeAll]

@[simp] theorem Memory.draw_writeAll (vs : List Byte) (m : Memory) (a : Nat) : (m.writeAll a vs).draw = m.draw := by
  induction vs generalizing m a with
  | nil => rfl
  | cons v vs ih => simp [Memory.writeAll, ih]

/-- Reading back a run of bytes written. -/
theorem Memory.map_read_writeAll (vs : List Byte) (m : Memory) :
    (List.range vs.length).map (m.writeAll 0 vs).read = vs := by
  apply List.ext_getElem
  · simp
  · intro k h₁ h₂
    have h := Memory.read_writeAll_mem vs m 0 k h₂
    simpa using h

theorem Memory.map_read_writeAll_of_eq (vs : List Byte) (m : Memory) (n : Nat) (h : n = vs.length) :
    (List.range n).map (m.writeAll 0 vs).read = vs := by
  subst h; exact Memory.map_read_writeAll vs m

/-! ### The canonical form -/

theorem risingFrom_mono {lo lo' size : Nat} {cells : List Host.Cell} (h : risingFrom lo size cells = true)
    (hlo : lo' ≤ lo) : risingFrom lo' size cells = true := by
  cases cells with
  | nil => rfl
  | cons c cells =>
    obtain ⟨i, w⟩ := c
    simp only [risingFrom, Bool.and_eq_true, decide_eq_true_eq] at h ⊢
    exact ⟨⟨by omega, h.1.2⟩, h.2⟩

theorem risingFrom_insertCell {lo size a : Nat} {cells : List Host.Cell} (v : Byte)
    (h : risingFrom lo size cells = true) (hlo : lo ≤ a) (ha : a < size) :
    risingFrom lo size (insertCell cells a v) = true := by
  induction cells generalizing lo with
  | nil => simp [insertCell, risingFrom, hlo, ha]
  | cons c cells ih =>
    obtain ⟨i, w⟩ := c
    have h' := h
    simp only [risingFrom, Bool.and_eq_true, decide_eq_true_eq] at h
    simp only [insertCell]
    split
    · simp only [risingFrom, Bool.and_eq_true, decide_eq_true_eq]
      exact ⟨⟨hlo, ha⟩, ⟨by omega, h.1.2⟩, h.2⟩
    · split
      · rename_i h₂
        subst h₂
        simp only [risingFrom, Bool.and_eq_true, decide_eq_true_eq]
        exact ⟨⟨hlo, ha⟩, h.2⟩
      · simp only [risingFrom, Bool.and_eq_true, decide_eq_true_eq]
        exact ⟨h.1, ih h.2 (by omega)⟩

theorem Memory.wf_write {m : Memory} {size a : Nat} (v : Byte) (h : m.wf size = true) (ha : a < size) :
    (m.write a v).wf size = true :=
  risingFrom_insertCell v h (Nat.zero_le a) ha

theorem Memory.wf_writeAll {size : Nat} (vs : List Byte) {m : Memory} {a : Nat} (h : m.wf size = true)
    (ha : a + vs.length ≤ size) : (m.writeAll a vs).wf size = true := by
  induction vs generalizing m a with
  | nil => exact h
  | cons v vs ih =>
    simp only [List.length_cons] at ha
    exact ih (Memory.wf_write v h (by omega)) (by omega)

@[simp] theorem Memory.wf_unspecified (size draw : Nat) : (Memory.unspecified draw).wf size = true := rfl

@[simp] theorem Memory.read_unspecified (draw a : Nat) : (Memory.unspecified draw).read a = Config.freeByte draw a := rfl

theorem State.reset_buffers_wf :
    State.reset.ibuf.wf State.reset.params.ibufSize = true ∧ State.reset.obuf.wf State.reset.params.obufSize = true :=
  ⟨rfl, rfl⟩

end Sys2Proof.Machine
end

