-- ==== Sys2Proof/Laws/Run.lean ====
section
/-! SUPPORT. The laws of a command's run: what `bind`, a check and a completion do. -/

namespace Sys2Proof.Machine

variable {σ : Type}

@[simp] theorem Run.bind_ok (a : σ) (f : σ → Run σ) : (Run.ok a).bind f = f a := rfl

@[simp] theorem Run.bind_raised (r : Raised) (a : σ) (f : σ → Run σ) : (Run.raised r a).bind f = .raised r a := rfl

theorem Run.bind_assoc (m : Run σ) (f g : σ → Run σ) : (m.bind f).bind g = m.bind fun a => (f a).bind g := by
  cases m <;> rfl

@[simp] theorem Run.bind_ok_right (m : Run σ) : m.bind Run.ok = m := by cases m <;> rfl

/-- The first step of a run that reaches its end reached its own end. -/
theorem Run.bind_eq_ok {m : Run σ} {f : σ → Run σ} {b : σ} :
    m.bind f = .ok b ↔ ∃ a, m = .ok a ∧ f a = .ok b := by
  cases m <;> simp

@[simp] theorem require_none (a : σ) : require none a = .ok a := rfl

@[simp] theorem require_some (r : Raised) (a : σ) : require (some r) a = .raised r a := rfl

theorem require_eq_ok {fault : Option Raised} {a b : σ} : require fault a = .ok b ↔ fault = none ∧ a = b := by
  cases fault <;> simp

@[simp] theorem complete_ok (output : Bool) (s : State) : complete output (.ok s) = .next (completeOk s) := rfl

@[simp] theorem complete_raised (output : Bool) (r : Raised) (s : State) :
    complete output (.raised r s) = .next (raiseError output r s) := rfl

/-- Every command completes (R133): the state its completion leaves. -/
theorem complete_next (output : Bool) (m : Run State) : ∃ t, complete output m = .next t := by
  cases m <;> exact ⟨_, rfl⟩

/-- The run of each command (R71, R106). -/
def runOf : Instr → State → Run State
  | .nop, s => .ok s
  | .analyze, s => runAnalyze s
  | .build, s => runBuild s
  | .derive, s => runDerive s
  | .encode, s => runEncode s
  | .encpack, s => runEncpack s
  | .pack, s => runPack s
  | .unpack, s => runUnpack s
  | .decode, s => runDecode s
  | .decompress, s => runDecompress s
  | .compress, s => runCompress s
  | .encodeOnly, s => runEncodeOnly s
  | .reserved w, s => runReserved w s

/-- A command's meaning is its run and the completion of its kind (R113, R114). -/
theorem exec_eq (i : Instr) (s : State) : exec i s = complete (isOutput i) (runOf i s) := by cases i <;> rfl

/-- A command that reaches its end. -/
theorem exec_ok {i : Instr} {s t : State} (h : runOf i s = .ok t) : exec i s = .next (completeOk t) := by
  rw [exec_eq, h, complete_ok]

/-- A command that raises. -/
theorem exec_raised {i : Instr} {s t : State} {r : Raised} (h : runOf i s = .raised r t) :
    exec i s = .next (raiseError (isOutput i) r t) := by
  rw [exec_eq, h, complete_raised]

/-- Every command answers a next state that is IDLE with DONE = 1 (R113, R114). -/
theorem exec_idle (i : Instr) (s : State) : ∃ t, exec i s = .next t ∧ t.phase = .idle ∧ t.done = true := by
  rw [exec_eq]
  cases runOf i s with
  | ok t => exact ⟨_, rfl, rfl, rfl⟩
  | raised r t => exact ⟨_, rfl, rfl, rfl⟩

/-! ### The checks -/

theorem lenFault_none {s : State} (h : s.inLen.toNat ≤ s.params.ibufSize) : lenFault s = none := by
  simp [lenFault, h]

theorem lenFault_some {s : State} (h : s.params.ibufSize < s.inLen.toNat) :
    lenFault s = some { code := .lenRange, index := 0, value := s.inLen } := by
  simp [lenFault, h]

theorem lenFault_eq_none {s : State} : lenFault s = none ↔ s.inLen.toNat ≤ s.params.ibufSize := by
  simp [lenFault]

@[simp] theorem lenFault_clearHidden (s : State) : lenFault (clearHidden s) = lenFault s := rfl
@[simp] theorem message_clearHidden (s : State) : message (clearHidden s) = message s := rfl
@[simp] theorem paddingFault_clearHidden (s : State) : paddingFault (clearHidden s) = paddingFault s := rfl
@[simp] theorem paddingCount_clearHidden (s : State) : paddingCount (clearHidden s) = paddingCount s := rfl
@[simp] theorem length_message (s : State) : (message s).length = s.inLen.toNat := by simp [message]

/-- The output procedures change OBUF and the hidden state, and nothing else. -/
theorem onOut_ok {f : Out → Run Out} {s : State} {o : Out} (h : f { obuf := s.obuf, hidden := s.hidden } = .ok o) :
    onOut f s = .ok { s with obuf := o.obuf, hidden := o.hidden } := by
  simp [onOut, h]

theorem onOut_raised {f : Out → Run Out} {s : State} {r : Raised} {o : Out}
    (h : f { obuf := s.obuf, hidden := s.hidden } = .raised r o) :
    onOut f s = .raised r { s with obuf := o.obuf, hidden := o.hidden } := by
  simp [onOut, h]

theorem onOut_eq_ok {f : Out → Run Out} {s t : State} :
    onOut f s = .ok t ↔
      ∃ o, f { obuf := s.obuf, hidden := s.hidden } = .ok o ∧ t = { s with obuf := o.obuf, hidden := o.hidden } := by
  unfold onOut
  cases h : f { obuf := s.obuf, hidden := s.hidden } <;> simp [eq_comm]

theorem length_dataBytes (s : State) : (dataBytes s).length = s.inLen.toNat - 2 := by
  simp [dataBytes]

end Sys2Proof.Machine
end

