-- ==== Sys2Proof/Laws/Output.lean ====
section
/-! SUPPORT. What the output procedures do (R87 to R89, R96 to R98): one lemma per procedure, and one per loop, for a
run that reaches its end; and what every run, ended or raised, keeps of the buffer. -/

namespace Sys2Proof.Machine

/-- `Emit` below OBUF_SIZE (R87). -/
theorem emit_ok {p : Params} {o : Out} (v : Byte) (i : Nat) (h : o.hidden.outIdx < p.obufSize) :
    emit p v i o = .ok { obuf := o.obuf.write o.hidden.outIdx v
                         hidden := { o.hidden with outIdx := o.hidden.outIdx + 1 } } := by
  simp [emit, h]

/-- `Emit` at OBUF_SIZE (R87). -/
theorem emit_raised {p : Params} {o : Out} (v : Byte) (i : Nat) (h : p.obufSize ≤ o.hidden.outIdx) :
    emit p v i o =
      .raised { code := .obufOverflow, index := BitVec.ofNat 32 i, value := BitVec.ofNat 32 o.hidden.outIdx } o := by
  simp [emit, h]

/-- The output with the current input byte's unconsumed bits replaced. -/
def Out.withInBits (ys : Bits) (o : Out) : Out := { o with hidden := { o.hidden with inBits := ys } }

/-! ### The loops, for a step that goes on

`st D` is the output after the symbols `D`; the step `f` takes `st D` to `st (D ++ [x])` as long as the symbols delivered
are a first part of the string `E`. -/

section Loops

variable {f : Bool → Nat → Out → Run Out} {st : Bits → Out} {E : Bits}

theorem prefix_of_cons {D xs : Bits} {x : Bool} (h : D ++ x :: xs <+: E) : D ++ [x] <+: E ∧ (D ++ [x]) ++ xs <+: E := by
  have h' : (D ++ [x]) ++ xs <+: E := by simpa using h
  exact ⟨(List.prefix_append _ _).trans h', h'⟩

theorem forSymbols_ok (hf : ∀ D x i, D ++ [x] <+: E → f x i (st D) = .ok (st (D ++ [x]))) (i : Nat) (xs D : Bits)
    (h : D ++ xs <+: E) : forSymbols f i xs (st D) = .ok (st (D ++ xs)) := by
  induction xs generalizing D with
  | nil => simp [forSymbols]
  | cons x xs ih =>
    obtain ⟨h₁, h₂⟩ := prefix_of_cons h
    rw [forSymbols, hf D x i h₁, Run.bind_ok, ih (D ++ [x]) h₂]
    simp

theorem forBytes_encode_ok {c : Codes} (hf : ∀ D x i, D ++ [x] <+: E → f x i (st D) = .ok (st (D ++ [x])))
    (i : Nat) (m : List Byte) (D : Bits) (hm : Coded c m) (h : D ++ encodedBits c m <+: E) :
    forBytes (encodeByte c f) i m (st D) = .ok (st (D ++ encodedBits c m)) := by
  induction m generalizing D i with
  | nil => simp [forBytes, encodedBits]
  | cons b m ih =>
    rw [encodedBits_cons, ← List.append_assoc] at h
    have hb : (codeAt c b).valid = true := hm b (by simp)
    rw [forBytes, encodeByte, if_pos hb, forSymbols_ok hf i _ D ((List.prefix_append _ _).trans h), Run.bind_ok,
      ih (i + 1) _ (fun b' h' => hm b' (by simp [h'])) h]
    simp [encodedBits_cons]

theorem forBytes_text_ok (hf : ∀ D x i, D ++ [x] <+: E → f x i (st D) = .ok (st (D ++ [x])))
    (i : Nat) (m : List Byte) (D : Bits) (hm : ∀ c ∈ m, isTextBit c = true) (h : D ++ m.map textSymbol <+: E) :
    forBytes (textInput f) i m (st D) = .ok (st (D ++ m.map textSymbol)) := by
  induction m generalizing D i with
  | nil => simp [forBytes]
  | cons b m ih =>
    obtain ⟨h₁, h₂⟩ := prefix_of_cons h
    have hb : isTextBit b = true := hm b (by simp)
    rw [forBytes, textInput, if_pos hb, hf D _ i h₁, Run.bind_ok, ih (i + 1) _ (fun b' h' => hm b' (by simp [h'])) h₂]
    simp

theorem feedBits_ok
    (hf : ∀ D x i ys, D ++ [x] <+: E → f x i ((st D).withInBits ys) = .ok ((st (D ++ [x])).withInBits ys))
    (i : Nat) (xs D ys : Bits) (h : D ++ xs <+: E) :
    feedBits f i xs ((st D).withInBits ys) = .ok ((st (D ++ xs)).withInBits []) := by
  induction xs generalizing D ys with
  | nil => simp [feedBits, Out.withInBits]
  | cons x xs ih =>
    obtain ⟨h₁, h₂⟩ := prefix_of_cons h
    have h₃ : ({ (st D).withInBits ys with hidden := { ((st D).withInBits ys).hidden with inBits := xs } } : Out)
        = (st D).withInBits xs := rfl
    rw [feedBits, h₃, hf D x i xs h₁, Run.bind_ok, ih (D ++ [x]) xs h₂]
    simp

theorem forBytes_feed_ok
    (hf : ∀ D x i ys, D ++ [x] <+: E → f x i ((st D).withInBits ys) = .ok ((st (D ++ [x])).withInBits ys))
    (i : Nat) (m : List Byte) (D : Bits) (h : D ++ m.flatMap bits8 <+: E) :
    forBytes (fun b i => feedBits f i (bits8 b)) i m ((st D).withInBits [])
      = .ok ((st (D ++ m.flatMap bits8)).withInBits []) := by
  induction m generalizing D i with
  | nil => simp [forBytes]
  | cons b m ih =>
    rw [List.flatMap_cons, ← List.append_assoc] at h
    rw [forBytes, feedBits_ok hf i _ D [] ((List.prefix_append _ _).trans h), Run.bind_ok, ih (i + 1) _ h]
    simp

theorem forPackedBits_ok
    (hf : ∀ D x i ys, D ++ [x] <+: E → f x i ((st D).withInBits ys) = .ok ((st (D ++ [x])).withInBits ys))
    (data : List Byte) (final : Bits) (last : Nat) (D : Bits) (h : D ++ (data.flatMap bits8 ++ final) <+: E) :
    forPackedBits f data final last ((st D).withInBits [])
      = .ok ((st (D ++ (data.flatMap bits8 ++ final))).withInBits []) := by
  rw [← List.append_assoc] at h
  unfold forPackedBits
  rw [forBytes_feed_ok hf 0 data D ((List.prefix_append _ _).trans h), Run.bind_ok, feedBits_ok hf last final _ [] h]
  simp

end Loops

/-! ### The text output (R91, R99) -/

/-- OBUF and the hidden state after the symbols `D` as text bits, `counted` if they are counted too. -/
def textState (m : Memory) (counted : Bool) (D : Bits) : Out :=
  { obuf := m.writeAll 0 (textBits D)
    hidden := { Hidden.empty with outIdx := D.length, nbits := if counted then D.length else 0 } }

theorem emitText_step (p : Params) (m : Memory) (D : Bits) (x : Bool) (i : Nat) (h : D.length + 1 ≤ p.obufSize) :
    emitText p x i (textState m false D) = .ok (textState m false (D ++ [x])) := by
  have h₁ : (textState m false D).hidden.outIdx < p.obufSize := h
  rw [emitText, emit_ok _ _ h₁]
  simp [textState, Memory.writeAll_append, textBits, Memory.writeAll]

theorem emitTextCounted_step (p : Params) (m : Memory) (D : Bits) (x : Bool) (i : Nat) (ys : Bits)
    (h : D.length + 1 ≤ p.obufSize) :
    emitTextCounted p x i ((textState m true D).withInBits ys) = .ok ((textState m true (D ++ [x])).withInBits ys) := by
  have h₁ : ((textState m true D).withInBits ys).hidden.outIdx < p.obufSize := h
  rw [emitTextCounted, emitText, emit_ok _ _ h₁]
  simp [textState, Memory.writeAll_append, textBits, Memory.writeAll, Out.withInBits]

/-! ### The packer (R88 to R90) -/

/-- The full 8-bit groups of a bit string as bytes (R90). -/
def groupBytes (D : Bits) : List Byte := (List.range (D.length / 8)).map fun g => byteOf ((D.drop (8 * g)).take 8)

/-- The remainder after the full groups (R89). -/
def remainder (D : Bits) : Bits := D.drop (8 * (D.length / 8))

/-- OBUF and the hidden state after the symbols `D` have gone through the packer (R88). -/
def packState (m : Memory) (D : Bits) : Out :=
  { obuf := m.writeAll 0 (groupBytes D)
    hidden := { Hidden.empty with outIdx := D.length / 8, acc := remainder D, nbits := D.length } }

@[simp] theorem length_groupBytes (D : Bits) : (groupBytes D).length = D.length / 8 := by simp [groupBytes]

theorem length_remainder (D : Bits) : (remainder D).length = D.length % 8 := by
  simp only [remainder, List.length_drop]; omega

theorem remainder_snoc (D : Bits) (x : Bool) (h : D.length % 8 ≠ 7) : remainder (D ++ [x]) = remainder D ++ [x] := by
  have h₁ : (D.length + 1) / 8 = D.length / 8 := by omega
  simp only [remainder, List.length_append, List.length_cons, List.length_nil, zero_add, h₁]
  rw [List.drop_append_of_le_length (by omega)]

theorem groupBytes_snoc_same (D : Bits) (x : Bool) (h : D.length % 8 ≠ 7) : groupBytes (D ++ [x]) = groupBytes D := by
  have h₁ : (D.length + 1) / 8 = D.length / 8 := by omega
  simp only [groupBytes, List.length_append, List.length_cons, List.length_nil, zero_add, h₁]
  apply List.map_congr_left
  intro g hg
  simp only [List.mem_range] at hg
  rw [List.drop_append_of_le_length (by omega), List.take_append_of_le_length (by rw [List.length_drop]; omega)]

theorem groupBytes_snoc_full (D : Bits) (x : Bool) (h : D.length % 8 = 7) :
    groupBytes (D ++ [x]) = groupBytes D ++ [byteOf (remainder D ++ [x])] := by
  have h₁ : (D.length + 1) / 8 = D.length / 8 + 1 := by omega
  simp only [groupBytes, List.length_append, List.length_cons, List.length_nil, zero_add, h₁, List.range_succ,
    List.map_append, List.map_cons, List.map_nil]
  congr 1
  · apply List.map_congr_left
    intro g hg
    simp only [List.mem_range] at hg
    rw [List.drop_append_of_le_length (by omega), List.take_append_of_le_length (by rw [List.length_drop]; omega)]
  · rw [List.drop_append_of_le_length (by omega), List.take_of_length_le]
    · rfl
    · simp only [List.length_append, List.length_drop, List.length_cons, List.length_nil]; omega

theorem remainder_snoc_full (D : Bits) (x : Bool) (h : D.length % 8 = 7) : remainder (D ++ [x]) = [] := by
  apply List.eq_nil_of_length_eq_zero
  rw [length_remainder, List.length_append, List.length_cons, List.length_nil]; omega

theorem packBit_step (p : Params) (m : Memory) (D : Bits) (x : Bool) (i : Nat)
    (h : D.length + 1 ≤ 8 * p.obufSize + 7) :
    packBit p x i (packState m D) = .ok (packState m (D ++ [x])) := by
  have hl := length_remainder D
  by_cases h₈ : D.length % 8 = 7
  · have hlen : (remainder D ++ [x]).length = 8 := by simp [hl, h₈]
    have h₁ : (packState m D).hidden.outIdx < p.obufSize := by simp only [packState]; omega
    have h₂ : (D.length + 1) / 8 = D.length / 8 + 1 := by omega
    unfold packBit
    rw [if_pos (show ((packState m D).hidden.acc ++ [x]).length = 8 from hlen), emit_ok _ _ (by exact h₁)]
    simp [packState, groupBytes_snoc_full D x h₈, remainder_snoc_full D x h₈, Memory.writeAll_snoc, h₂]
  · have hlen : (remainder D ++ [x]).length ≠ 8 := by
      rw [List.length_append, hl, List.length_cons, List.length_nil]; omega
    have h₂ : (D.length + 1) / 8 = D.length / 8 := by omega
    unfold packBit
    rw [if_neg (show ¬ ((packState m D).hidden.acc ++ [x]).length = 8 from hlen)]
    simp [packState, groupBytes_snoc_same D x h₈, remainder_snoc D x h₈, h₂]

/-- PackedBytes in terms of the groups and the remainder (R90). -/
theorem packedBytes_eq (D : Bits) :
    packedBytes D = groupBytes D ++
      [BitVec.ofNat 8 (padCount (remainder D)), byteOf (remainder D ++ zeros (padCount (remainder D)))] := by
  simp [packedBytes, groupBytes, remainder, packPadding, padCount,
    show D.length - 8 * (D.length / 8) = D.length % 8 by omega]

theorem length_packedBytes (D : Bits) : (packedBytes D).length = D.length / 8 + 2 := by
  simp [packedBytes_eq]

/-- The trailer after the symbols `D` (R89). -/
theorem packFinish_ok (p : Params) (m : Memory) (D : Bits) (i : Nat) (h : D.length / 8 + 2 ≤ p.obufSize) :
    packFinish p i (packState m D) =
      .ok { obuf := m.writeAll 0 (packedBytes D)
            hidden := { Hidden.empty with outIdx := D.length / 8 + 2, acc := remainder D, nbits := D.length } } := by
  unfold packFinish
  rw [emit_ok _ _ (show (packState m D).hidden.outIdx < p.obufSize from by simp only [packState]; omega), Run.bind_ok,
    emit_ok _ _ (by simp only [packState]; omega)]
  simp [packState, packedBytes_eq, Memory.writeAll_append, Memory.writeAll]

end Sys2Proof.Machine
end

