-- ==== Sys2Proof/Laws/Decoder.lean ====
section
/-! SUPPORT. What the decoder does (R97): the bytes matched so far and the accumulator, as a function of the symbols
delivered, and that it returns the message from the concatenation of its codes. -/

namespace Sys2Proof.Machine

/-- One symbol through the decoder, as bytes matched and accumulator. -/
def matchStep (c : Codes) (t : List Byte × Bits) (x : Bool) : List Byte × Bits :=
  match ringLookup c (t.2 ++ [x]) with
  | some b => (t.1 ++ [b], [])
  | none => (t.1, t.2 ++ [x])

/-- The bytes matched and the accumulator after the symbols `D`, as long as the accumulator does not overflow. -/
def matched (c : Codes) (D : Bits) : List Byte × Bits := D.foldl (matchStep c) ([], [])

@[simp] theorem matched_nil (c : Codes) : matched c [] = ([], []) := rfl

theorem matched_snoc (c : Codes) (D : Bits) (x : Bool) : matched c (D ++ [x]) = matchStep c (matched c D) x := by
  simp [matched]

/-- OBUF and the hidden state after the symbols `D`, `counted` if they are counted too (R97, R101). -/
def decodeState (c : Codes) (m : Memory) (counted : Bool) (D : Bits) : Out :=
  { obuf := m.writeAll 0 (matched c D).1
    hidden := { Hidden.empty with
      outIdx := (matched c D).1.length, dacc := (matched c D).2, nbits := if counted then D.length else 0 } }

/-- One symbol through the decoder while the accumulator has room and OBUF has room for a byte (R97). -/
theorem decodeBit_step (p : Params) (c : Codes) (m : Memory) (D : Bits) (x : Bool) (i : Nat)
    (h₁ : (matched c D).2.length < 255) (h₂ : (matched c (D ++ [x])).1.length ≤ p.obufSize) :
    decodeBit p c x i (decodeState c m false D) = .ok (decodeState c m false (D ++ [x])) := by
  unfold decodeBit
  rw [if_neg (show ¬ (decodeState c m false D).hidden.dead = true from by simp [decodeState, Hidden.empty]),
    if_neg (show ¬ (decodeState c m false D).hidden.dacc.length = Config.maxCodeLen from by
      simp only [decodeState, Config.maxCodeLen]; omega)]
  rw [matched_snoc] at h₂
  unfold matchStep at h₂
  simp only [show (decodeState c m false D).hidden.dacc = (matched c D).2 from rfl]
  cases hl : ringLookup c ((matched c D).2 ++ [x]) with
  | some b =>
    simp only [hl, List.length_append, List.length_cons, List.length_nil] at h₂
    simp only []
    rw [emit_ok _ _ (show _ < _ from by simp only [decodeState]; omega)]
    simp [decodeState, matched_snoc, matchStep, hl, Memory.writeAll_snoc]
  | none => simp [decodeState, matched_snoc, matchStep, hl]

theorem decodeBitCounted_step (p : Params) (c : Codes) (m : Memory) (D : Bits) (x : Bool) (i : Nat) (ys : Bits)
    (h₁ : (matched c D).2.length < 255) (h₂ : (matched c (D ++ [x])).1.length ≤ p.obufSize) :
    decodeBitCounted p c x i ((decodeState c m true D).withInBits ys)
      = .ok ((decodeState c m true (D ++ [x])).withInBits ys) := by
  unfold decodeBitCounted decodeBit
  rw [if_neg (show ¬ _ = true from by simp [decodeState, Out.withInBits, Hidden.empty]),
    if_neg (show ¬ _ = Config.maxCodeLen from by
      simp only [decodeState, Out.withInBits, Config.maxCodeLen]; omega)]
  rw [matched_snoc] at h₂
  unfold matchStep at h₂
  simp only [show ((decodeState c m true D).withInBits ys).hidden.dacc = (matched c D).2 from rfl]
  cases hl : ringLookup c ((matched c D).2 ++ [x]) with
  | some b =>
    simp only [hl, List.length_append, List.length_cons, List.length_nil] at h₂
    simp only []
    rw [emit_ok _ _ (show _ < _ from by simp only [decodeState, Out.withInBits]; omega)]
    simp [decodeState, Out.withInBits, matched_snoc, matchStep, hl, Memory.writeAll_snoc]
  | none => simp [decodeState, Out.withInBits, matched_snoc, matchStep, hl]

/-- A proper first part of a code goes into the accumulator whole (R86). -/
theorem matched_part {c : Codes} (hc : PrefixFree c) {b : Byte} (hv : (codeAt c b).valid = true) {D : Bits}
    {bs : List Byte} (hD : matched c D = (bs, [])) (s t : Bits) (hst : (codeAt c b).symbols = s ++ t) (ht : t ≠ []) :
    matched c (D ++ s) = (bs, s) := by
  induction s using List.reverseRecOn generalizing t with
  | nil => simpa using hD
  | append_singleton s x ih =>
    have hst' : (codeAt c b).symbols = s ++ (x :: t) := by simpa using hst
    rw [← List.append_assoc, matched_snoc, ih (x :: t) hst' (by simp), matchStep,
      ringLookup_proper hc hv hst ht]

/-- A whole code gives its byte and empties the accumulator (R86, R97). -/
theorem matched_code {c : Codes} (hc : PrefixFree c) {b : Byte} (hv : (codeAt c b).valid = true) {D : Bits}
    {bs : List Byte} (hD : matched c D = (bs, [])) : matched c (D ++ (codeAt c b).symbols) = (bs ++ [b], []) := by
  rcases List.eq_nil_or_concat (codeAt c b).symbols with h | ⟨s, x, h⟩
  · exact absurd h (hc.1 b hv)
  · have h' : (codeAt c b).symbols = s ++ [x] := by simpa using h
    rw [h', ← List.append_assoc, matched_snoc, matched_part hc hv hD s [x] h' (by simp), matchStep]
    simp [← h', ringLookup_code hc hv]

/-- The concatenation of the codes of a message decodes to the message (R111). -/
theorem matched_encoded {c : Codes} (hc : PrefixFree c) {m : List Byte} (hm : Coded c m) {D : Bits} {bs : List Byte}
    (hD : matched c D = (bs, [])) : matched c (D ++ encodedBits c m) = (bs ++ m, []) := by
  induction m generalizing D bs with
  | nil => simpa [encodedBits] using hD
  | cons b m ih =>
    have h := matched_code hc (hm b (by simp)) hD
    rw [encodedBits_cons, ← List.append_assoc, ih (fun b' h' => hm b' (by simp [h'])) h]
    simp

theorem prefix_append_cases {D A B : Bits} (h : D <+: A ++ B) : D <+: A ∨ ∃ D', D = A ++ D' ∧ D' <+: B := by
  rcases List.prefix_or_prefix_of_prefix h (List.prefix_append A B) with h' | ⟨D', rfl⟩
  · exact .inl h'
  · exact .inr ⟨D', rfl, (List.prefix_append_right_inj A).mp h⟩

/-- Along the concatenation of codes the accumulator is always a proper first part of a code, and the bytes matched
are a first part of the message. -/
theorem matched_along {c : Codes} (hc : PrefixFree c) {m : List Byte} (hm : Coded c m) {D₀ : Bits} {bs : List Byte}
    (hD₀ : matched c D₀ = (bs, [])) {D : Bits} (h : D <+: encodedBits c m) :
    (D = encodedBits c m ∨ (matched c (D₀ ++ D)).2.length < 255) ∧
      (matched c (D₀ ++ D)).1.length ≤ bs.length + m.length := by
  induction m generalizing D D₀ bs with
  | nil =>
    have hD : D = [] := by simpa [encodedBits] using h
    subst hD
    simp [encodedBits, hD₀]
  | cons b m ih =>
    have hv := hm b (by simp)
    rw [encodedBits_cons] at h ⊢
    rcases prefix_append_cases h with h | ⟨D', rfl, h'⟩
    · by_cases he : D = (codeAt c b).symbols
      · subst he
        rw [matched_code hc hv hD₀]
        simp
      · obtain ⟨t, ht⟩ := h
        have ht' : t ≠ [] := by rintro rfl; exact he (by simpa using ht)
        rw [matched_part hc hv hD₀ D t ht.symm ht']
        have hlen : (codeAt c b).symbols.length = D.length + t.length := by rw [← ht, List.length_append]
        rw [CodeEntry.length_symbols] at hlen
        have hb := (codeAt c b).len.isLt
        have ht₁ : 0 < t.length := List.length_pos_iff.mpr ht'
        exact ⟨.inr (by simp only; omega), by simp⟩
    · have h₁ := matched_code hc hv hD₀
      have h₂ := ih (fun b' hb => hm b' (by simp [hb])) h₁ h'
      rw [List.append_assoc] at h₂
      refine ⟨?_, ?_⟩
      · rcases h₂.1 with rfl | h₃
        · exact .inl rfl
        · exact .inr h₃
      · have := h₂.2
        simp only [List.length_append, List.length_cons, List.length_nil] at this ⊢
        omega

/-- The step of the decoder on a string of codes (R97, R111). -/
theorem decode_along {c : Codes} (hc : PrefixFree c) {m : List Byte} (hm : Coded c m) {size : Nat} (hs : m.length ≤ size)
    (D : Bits) (x : Bool) (h : D ++ [x] <+: encodedBits c m) :
    (matched c D).2.length < 255 ∧ (matched c (D ++ [x])).1.length ≤ size := by
  have h₁ := matched_along hc hm (matched_nil c) h
  have h₂ := matched_along hc hm (matched_nil c) ((List.prefix_append D [x]).trans h)
  simp only [List.nil_append, List.length_nil, zero_add] at h₁ h₂
  refine ⟨?_, by omega⟩
  rcases h₂.1 with rfl | h₃
  · have := h.length_le
    simp at this
  · exact h₃

end Sys2Proof.Machine
end

