-- ==== Sys2Proof/Laws/Keeps.lean ====
section
/-! SUPPORT. What every run of an output procedure keeps, whatever its data: an invariant of OBUF and the hidden state
on the way to its end, and the errors it can raise. -/

namespace Sys2Proof.Machine

variable {σ : Type}

/-- A run that reaches its end does so in a state with `I`. -/
def Run.Ends (I : σ → Prop) (m : Run σ) : Prop := ∀ a, m = .ok a → I a

/-- Whatever a run raises has one of these codes. -/
def Run.Raises (codes : List ErrCode) (m : Run σ) : Prop := ∀ r a, m = .raised r a → r.code ∈ codes

theorem Run.Ends.bind {I J : σ → Prop} {m : Run σ} {f : σ → Run σ} (hm : m.Ends I)
    (hf : ∀ a, I a → (f a).Ends J) : (m.bind f).Ends J := by
  intro b hb
  obtain ⟨a, ha, hfa⟩ := Run.bind_eq_ok.mp hb
  exact hf a (hm a ha) b hfa

theorem Run.Ends.ok {I : σ → Prop} {a : σ} (h : I a) : (Run.ok a).Ends I := by
  intro b hb; cases hb; exact h

theorem Run.Ends.raised {I : σ → Prop} {r : Raised} {a : σ} : (Run.raised r a).Ends I := by
  intro b hb; cases hb

theorem Run.Raises.bind {codes : List ErrCode} {m : Run σ} {f : σ → Run σ} (hm : m.Raises codes)
    (hf : ∀ a, (f a).Raises codes) : (m.bind f).Raises codes := by
  intro r a h
  cases m with
  | ok b => exact hf b r a h
  | raised r' b => exact hm r a h

theorem Run.Raises.ok {codes : List ErrCode} {a : σ} : (Run.ok a).Raises codes := by
  intro r b h; cases h

theorem Run.Raises.raised {codes : List ErrCode} {r : Raised} {a : σ} (h : r.code ∈ codes) :
    (Run.raised r a).Raises codes := by
  intro r' b h'; cases h'; exact h

theorem Run.Raises.mono {codes codes' : List ErrCode} {m : Run σ} (h : m.Raises codes) (hs : codes ⊆ codes') :
    m.Raises codes' := fun r a e => hs (h r a e)

/-! ### The loops -/

section Loops

variable {f : Bool → Nat → Out → Run Out} {g : Byte → Nat → Out → Run Out} {I : Out → Prop} {codes : List ErrCode}

theorem forSymbols_ends (hf : ∀ x i o, I o → (f x i o).Ends I) (i : Nat) (xs : Bits) (o : Out) (h : I o) :
    (forSymbols f i xs o).Ends I := by
  induction xs generalizing o with
  | nil => exact .ok h
  | cons x xs ih => exact (hf x i o h).bind fun a ha => ih a ha

theorem forSymbols_raises (hf : ∀ x i o, (f x i o).Raises codes) (i : Nat) (xs : Bits) (o : Out) :
    (forSymbols f i xs o).Raises codes := by
  induction xs generalizing o with
  | nil => exact .ok
  | cons x xs ih => exact (hf x i o).bind ih

theorem forBytes_ends (hg : ∀ b i o, I o → (g b i o).Ends I) (i : Nat) (m : List Byte) (o : Out) (h : I o) :
    (forBytes g i m o).Ends I := by
  induction m generalizing i o with
  | nil => exact .ok h
  | cons b m ih => exact (hg b i o h).bind fun a ha => ih (i + 1) a ha

theorem forBytes_raises (hg : ∀ b i o, (g b i o).Raises codes) (i : Nat) (m : List Byte) (o : Out) :
    (forBytes g i m o).Raises codes := by
  induction m generalizing i o with
  | nil => exact .ok
  | cons b m ih => exact (hg b i o).bind fun a => ih (i + 1) a

theorem encodeByte_ends (c : Codes) (hf : ∀ x i o, I o → (f x i o).Ends I) (b : Byte) (i : Nat) (o : Out) (h : I o) :
    (encodeByte c f b i o).Ends I := by
  unfold encodeByte
  split
  · exact forSymbols_ends hf i _ o h
  · exact .raised

theorem encodeByte_raises (c : Codes) (hf : ∀ x i o, (f x i o).Raises codes) (hu : .unknownSymbol ∈ codes) (b : Byte)
    (i : Nat) (o : Out) : (encodeByte c f b i o).Raises codes := by
  unfold encodeByte
  split
  · exact forSymbols_raises hf i _ o
  · exact .raised hu

/-- A message every byte of which has a code raises no UNKNOWN_SYMBOL. -/
theorem forBytes_encode_raises {c : Codes} {m : List Byte} (hm : Coded c m) (hf : ∀ x i o, (f x i o).Raises codes)
    (i : Nat) (o : Out) : (forBytes (encodeByte c f) i m o).Raises codes := by
  induction m generalizing i o with
  | nil => exact .ok
  | cons b m ih =>
    refine Run.Raises.bind ?_ fun a => ih (fun b' h => hm b' (by simp [h])) (i + 1) a
    rw [encodeByte, if_pos (hm b (by simp))]
    exact forSymbols_raises hf i _ o

theorem textInput_ends (hf : ∀ x i o, I o → (f x i o).Ends I) (b : Byte) (i : Nat) (o : Out) (h : I o) :
    (textInput f b i o).Ends I := by
  unfold textInput
  split
  · exact hf _ i o h
  · exact .raised

theorem textInput_raises (hf : ∀ x i o, (f x i o).Raises codes) (hu : .badBitchar ∈ codes) (b : Byte) (i : Nat)
    (o : Out) : (textInput f b i o).Raises codes := by
  unfold textInput
  split
  · exact hf _ i o
  · exact .raised hu

theorem feedBits_ends (hf : ∀ x i o, I o → (f x i o).Ends I) (hI : ∀ o ys, I o → I (o.withInBits ys)) (i : Nat)
    (xs : Bits) (o : Out) (h : I o) : (feedBits f i xs o).Ends I := by
  induction xs generalizing o with
  | nil => exact .ok (hI o [] h)
  | cons x xs ih => exact (hf x i _ (hI o xs h)).bind fun a ha => ih a ha

theorem feedBits_raises (hf : ∀ x i o, (f x i o).Raises codes) (i : Nat) (xs : Bits) (o : Out) :
    (feedBits f i xs o).Raises codes := by
  induction xs generalizing o with
  | nil => exact .ok
  | cons x xs ih => exact (hf x i _).bind ih

theorem forPackedBits_ends (hf : ∀ x i o, I o → (f x i o).Ends I) (hI : ∀ o ys, I o → I (o.withInBits ys))
    (data : List Byte) (final : Bits) (last : Nat) (o : Out) (h : I o) : (forPackedBits f data final last o).Ends I :=
  (forBytes_ends (fun b i o ho => feedBits_ends hf hI i (bits8 b) o ho) 0 data o h).bind
    fun a ha => feedBits_ends hf hI last final a ha

theorem forPackedBits_raises (hf : ∀ x i o, (f x i o).Raises codes) (data : List Byte) (final : Bits) (last : Nat)
    (o : Out) : (forPackedBits f data final last o).Raises codes :=
  (forBytes_raises (fun b i o => feedBits_raises hf i (bits8 b) o) 0 data o).bind
    fun a => feedBits_raises hf last final a

end Loops

/-! ### The steps -/

/-- What every output procedure keeps: the output index is at most OBUF_SIZE, OBUF keeps its canonical form and its
draw, and no byte at or beyond the output index has changed. -/
structure Out.Sound (p : Params) (m : Memory) (o : Out) : Prop where
  bound : o.hidden.outIdx ≤ p.obufSize
  canonical : m.wf p.obufSize = true → o.obuf.wf p.obufSize = true
  draw : o.obuf.draw = m.draw
  beyond : ∀ a, o.hidden.outIdx ≤ a → o.obuf.read a = m.read a

theorem Out.Sound.withInBits {p : Params} {m : Memory} (o : Out) (ys : Bits) (h : o.Sound p m) :
    (o.withInBits ys).Sound p m := ⟨h.bound, h.canonical, h.draw, h.beyond⟩

theorem emit_ends {p : Params} {m : Memory} (v : Byte) (i : Nat) (o : Out) (h : o.Sound p m) :
    (emit p v i o).Ends (Out.Sound p m) := by
  unfold emit
  split
  · exact .raised
  · rename_i hlt
    refine .ok ⟨by simp only; omega, fun hm => ?_, h.draw, fun a ha => ?_⟩
    · exact Memory.wf_write v (h.canonical hm) (by omega)
    · simp only at ha
      simp only [Memory.read_write_other _ v (show a ≠ o.hidden.outIdx by omega)]
      exact h.beyond a (by omega)

theorem emit_raises (p : Params) (v : Byte) (i : Nat) (o : Out) : (emit p v i o).Raises [.obufOverflow] := by
  unfold emit
  split
  · exact .raised (by simp)
  · exact .ok

theorem emitText_ends {p : Params} {m : Memory} (x : Bool) (i : Nat) (o : Out) (h : o.Sound p m) :
    (emitText p x i o).Ends (Out.Sound p m) := emit_ends _ i o h

theorem emitTextCounted_ends {p : Params} {m : Memory} (x : Bool) (i : Nat) (o : Out) (h : o.Sound p m) :
    (emitTextCounted p x i o).Ends (Out.Sound p m) :=
  (emitText_ends x i o h).bind fun _ ha => .ok ⟨ha.bound, ha.canonical, ha.draw, ha.beyond⟩

theorem emitTextCounted_raises (p : Params) (x : Bool) (i : Nat) (o : Out) :
    (emitTextCounted p x i o).Raises [.obufOverflow] :=
  (emit_raises p _ i o).bind fun _ => .ok

theorem packBit_ends {p : Params} {m : Memory} (x : Bool) (i : Nat) (o : Out) (h : o.Sound p m) :
    (packBit p x i o).Ends (Out.Sound p m) := by
  unfold packBit
  simp only
  split
  · refine Run.Ends.bind (emit_ends (m := m) _ i _ ?_) fun _ ha => .ok ?_
    · exact ⟨h.bound, h.canonical, h.draw, h.beyond⟩
    · exact ⟨ha.bound, ha.canonical, ha.draw, ha.beyond⟩
  · exact .ok ⟨h.bound, h.canonical, h.draw, h.beyond⟩

theorem packBit_raises (p : Params) (x : Bool) (i : Nat) (o : Out) : (packBit p x i o).Raises [.obufOverflow] := by
  unfold packBit
  simp only
  split
  · exact (emit_raises p _ i _).bind fun _ => .ok
  · exact .ok

theorem packFinish_ends {p : Params} {m : Memory} (i : Nat) (o : Out) (h : o.Sound p m) :
    (packFinish p i o).Ends (Out.Sound p m) :=
  (emit_ends _ i o h).bind fun a ha => emit_ends _ i a ha

theorem packFinish_raises (p : Params) (i : Nat) (o : Out) : (packFinish p i o).Raises [.obufOverflow] :=
  (emit_raises p _ i o).bind fun a => emit_raises p _ i a

theorem decodeBit_ends {p : Params} {m : Memory} (c : Codes) (x : Bool) (i : Nat) (o : Out) (h : o.Sound p m) :
    (decodeBit p c x i o).Ends (Out.Sound p m) := by
  unfold decodeBit
  split
  · exact .ok h
  · split
    · exact .ok ⟨h.bound, h.canonical, h.draw, h.beyond⟩
    · simp only
      split
      · refine Run.Ends.bind (emit_ends (m := m) _ i _ ?_) fun _ ha => .ok ?_
        · exact ⟨h.bound, h.canonical, h.draw, h.beyond⟩
        · exact ⟨ha.bound, ha.canonical, ha.draw, ha.beyond⟩
      · exact .ok ⟨h.bound, h.canonical, h.draw, h.beyond⟩

theorem decodeBit_raises (p : Params) (c : Codes) (x : Bool) (i : Nat) (o : Out) :
    (decodeBit p c x i o).Raises [.obufOverflow] := by
  unfold decodeBit
  split
  · exact .ok
  · split
    · exact .ok
    · simp only
      split
      · exact (emit_raises p _ i _).bind fun _ => .ok
      · exact .ok

theorem decodeBitCounted_ends {p : Params} {m : Memory} (c : Codes) (x : Bool) (i : Nat) (o : Out)
    (h : o.Sound p m) : (decodeBitCounted p c x i o).Ends (Out.Sound p m) :=
  decodeBit_ends c x i _ ⟨h.bound, h.canonical, h.draw, h.beyond⟩

theorem decodeBitCounted_raises (p : Params) (c : Codes) (x : Bool) (i : Nat) (o : Out) :
    (decodeBitCounted p c x i o).Raises [.obufOverflow] := decodeBit_raises p c x i _

/-- The start of an output command is sound. -/
theorem Out.sound_start (p : Params) (m : Memory) : Out.Sound p m { obuf := m, hidden := Hidden.empty } :=
  ⟨Nat.zero_le _, id, rfl, fun _ _ => rfl⟩

end Sys2Proof.Machine
end

