-- ==== Sys2Proof/Laws/Commands.lean ====
section
/-! SUPPORT. What each command's run can do, once per command: the state a run that reached its end left, the errors a
run can raise and the state they leave, and what the run does on data that raise nothing. -/

namespace Sys2Proof.Machine

/-! ### The output commands -/

/-- What the run of one of the six single output commands can do: reach its end having changed OBUF, the hidden state,
OUT_LEN, BIT_LEN and PAD alone; or raise one of the codes having changed OBUF and the hidden state alone. -/
structure OutputRun (s : State) (codes : List ErrCode) (m : Run State) : Prop where
  ends : ∀ t, m = .ok t → ∃ (o : Out) (bitLen : Word) (pad : BitVec 4), o.Sound s.params s.obuf ∧ pad.toNat ≤ 8 ∧
    t = { s with
      obuf := o.obuf, hidden := o.hidden
      outLen := BitVec.ofNat 32 o.hidden.outIdx, bitLen := bitLen, pad := pad }
  raised : ∀ r t, m = .raised r t → r.code ∈ codes ∧ ∃ o : Out, t = { s with obuf := o.obuf, hidden := o.hidden }

theorem OutputRun.of_require {s : State} {codes : List ErrCode} {fault : Option Raised} {f : State → Run State}
    (hc : ∀ r, fault = some r → r.code ∈ codes) (hf : fault = none → OutputRun s codes (f (clearHidden s))) :
    OutputRun s codes ((require fault (clearHidden s)).bind f) := by
  cases fault with
  | none => exact hf rfl
  | some r =>
    refine ⟨fun t h => (by simp at h), fun r' t h => ?_⟩
    simp only [require_some, Run.bind_raised, Run.raised.injEq] at h
    obtain ⟨rfl, rfl⟩ := h
    exact ⟨hc r rfl, { obuf := s.obuf, hidden := Hidden.empty }, rfl⟩

/-- The output procedures between the checks and the result registers. -/
theorem OutputRun.of_out {s : State} {codes : List ErrCode} {f : Out → Run Out} {g : State → Run State}
    (h₁ : (f { obuf := s.obuf, hidden := Hidden.empty }).Ends (Out.Sound s.params s.obuf))
    (h₂ : (f { obuf := s.obuf, hidden := Hidden.empty }).Raises codes)
    (h₃ : ∀ o : Out, o.Sound s.params s.obuf → OutputRun s codes (g { s with obuf := o.obuf, hidden := o.hidden })) :
    OutputRun s codes ((onOut f (clearHidden s)).bind g) := by
  have hf : f { obuf := (clearHidden s).obuf, hidden := (clearHidden s).hidden }
      = f { obuf := s.obuf, hidden := Hidden.empty } := rfl
  cases h : f { obuf := s.obuf, hidden := Hidden.empty } with
  | ok o => rw [onOut_ok (hf.trans h), Run.bind_ok]; exact h₃ o (h₁ o h)
  | raised r o =>
    rw [onOut_raised (hf.trans h), Run.bind_raised]
    refine ⟨fun t h => (by simp at h), fun r' t h' => ?_⟩
    cases h'
    exact ⟨h₂ r o h, o, rfl⟩

theorem lenFault_code {s : State} {r : Raised} (h : lenFault s = some r) : r.code = .lenRange := by
  unfold lenFault at h; split at h <;> cases h; rfl

theorem paddingFault_code {s : State} {r : Raised} (h : paddingFault s = some r) : r.code = .corruptPadding := by
  unfold paddingFault at h
  split at h
  · cases h; rfl
  · split at h <;> cases h; rfl

theorem decodeFault_code {i : Word} {hid : Hidden} {r : Raised} (h : decodeFault i hid = some r) :
    r.code = .incompleteCode := by
  unfold decodeFault at h
  split at h
  · cases h; rfl
  · split at h <;> cases h; rfl

/-- The result registers written at the end (R27 to R29). -/
theorem OutputRun.of_result {s : State} {codes : List ErrCode} {o : Out} {bitLen pad : Nat} (ho : o.Sound s.params s.obuf)
    (hp : pad ≤ 8) :
    OutputRun s codes (.ok (setResult o.hidden.outIdx bitLen pad { s with obuf := o.obuf, hidden := o.hidden })) := by
  refine ⟨fun t h => ?_, fun r t h => (by simp at h)⟩
  cases h
  exact ⟨o, BitVec.ofNat 32 bitLen, BitVec.ofNat 4 pad, ho, by rw [BitVec.toNat_ofNat]; omega, rfl⟩

/-- The final check of the decoder (R98). -/
theorem OutputRun.of_decodeFault {s : State} {codes : List ErrCode} {o : Out} {i : Word} {g : State → Run State}
    (hc : .incompleteCode ∈ codes)
    (h : OutputRun s codes (g { s with obuf := o.obuf, hidden := o.hidden })) :
    OutputRun s codes ((require (decodeFault i o.hidden) { s with obuf := o.obuf, hidden := o.hidden }).bind g) := by
  cases hd : decodeFault i o.hidden with
  | none => exact h
  | some r =>
    refine ⟨fun t h => (by simp at h), fun r' t h' => ?_⟩
    cases h'
    exact ⟨by rw [decodeFault_code hd]; exact hc, o, rfl⟩

theorem padCount_le (acc : Bits) : padCount acc ≤ 8 := by simp [padCount]

theorem paddingCount_le {s : State} (h : paddingFault s = none) : paddingCount s ≤ 8 := by
  unfold paddingFault at h
  split at h
  · cases h
  · split at h
    · cases h
    · omega

theorem runEncode_spec (s : State) :
    OutputRun s [.lenRange, .ringInvalid, .unknownSymbol, .obufOverflow] (runEncode s) := by
  refine .of_require (fun r h => by simp [lenFault_code h]) fun _ => ?_
  refine .of_require (fun r h => by simp [codebookFault_code h]) fun _ => ?_
  refine .of_out ?_ ?_ fun o ho => .of_result ho (by simp)
  · exact forBytes_ends (encodeByte_ends _ emitText_ends) _ _ _ (Out.sound_start _ _)
  · refine forBytes_raises (encodeByte_raises _ (fun x i o => ?_) (by simp)) _ _ _
    exact (emit_raises _ _ i o).mono (by simp)

theorem runEncpack_spec (s : State) :
    OutputRun s [.lenRange, .ringInvalid, .unknownSymbol, .obufOverflow] (runEncpack s) := by
  refine .of_require (fun r h => by simp [lenFault_code h]) fun _ => ?_
  refine .of_require (fun r h => by simp [codebookFault_code h]) fun _ => ?_
  refine .of_out ?_ ?_ fun o ho => .of_result ho (padCount_le _)
  · exact (forBytes_ends (encodeByte_ends _ packBit_ends) _ _ _ (Out.sound_start _ _)).bind
      fun a ha => packFinish_ends _ a ha
  · refine (forBytes_raises (encodeByte_raises _ (fun x i o => ?_) (by simp)) _ _ _).bind fun a => ?_
    · exact (packBit_raises _ x i o).mono (by simp)
    · exact (packFinish_raises _ _ a).mono (by simp)

theorem runPack_spec (s : State) : OutputRun s [.lenRange, .badBitchar, .obufOverflow] (runPack s) := by
  refine .of_require (fun r h => by simp [lenFault_code h]) fun _ => ?_
  refine .of_out ?_ ?_ fun o ho => .of_result ho (padCount_le _)
  · exact (forBytes_ends (textInput_ends packBit_ends) _ _ _ (Out.sound_start _ _)).bind
      fun a ha => packFinish_ends _ a ha
  · refine (forBytes_raises (textInput_raises (fun x i o => ?_) (by simp)) _ _ _).bind fun a => ?_
    · exact (packBit_raises _ x i o).mono (by simp)
    · exact (packFinish_raises _ _ a).mono (by simp)

theorem runUnpack_spec (s : State) : OutputRun s [.lenRange, .corruptPadding, .obufOverflow] (runUnpack s) := by
  refine .of_require (fun r h => by simp [lenFault_code h]) fun _ => ?_
  refine .of_require (fun r h => by simp [paddingFault_code h]) fun hp => ?_
  refine .of_out ?_ ?_ fun o ho => .of_result ho (paddingCount_le (s := s) hp)
  · exact forPackedBits_ends emitTextCounted_ends Out.Sound.withInBits _ _ _ _ (Out.sound_start _ _)
  · refine forPackedBits_raises (fun x i o => ?_) _ _ _ _
    exact (emitTextCounted_raises _ x i o).mono (by simp)

theorem runDecode_spec (s : State) :
    OutputRun s [.lenRange, .ringInvalid, .badBitchar, .obufOverflow, .incompleteCode] (runDecode s) := by
  refine .of_require (fun r h => by simp [lenFault_code h]) fun _ => ?_
  refine .of_require (fun r h => by simp [codebookFault_code h]) fun _ => ?_
  refine .of_out ?_ ?_ fun o ho => .of_decodeFault (by simp) (.of_result ho (by simp))
  · exact forBytes_ends (textInput_ends (decodeBit_ends _)) _ _ _ (Out.sound_start _ _)
  · refine forBytes_raises (textInput_raises (fun x i o => ?_) (by simp)) _ _ _
    exact (decodeBit_raises _ _ x i o).mono (by simp)

theorem runDecompress_spec (s : State) :
    OutputRun s [.lenRange, .corruptPadding, .ringInvalid, .obufOverflow, .incompleteCode] (runDecompress s) := by
  refine .of_require (fun r h => by simp [lenFault_code h]) fun _ => ?_
  refine .of_require (fun r h => by simp [paddingFault_code h]) fun hp => ?_
  refine .of_require (fun r h => by simp [codebookFault_code h]) fun _ => ?_
  refine .of_out ?_ ?_ fun o ho => .of_decodeFault (by simp) (.of_result ho (paddingCount_le (s := s) hp))
  · exact forPackedBits_ends (decodeBitCounted_ends _) Out.Sound.withInBits _ _ _ _ (Out.sound_start _ _)
  · refine forPackedBits_raises (fun x i o => ?_) _ _ _ _
    exact (decodeBitCounted_raises _ _ x i o).mono (by simp)

/-! ### The output commands on data that raise nothing -/

/-- ENCODE of a coded message that fits OBUF (R91). -/
theorem runEncode_ok {s : State} (h₁ : s.inLen.toNat ≤ s.params.ibufSize) (h₂ : PrefixFree s.code)
    (h₃ : Coded s.code (message s)) (h₄ : (encodedBits s.code (message s)).length ≤ s.params.obufSize) :
    ∃ hid, runEncode s = .ok (setResult (encodedBits s.code (message s)).length (encodedBits s.code (message s)).length 0
      { s with obuf := s.obuf.writeAll 0 (textBits (encodedBits s.code (message s))), hidden := hid }) := by
  have h := forBytes_encode_ok (E := encodedBits s.code (message s)) (st := textState s.obuf false)
    (fun D x i hD => emitText_step s.params s.obuf D x i (by have := hD.length_le; simp at this; omega)) 0 (message s) []
    h₃ (by simp)
  refine ⟨(textState s.obuf false (encodedBits s.code (message s))).hidden, ?_⟩
  rw [runEncode, lenFault_none h₁, require_none, Run.bind_ok]
  simp only [show (clearHidden s).code = s.code from rfl, codebookFault_none.mpr h₂, require_none, Run.bind_ok]
  rw [onOut_ok (show encodeOut (clearHidden s) { obuf := s.obuf, hidden := Hidden.empty } = _ from h), Run.bind_ok]
  simp only [encodeResult, textState, List.nil_append]
  rfl

/-- ENCPACK of a coded message whose PackedBytes fit OBUF (R92). -/
theorem runEncpack_ok {s : State} (h₁ : s.inLen.toNat ≤ s.params.ibufSize) (h₂ : PrefixFree s.code)
    (h₃ : Coded s.code (message s))
    (h₄ : (encodedBits s.code (message s)).length / 8 + 2 ≤ s.params.obufSize) :
    ∃ hid, runEncpack s = .ok (setResult ((encodedBits s.code (message s)).length / 8 + 2)
      (encodedBits s.code (message s)).length (packPadding (encodedBits s.code (message s)).length)
      { s with obuf := s.obuf.writeAll 0 (packedBytes (encodedBits s.code (message s))), hidden := hid }) := by
  have h := forBytes_encode_ok (E := encodedBits s.code (message s)) (st := packState s.obuf)
    (fun D x i hD => packBit_step s.params s.obuf D x i (by have := hD.length_le; simp at this; omega)) 0 (message s) []
    h₃ (by simp)
  refine ⟨{ Hidden.empty with
    outIdx := (encodedBits s.code (message s)).length / 8 + 2
    acc := remainder (encodedBits s.code (message s))
    nbits := (encodedBits s.code (message s)).length }, ?_⟩
  rw [runEncpack, lenFault_none h₁, require_none, Run.bind_ok]
  simp only [show (clearHidden s).code = s.code from rfl, codebookFault_none.mpr h₂, require_none, Run.bind_ok]
  have h' : encpackOut (clearHidden s) (packState s.obuf []) = _ :=
    (congrArg (fun r => Run.bind r (packFinish s.params s.inLen.toNat)) h).trans
      (packFinish_ok s.params s.obuf _ _ h₄)
  rw [onOut_ok h', Run.bind_ok]
  simp only [packResult, padCount, length_remainder, packPadding]
  rfl

/-- PACK of text bits whose PackedBytes fit OBUF (R93). -/
theorem runPack_ok {s : State} {E : Bits} (h₁ : s.inLen.toNat ≤ s.params.ibufSize) (h₂ : message s = textBits E)
    (h₄ : E.length / 8 + 2 ≤ s.params.obufSize) :
    ∃ hid, runPack s = .ok (setResult (E.length / 8 + 2) E.length (packPadding E.length)
      { s with obuf := s.obuf.writeAll 0 (packedBytes E), hidden := hid }) := by
  have hE : (textBits E).map textSymbol = E := map_textSymbol_textBits E
  have h := forBytes_text_ok (E := E) (st := packState s.obuf)
    (fun D x i hD => packBit_step s.params s.obuf D x i (by have := hD.length_le; simp at this; omega)) 0 (textBits E) []
    (isTextBit_of_mem_textBits _) (by simp)
  rw [hE, List.nil_append] at h
  refine ⟨{ Hidden.empty with outIdx := E.length / 8 + 2, acc := remainder E, nbits := E.length }, ?_⟩
  rw [runPack, lenFault_none h₁, require_none, Run.bind_ok]
  rw [← h₂] at h
  have h' : packOut (clearHidden s) (packState s.obuf []) = _ :=
    (congrArg (fun r => Run.bind r (packFinish s.params s.inLen.toNat)) h).trans
      (packFinish_ok s.params s.obuf _ _ h₄)
  rw [onOut_ok h', Run.bind_ok]
  simp only [packResult, padCount, length_remainder, packPadding]
  rfl

/-- UNPACK of PackedBytes whose text bits fit OBUF (R99). -/
theorem runUnpack_ok {s : State} (h₁ : s.inLen.toNat ≤ s.params.ibufSize) (h₂ : paddingFault s = none)
    (h₄ : (packedSymbols s).length ≤ s.params.obufSize) :
    ∃ hid, runUnpack s = .ok (setResult (packedSymbols s).length (packedSymbols s).length (paddingCount s)
      { s with obuf := s.obuf.writeAll 0 (textBits (packedSymbols s)), hidden := hid }) := by
  have h := forPackedBits_ok (E := packedSymbols s) (st := textState s.obuf true)
    (fun D x i ys hD => emitTextCounted_step s.params s.obuf D x i ys (by have := hD.length_le; simp at this; omega))
    (dataBytes s) (finalSymbols s (paddingCount s)) (s.inLen.toNat - 1) [] (by simp [packedSymbols])
  refine ⟨(textState s.obuf true (packedSymbols s)).hidden, ?_⟩
  rw [runUnpack, lenFault_none h₁, require_none, Run.bind_ok, paddingFault_clearHidden, h₂, require_none, Run.bind_ok]
  rw [onOut_ok (show packedInput _ (clearHidden s) { obuf := s.obuf, hidden := Hidden.empty } = _ from h), Run.bind_ok]
  simp only [unpackResult, textState, List.nil_append]
  rfl

/-- DECODE of text bits that are the codes of a message which fits OBUF (R100). -/
theorem runDecode_ok {s : State} {m : List Byte} (h₁ : s.inLen.toNat ≤ s.params.ibufSize) (h₂ : PrefixFree s.code)
    (h₃ : Coded s.code m) (h₄ : message s = textBits (encodedBits s.code m)) (h₅ : m.length ≤ s.params.obufSize) :
    ∃ hid, runDecode s = .ok (setResult m.length s.inLen.toNat 0
      { s with obuf := s.obuf.writeAll 0 m, hidden := hid }) := by
  have h := forBytes_text_ok (E := encodedBits s.code m) (st := decodeState s.code s.obuf false)
    (fun D x i hD => decodeBit_step s.params s.code s.obuf D x i (decode_along h₂ h₃ h₅ D x hD).1
      (decode_along h₂ h₃ h₅ D x hD).2) 0 (textBits (encodedBits s.code m)) [] (isTextBit_of_mem_textBits _) (by simp)
  rw [map_textSymbol_textBits, List.nil_append] at h
  have hm : matched s.code (encodedBits s.code m) = (m, []) := by
    simpa using matched_encoded h₂ h₃ (matched_nil s.code)
  refine ⟨(decodeState s.code s.obuf false (encodedBits s.code m)).hidden, ?_⟩
  rw [runDecode, lenFault_none h₁, require_none, Run.bind_ok]
  simp only [show (clearHidden s).code = s.code from rfl, codebookFault_none.mpr h₂, require_none, Run.bind_ok]
  rw [← h₄] at h
  have h' : decodeOut (clearHidden s) (decodeState s.code s.obuf false []) = _ := h
  rw [onOut_ok h', Run.bind_ok]
  simp only [decodeState, hm]
  rfl

/-- DECOMPRESS of PackedBytes whose symbols are the codes of a message which fits OBUF (R101). -/
theorem runDecompress_ok {s : State} {m : List Byte} (h₁ : s.inLen.toNat ≤ s.params.ibufSize)
    (h₂ : paddingFault s = none) (h₃ : PrefixFree s.code) (h₄ : Coded s.code m)
    (h₅ : packedSymbols s = encodedBits s.code m) (h₆ : m.length ≤ s.params.obufSize) :
    ∃ hid, runDecompress s = .ok (setResult m.length (packedSymbols s).length (paddingCount s)
      { s with obuf := s.obuf.writeAll 0 m, hidden := hid }) := by
  have h := forPackedBits_ok (E := encodedBits s.code m) (st := decodeState s.code s.obuf true)
    (fun D x i ys hD => decodeBitCounted_step s.params s.code s.obuf D x i ys (decode_along h₃ h₄ h₆ D x hD).1
      (decode_along h₃ h₄ h₆ D x hD).2)
    (dataBytes s) (finalSymbols s (paddingCount s)) (s.inLen.toNat - 1) []
    (by rw [← h₅]; simp [packedSymbols])
  have hm : matched s.code (encodedBits s.code m) = (m, []) := by
    simpa using matched_encoded h₃ h₄ (matched_nil s.code)
  refine ⟨(decodeState s.code s.obuf true (encodedBits s.code m)).hidden, ?_⟩
  rw [runDecompress, lenFault_none h₁, require_none, Run.bind_ok, paddingFault_clearHidden, h₂, require_none,
    Run.bind_ok]
  simp only [show (clearHidden s).code = s.code from rfl, codebookFault_none.mpr h₃, require_none, Run.bind_ok]
  rw [onOut_ok (show packedInput _ (clearHidden s) { obuf := s.obuf, hidden := Hidden.empty } = _ from h), Run.bind_ok]
  rw [show [] ++ (List.flatMap bits8 (dataBytes s) ++ finalSymbols s (paddingCount s)) = encodedBits s.code m from h₅]
  simp only [decodeState, hm, h₅]
  rfl

end Sys2Proof.Machine
end

