-- ==== Sys2Proof/Laws/Tree.lean ====
section
/-! SUPPORT. The tree BUILD makes and the codes DERIVE gives it (R80 to R84): NODE under ROOT represents a strict binary
tree whose leaves are the bytes of the table; the walk assigns each leaf its path; the paths are prefix-free. -/

namespace Sys2Proof.Machine

/-- The source's tree (00_scope.md glossary), without its weights. -/
inductive CodeTree where
  | leaf (b : Byte)
  | node (l r : CodeTree)

/-- The bytes of the leaves. -/
def CodeTree.leaves : CodeTree → List Byte
  | .leaf b => [b]
  | .node l r => l.leaves ++ r.leaves

/-- The number of nodes. -/
def CodeTree.size : CodeTree → Nat
  | .leaf _ => 1
  | .node l r => l.size + r.size + 1

/-- Each leaf's byte and path from the root, `s` the path so far: left appends 1, right appends 0 (R82). -/
def CodeTree.paths : CodeTree → Bits → List (Byte × Bits)
  | .leaf b, s => [(b, s)]
  | .node l r, s => l.paths (s ++ [true]) ++ r.paths (s ++ [false])

/-- NODE represents the tree at `j`. -/
def Rep (n : Nodes) : NodeIdx → CodeTree → Prop
  | j, .leaf b => (nodeAt n j).internal = false ∧ (nodeAt n j).symbol = b
  | j, .node l r => (nodeAt n j).internal = true ∧ Rep n (nodeAt n j).left l ∧ Rep n (nodeAt n j).right r

theorem CodeTree.length_leaves_pos (t : CodeTree) : 0 < t.leaves.length := by
  induction t with
  | leaf b => simp [CodeTree.leaves]
  | node l r ihl ihr => simp only [CodeTree.leaves, List.length_append]; omega

theorem CodeTree.size_eq (t : CodeTree) : t.size + 1 = 2 * t.leaves.length := by
  induction t with
  | leaf b => rfl
  | node l r ihl ihr => simp only [CodeTree.size, CodeTree.leaves, List.length_append]; omega

theorem CodeTree.map_fst_paths (t : CodeTree) (s : Bits) : (t.paths s).map Prod.fst = t.leaves := by
  induction t generalizing s with
  | leaf b => rfl
  | node l r ihl ihr => simp [CodeTree.paths, CodeTree.leaves, ihl, ihr]

/-- Every path goes on from the path so far, and is no longer than the tree has leaves. -/
theorem CodeTree.mem_paths {t : CodeTree} {s u : Bits} {b : Byte} (h : (b, u) ∈ t.paths s) :
    s <+: u ∧ u.length + 1 ≤ s.length + t.leaves.length := by
  induction t generalizing s with
  | leaf c =>
    simp only [CodeTree.paths, List.mem_singleton, Prod.mk.injEq] at h
    obtain ⟨-, rfl⟩ := h
    simp [CodeTree.leaves]
  | node l r ihl ihr =>
    simp only [CodeTree.paths, List.mem_append] at h
    simp only [CodeTree.leaves, List.length_append]
    rcases h with h | h
    · have h' := ihl h
      have := r.length_leaves_pos
      simp only [List.length_append, List.length_cons, List.length_nil] at h'
      exact ⟨(List.prefix_append _ _).trans h'.1, by omega⟩
    · have h' := ihr h
      have := l.length_leaves_pos
      simp only [List.length_append, List.length_cons, List.length_nil] at h'
      exact ⟨(List.prefix_append _ _).trans h'.1, by omega⟩

/-- Distinct leaves have paths neither of which is a first part of the other (R84). -/
theorem CodeTree.paths_prefixFree {t : CodeTree} (hn : t.leaves.Nodup) {s u v : Bits} {b c : Byte} (hb : (b, u) ∈ t.paths s)
    (hc : (c, v) ∈ t.paths s) (hbc : b ≠ c) : ¬ u <+: v := by
  induction t generalizing s with
  | leaf d =>
    simp only [CodeTree.paths, List.mem_singleton, Prod.mk.injEq] at hb hc
    exact absurd (hb.1.trans hc.1.symm) hbc
  | node l r ihl ihr =>
    simp only [CodeTree.leaves] at hn
    have hnl := (List.nodup_append.mp hn).1
    have hnr := (List.nodup_append.mp hn).2.1
    simp only [CodeTree.paths, List.mem_append] at hb hc
    have hdiff : ∀ x y : Bool, x ≠ y → ∀ {u v : Bits}, s ++ [x] <+: u → s ++ [y] <+: v → ¬ u <+: v := by
      intro x y hxy u v hu hv huv
      have h₁ := (hu.trans huv)
      rcases List.prefix_or_prefix_of_prefix h₁ hv with h | h <;>
      · have h := List.IsPrefix.eq_of_length h (by simp)
        simp at h
        first | exact hxy h | exact hxy h.symm
    rcases hb with hb | hb <;> rcases hc with hc | hc
    · exact ihl hnl hb hc
    · exact hdiff true false (by simp) (CodeTree.mem_paths hb).1 (CodeTree.mem_paths hc).1
    · exact hdiff false true (by simp) (CodeTree.mem_paths hb).1 (CodeTree.mem_paths hc).1
    · exact ihr hnr hb hc

/-- NODE written at or above an index represents the same tree below it. -/
theorem Rep.setNode {n : Nodes} {j : NodeIdx} {t : CodeTree} {k : NodeIdx} {e : NodeEntry} (h : Rep n j t)
    (hj : j.toNat < k.toNat)
    (hlt : ∀ i, i.toNat < k.toNat → (nodeAt n i).internal = true →
      (nodeAt n i).left.toNat < k.toNat ∧ (nodeAt n i).right.toNat < k.toNat) : Rep (setNode n k e) j t := by
  have hne : j ≠ k := by rintro rfl; omega
  induction t generalizing j with
  | leaf b =>
    simp only [Rep] at h ⊢
    rw [nodeAt_setNode_other _ _ hne]; exact h
  | node l r ihl ihr =>
    simp only [Rep] at h ⊢
    rw [nodeAt_setNode_other _ _ hne]
    have := hlt j hj h.1
    exact ⟨h.1, ihl h.2.1 this.1 (by rintro rfl; simp at this), ihr h.2.2 this.2 (by rintro rfl; simp at this)⟩

/-! ### The walk (R82) -/

/-- Assigning every path. -/
def assignAll (c : Codes) (l : List (Byte × Bits)) : Codes := l.foldl (fun c p => assign c p.1 p.2) c

theorem assignAll_append (c : Codes) (l₁ l₂ : List (Byte × Bits)) :
    assignAll c (l₁ ++ l₂) = assignAll (assignAll c l₁) l₂ := by simp [assignAll]

/-- The walk goes on with the top of the stack. -/
def resume (n : Nodes) (fuel : Nat) (stack : List (NodeIdx × Bits)) (c : Codes) : Codes × List (NodeIdx × Bits) :=
  match stack with
  | [] => (c, [])
  | (k, t) :: rest => walk n fuel k t rest c

theorem walk_succ (n : Nodes) (fuel : Nat) (j : NodeIdx) (s : Bits) (stack : List (NodeIdx × Bits)) (c : Codes) :
    walk n (fuel + 1) j s stack c =
      if (nodeAt n j).internal then
        walk n fuel (nodeAt n j).left (s ++ [true]) (((nodeAt n j).right, s ++ [false]) :: stack) c
      else resume n fuel stack (assign c (nodeAt n j).symbol s) := by
  cases stack <;> rfl

/-- The walk over a represented tree assigns every leaf its path, then goes on with the stack (R82). -/
theorem walk_rep {n : Nodes} {j : NodeIdx} {t : CodeTree} (h : Rep n j t) (fuel : Nat) (s : Bits)
    (stack : List (NodeIdx × Bits)) (c : Codes) :
    walk n (t.size + fuel) j s stack c = resume n fuel stack (assignAll c (t.paths s)) := by
  induction t generalizing j fuel s stack c with
  | leaf b =>
    obtain ⟨h₁, rfl⟩ := h
    rw [CodeTree.size, Nat.add_comm 1 fuel, walk_succ, if_neg (by simp [h₁])]
    rfl
  | node l r ihl ihr =>
    obtain ⟨h₁, h₂, h₃⟩ := h
    have hfuel : (CodeTree.node l r).size + fuel = (l.size + (r.size + fuel)) + 1 := by simp only [CodeTree.size]; omega
    rw [hfuel, walk_succ, if_pos h₁, ihl h₂, resume, ihr h₃, CodeTree.paths, assignAll_append]

theorem codeAt_assignAll_other {c : Codes} {l : List (Byte × Bits)} {b : Byte} (h : b ∉ l.map Prod.fst) :
    codeAt (assignAll c l) b = codeAt c b := by
  induction l generalizing c with
  | nil => rfl
  | cons p l ih =>
    simp only [List.map_cons, List.mem_cons, not_or] at h
    rw [assignAll, List.foldl_cons, ← assignAll, ih h.2, assign, codeAt_setCode_other _ _ h.1]

theorem codeAt_assignAll {c : Codes} {l : List (Byte × Bits)} (hn : (l.map Prod.fst).Nodup) {b : Byte} {s : Bits}
    (h : (b, s) ∈ l) : codeAt (assignAll c l) b = CodeEntry.ofCode s := by
  induction l generalizing c with
  | nil => simp at h
  | cons p l ih =>
    simp only [List.map_cons, List.nodup_cons] at hn
    rw [assignAll, List.foldl_cons, ← assignAll]
    rcases List.mem_cons.mp h with rfl | h
    · rw [codeAt_assignAll_other hn.1, assign, codeAt_setCode_same]
    · exact ih hn.2 h

/-- The codebook of a represented tree with at most 256 leaves: its paths for an internal root, the code `0` for a bare
leaf (R82). -/
theorem deriveCodes_rep {n : Nodes} {j : NodeIdx} {t : CodeTree} (h : Rep n j t) (hs : t.leaves.length ≤ 256) :
    deriveCodes n j =
      (match t with
        | .leaf b => assign zeroCodes b [false]
        | .node _ _ => assignAll zeroCodes (t.paths []), []) := by
  unfold deriveCodes
  cases t with
  | leaf b =>
    obtain ⟨h₁, rfl⟩ := h
    rw [if_neg (by simp [h₁])]
  | node l r =>
    rw [if_pos h.1]
    have hsz := (CodeTree.node l r).size_eq
    obtain ⟨k, hk⟩ : ∃ k, 511 = (CodeTree.node l r).size + k := ⟨511 - (CodeTree.node l r).size, by omega⟩
    rw [hk, walk_rep h, resume]

/-- The codebook of a represented tree: exactly its leaves have valid codes, and the codes are non-empty and
prefix-free (R84). -/
theorem deriveCodes_prefixFree {n : Nodes} {j : NodeIdx} {t : CodeTree} (h : Rep n j t) (hn : t.leaves.Nodup)
    (hs : t.leaves.length ≤ 256) :
    PrefixFree (deriveCodes n j).1 ∧ ∀ b, (codeAt (deriveCodes n j).1 b).valid = true ↔ b ∈ t.leaves := by
  rw [deriveCodes_rep h hs]
  cases t with
  | leaf b =>
    simp only [CodeTree.leaves, List.mem_singleton, assign]
    have hv : ∀ d, (codeAt (setCode zeroCodes b (CodeEntry.ofCode [false])) d).valid = true ↔ d = b := by
      intro d
      rw [codeAt_setCode]
      split <;> simp_all [CodeEntry.zero]
    refine ⟨⟨fun d hd => ?_, fun d₁ d₂ hne h₁ h₂ => ?_⟩, hv⟩
    · rw [(hv d).mp hd, codeAt_setCode_same, CodeEntry.symbols_ofCode (by simp)]; simp
    · exact absurd ((hv d₁).mp h₁ |>.trans ((hv d₂).mp h₂).symm) hne
  | node l r =>
    simp only
    have hn' : (((CodeTree.node l r).paths []).map Prod.fst).Nodup := by rw [CodeTree.map_fst_paths]; exact hn
    have hv : ∀ d, (codeAt (assignAll zeroCodes ((CodeTree.node l r).paths [])) d).valid = true ↔
        d ∈ (CodeTree.node l r).leaves := by
      intro d
      rw [← CodeTree.map_fst_paths (CodeTree.node l r) []]
      constructor
      · intro hd
        by_contra hd'
        rw [codeAt_assignAll_other hd'] at hd
        simp [CodeEntry.zero] at hd
      · intro hd
        obtain ⟨⟨d', s⟩, hm, rfl⟩ := List.mem_map.mp hd
        rw [codeAt_assignAll hn' hm]; rfl
    have hcode : ∀ d, d ∈ (CodeTree.node l r).leaves → ∃ s, (d, s) ∈ (CodeTree.node l r).paths [] ∧
        (codeAt (assignAll zeroCodes ((CodeTree.node l r).paths [])) d).symbols = s := by
      intro d hd
      rw [← CodeTree.map_fst_paths (CodeTree.node l r) []] at hd
      obtain ⟨⟨d', s⟩, hm, rfl⟩ := List.mem_map.mp hd
      have hlen := (CodeTree.mem_paths hm).2
      simp only [List.length_nil, zero_add] at hlen
      exact ⟨s, hm, by rw [codeAt_assignAll hn' hm, CodeEntry.symbols_ofCode (by omega)]⟩
    refine ⟨⟨fun d hd => ?_, fun d₁ d₂ hne h₁ h₂ => ?_⟩, hv⟩
    · obtain ⟨s, hm, hs'⟩ := hcode d ((hv d).mp hd)
      rw [hs']
      rintro rfl
      simp only [CodeTree.paths, List.mem_append] at hm
      rcases hm with hm | hm <;>
      · have := (CodeTree.mem_paths hm).1.length_le
        simp at this
    · obtain ⟨s₁, hm₁, hs₁⟩ := hcode d₁ ((hv d₁).mp h₁)
      obtain ⟨s₂, hm₂, hs₂⟩ := hcode d₂ ((hv d₂).mp h₂)
      rw [hs₁, hs₂, bitPrefix_iff]
      exact CodeTree.paths_prefixFree hn hm₁ hm₂ hne

end Sys2Proof.Machine
end

