-- ==== Sys2Proof/Laws/Forest.lean ====
section
/-! SUPPORT. What the merges of BUILD keep (R80, R81): the indices in use, the entries of leaves and merged nodes, who
is whose child, the trees under Q and the sum of the weights. -/

namespace Sys2Proof.Machine

/-! ### The selection (R80) -/

theorem leastKey_none {n : Nodes} {q : List NodeIdx} : leastKey n q = none ↔ q = [] := by
  cases q with
  | nil => simp [leastKey]
  | cons j q =>
    simp only [leastKey, reduceCtorEq, iff_false]
    cases leastKey n q with
    | none => simp
    | some k => simp only; split <;> simp

theorem keyLt_iff {n : Nodes} {j k : NodeIdx} :
    keyLt n j k = true ↔ (nodeAt n j).weight.toNat < (nodeAt n k).weight.toNat ∨
      ((nodeAt n j).weight.toNat = (nodeAt n k).weight.toNat ∧ j.toNat < k.toNat) := by
  simp [keyLt, BitVec.toNat_inj]

theorem keyLt_trans {n : Nodes} {i j k : NodeIdx} (h₁ : keyLt n i j = true) (h₂ : keyLt n j k = true) :
    keyLt n i k = true := by
  rw [keyLt_iff] at *; omega

theorem keyLt_total {n : Nodes} {j k : NodeIdx} (h : j ≠ k) (h' : ¬ keyLt n j k = true) : keyLt n k j = true := by
  rw [keyLt_iff] at *
  have : j.toNat ≠ k.toNat := fun h'' => h (BitVec.eq_of_toNat_eq h'')
  omega

/-- The node selected is in Q, and every other node of Q has a greater key (R80). -/
theorem leastKey_some {n : Nodes} {q : List NodeIdx} {a : NodeIdx} (h : leastKey n q = some a) :
    a ∈ q ∧ ∀ k ∈ q, k ≠ a → keyLt n a k = true := by
  induction q generalizing a with
  | nil => simp [leastKey] at h
  | cons j q ih =>
    simp only [leastKey] at h
    cases hq : leastKey n q with
    | none =>
      rw [hq] at h
      rw [leastKey_none] at hq
      subst hq
      cases h
      simp
    | some k =>
      rw [hq] at h
      simp only at h
      obtain ⟨hk, hmin⟩ := ih hq
      split at h
      · cases h
        refine ⟨by simp, fun i hi hne => ?_⟩
        rcases List.mem_cons.mp hi with rfl | hi
        · exact absurd rfl hne
        · by_cases hik : i = k
          · subst hik; assumption
          · exact keyLt_trans ‹_› (hmin i hi hik)
      · cases h
        refine ⟨by simp [hk], fun i hi hne => ?_⟩
        rcases List.mem_cons.mp hi with rfl | hi
        · exact keyLt_total hne ‹_›
        · exact hmin i hi hne

/-! ### The invariant of the merges -/

/-- NODE and Q when the next index to use is `k`, for the table `f`. -/
structure Forest (f : Freqs) (k : Nat) (n : Nodes) (q : List NodeIdx) : Prop where
  /-- Each merge removes two nodes from Q and adds one. -/
  count : k + q.length = 2 * (presentBytes f).length
  nodup : q.Nodup
  below : ∀ j ∈ q, j.toNat < k
  enough : (presentBytes f).length ≤ k
  /-- Indices not used yet are all zero. -/
  unused : ∀ j : NodeIdx, k ≤ j.toNat → nodeAt n j = NodeEntry.zero
  /-- The leaves, in ascending byte order. -/
  leaf : ∀ (j : NodeIdx) (h : j.toNat < (presentBytes f).length), nodeAt n j = leafEntry f (presentBytes f)[j.toNat]
  /-- The merged nodes: valid, their children below them, the first taken LEFT. -/
  merged : ∀ j : NodeIdx, (presentBytes f).length ≤ j.toNat → j.toNat < k →
    nodeAt n j = mergedEntry n (nodeAt n j).left (nodeAt n j).right ∧
    (nodeAt n j).left.toNat < j.toNat ∧ (nodeAt n j).right.toNat < j.toNat ∧
    (nodeAt n j).left ≠ (nodeAt n j).right ∧
    keyLt n (nodeAt n j).left (nodeAt n j).right = true ∧
    (freqTotal f < 2 ^ 32 → (nodeAt n j).weight.toNat =
      (nodeAt n (nodeAt n j).left).weight.toNat + (nodeAt n (nodeAt n j).right).weight.toNat)
  /-- A node has left Q exactly when it is some node's child. -/
  child : ∀ j : NodeIdx, j.toNat < k → (j ∈ q ↔ ∀ p, ¬ ParentOf n p j)
  /-- No node is the child of two. -/
  oneParent : ∀ p p' j : NodeIdx, ParentOf n p j → ParentOf n p' j → p = p'
  /-- The trees under Q have the bytes of the table as their leaves, each once. -/
  trees : ∃ tr : NodeIdx → CodeTree, (∀ j ∈ q, Rep n j (tr j)) ∧
    (q.flatMap fun j => (tr j).leaves).Perm (presentBytes f)
  /-- The weights in Q sum to the table's total. -/
  total : freqTotal f < 2 ^ 32 → (q.map fun j => (nodeAt n j).weight.toNat).sum = freqTotal f
  /-- Each merge took the two nodes of least key among those that no earlier merge took (R80). -/
  least : ∀ i : NodeIdx, (presentBytes f).length ≤ i.toNat → i.toNat < k →
    (∀ p, p.toNat < i.toNat → ¬ ParentOf n p (nodeAt n i).left) ∧
    (∀ p, p.toNat < i.toNat → ¬ ParentOf n p (nodeAt n i).right) ∧
    ∀ j : NodeIdx, j.toNat < i.toNat → (∀ p, p.toNat < i.toNat → ¬ ParentOf n p j) →
      (j ≠ (nodeAt n i).left → keyLt n (nodeAt n i).left j = true) ∧
      (j ≠ (nodeAt n i).left → j ≠ (nodeAt n i).right → keyLt n (nodeAt n i).right j = true)

theorem toNat_ofNat9 {k : Nat} (h : k < 512) : (BitVec.ofNat 9 k).toNat = k := by
  rw [BitVec.toNat_ofNat]; exact Nat.mod_eq_of_lt h

/-- A node of a forest is a leaf, a merged node, or unused. -/
theorem Forest.valid {f : Freqs} {k : Nat} {n : Nodes} {q : List NodeIdx} (h : Forest f k n q) (j : NodeIdx) :
    (nodeAt n j).valid = decide (j.toNat < k) := by
  by_cases h₁ : j.toNat < k
  · by_cases h₂ : j.toNat < (presentBytes f).length
    · rw [h.leaf j h₂]; simp [leafEntry, h₁]
    · rw [(h.merged j (by omega) h₁).1]; simp [mergedEntry, h₁]
  · rw [h.unused j (by omega)]; simp [NodeEntry.zero, h₁]

theorem Forest.internal {f : Freqs} {k : Nat} {n : Nodes} {q : List NodeIdx} (h : Forest f k n q) (j : NodeIdx) :
    (nodeAt n j).internal = true ↔ (presentBytes f).length ≤ j.toNat ∧ j.toNat < k := by
  by_cases h₁ : j.toNat < k
  · by_cases h₂ : j.toNat < (presentBytes f).length
    · rw [h.leaf j h₂]; simp [leafEntry, h₂]
    · rw [(h.merged j (by omega) h₁).1]; simp [mergedEntry, h₁]; omega
  · rw [h.unused j (by omega)]; simp [NodeEntry.zero, h₁]

theorem Forest.children {f : Freqs} {k : Nat} {n : Nodes} {q : List NodeIdx} (h : Forest f k n q) {p j : NodeIdx}
    (hp : ParentOf n p j) : p.toNat < k ∧ j.toNat < p.toNat := by
  obtain ⟨h₁, h₂, h₃⟩ := hp
  obtain ⟨h₄, h₅⟩ := (h.internal p).mp h₂
  have h₆ := h.merged p h₄ h₅
  rcases h₃ with rfl | rfl
  · exact ⟨h₅, h₆.2.1⟩
  · exact ⟨h₅, h₆.2.2.1⟩

/-- One merge (R80). -/
theorem Forest.merge {f : Freqs} {k : Nat} {n : Nodes} {q : List NodeIdx} (h : Forest f k n q) {a c : NodeIdx}
    (ha : leastKey n q = some a) (hc : leastKey n (q.erase a) = some c) :
    Forest f (k + 1) (setNode n (BitVec.ofNat 9 k) (mergedEntry n a c))
      ((q.erase a).erase c ++ [BitVec.ofNat 9 k]) := by
  obtain ⟨haq, hamin⟩ := leastKey_some ha
  obtain ⟨hcq, hcmin⟩ := leastKey_some hc
  have hcq' : c ∈ q := List.mem_of_mem_erase hcq
  have hca : c ≠ a := ((List.Nodup.mem_erase_iff h.nodup).mp hcq).1
  have hperm : q.Perm (a :: c :: (q.erase a).erase c) :=
    (List.perm_cons_erase haq).trans ((List.perm_cons_erase hcq).cons a)
  have hlen : q.length = ((q.erase a).erase c).length + 2 := by simpa using hperm.length_eq
  have hN := length_presentBytes_le f
  have hcount := h.count
  have hk : (BitVec.ofNat 9 k).toNat = k := toNat_ofNat9 (by omega)
  have hak := h.below a haq
  have hck := h.below c hcq'
  have hne : ∀ j : NodeIdx, j.toNat < k → j ≠ BitVec.ofNat 9 k := by rintro j hj rfl; omega
  have hold : ∀ j : NodeIdx, j.toNat < k →
      nodeAt (setNode n (BitVec.ofNat 9 k) (mergedEntry n a c)) j = nodeAt n j :=
    fun j hj => nodeAt_setNode_other _ _ (hne j hj)
  have hnew : nodeAt (setNode n (BitVec.ofNat 9 k) (mergedEntry n a c)) (BitVec.ofNat 9 k) = mergedEntry n a c :=
    nodeAt_setNode_same _ _ _
  have hrest : ∀ j, j ∈ (q.erase a).erase c ↔ j ∈ q ∧ j ≠ a ∧ j ≠ c := by
    intro j
    rw [List.Nodup.mem_erase_iff (h.nodup.erase a), List.Nodup.mem_erase_iff h.nodup]
    tauto
  have hkeyLt : ∀ i j : NodeIdx, i.toNat < k → j.toNat < k →
      keyLt (setNode n (BitVec.ofNat 9 k) (mergedEntry n a c)) i j = keyLt n i j := by
    intro i j hi hj
    simp only [keyLt, hold i hi, hold j hj]
  have hweight : freqTotal f < 2 ^ 32 →
      (mergedEntry n a c).weight.toNat = (nodeAt n a).weight.toNat + (nodeAt n c).weight.toNat := by
    intro ht
    have hs := h.total ht
    have hp := (hperm.map fun j => (nodeAt n j).weight.toNat).sum_eq
    simp only [List.map_cons, List.sum_cons] at hp
    simp only [mergedEntry, BitVec.toNat_add]
    exact Nat.mod_eq_of_lt (by omega)
  have hparent : ∀ p j : NodeIdx, ParentOf (setNode n (BitVec.ofNat 9 k) (mergedEntry n a c)) p j ↔
      (ParentOf n p j ∨ (p = BitVec.ofNat 9 k ∧ (j = a ∨ j = c))) := by
    intro p j
    by_cases hp : p = BitVec.ofNat 9 k
    · subst hp
      have hno : ¬ ParentOf n (BitVec.ofNat 9 k) j := fun h' => by have := (h.children h').1; omega
      refine ⟨fun h' => .inr ⟨rfl, ?_⟩, fun h' => ?_⟩
      · obtain ⟨-, -, h'⟩ := h'
        rw [hnew] at h'
        exact h'.imp Eq.symm Eq.symm
      · rcases h' with h' | ⟨-, h'⟩
        · exact absurd h' hno
        · unfold ParentOf
          rw [hnew]
          exact ⟨rfl, rfl, h'.imp Eq.symm Eq.symm⟩
    · simp only [ParentOf, nodeAt_setNode_other _ _ hp, hp, false_and, or_false]
  constructor
  · simp only [List.length_append, List.length_cons, List.length_nil]; omega
  · rw [List.nodup_append]
    refine ⟨(h.nodup.erase a).erase c, by simp, ?_⟩
    intro j hj j' hj'
    rw [List.mem_singleton] at hj'
    subst hj'
    exact hne j (h.below j ((hrest j).mp hj).1)
  · intro j hj
    rcases List.mem_append.mp hj with hj | hj
    · have := h.below j ((hrest j).mp hj).1; omega
    · rw [List.mem_singleton] at hj; subst hj; omega
  · have := h.enough; omega
  · intro j hj
    rw [nodeAt_setNode_other _ _ (by rintro rfl; omega)]
    exact h.unused j (by omega)
  · intro j hj
    have := h.enough
    rw [hold j (by omega)]
    exact h.leaf j hj
  · intro j hj₁ hj₂
    by_cases hj : j = BitVec.ofNat 9 k
    · subst hj
      rw [hnew]
      have hl : (mergedEntry n a c).left = a := rfl
      have hr : (mergedEntry n a c).right = c := rfl
      have hkl := hkeyLt a c hak hck
      have hola := hold a hak
      have holc := hold c hck
      have hwt := hweight
      rw [hl, hr]
      generalize hg : setNode n (BitVec.ofNat 9 k) (mergedEntry n a c) = n' at hkl hola holc
      refine ⟨?_, by omega, by omega, hca.symm, ?_, ?_⟩
      · unfold mergedEntry; rw [hola, holc]
      · rw [hkl]; exact hamin c hcq' hca
      · intro ht; rw [hola, holc]; exact hwt ht
    · have hj' : j.toNat < k := by
        have : j.toNat ≠ k := fun h' => hj (BitVec.eq_of_toNat_eq (by omega))
        omega
      have hm := h.merged j hj₁ hj'
      have hl : (nodeAt n j).left.toNat < k := by omega
      have hr : (nodeAt n j).right.toNat < k := by omega
      rw [hold j hj']
      refine ⟨?_, hm.2.1, hm.2.2.1, hm.2.2.2.1, ?_, ?_⟩
      · rw [mergedEntry, hold _ hl, hold _ hr]; exact hm.1
      · rw [hkeyLt _ _ hl hr]; exact hm.2.2.2.2.1
      · rw [hold _ hl, hold _ hr]; exact hm.2.2.2.2.2
  · intro j hj
    by_cases hjk : j = BitVec.ofNat 9 k
    · subst hjk
      simp only [List.mem_append, List.mem_singleton, or_true, true_iff]
      intro p hp
      rcases (hparent p _).mp hp with hp | ⟨-, hp | hp⟩
      · have := h.children hp; omega
      · rw [← hp] at hak; omega
      · rw [← hp] at hck; omega
    · have hj' : j.toNat < k := by
        have : j.toNat ≠ k := fun h' => hjk (BitVec.eq_of_toNat_eq (by omega))
        omega
      simp only [List.mem_append, List.mem_singleton, hjk, or_false, hrest, hparent]
      have hch := h.child j hj'
      constructor
      · rintro ⟨h₁, h₂, h₃⟩ p (hp | ⟨-, hp | hp⟩)
        · exact hch.mp h₁ p hp
        · exact h₂ hp
        · exact h₃ hp
      · intro hall
        refine ⟨hch.mpr fun p hp => hall p (.inl hp), fun hja => ?_, fun hjc => ?_⟩
        · exact hall (BitVec.ofNat 9 k) (.inr ⟨rfl, .inl hja⟩)
        · exact hall (BitVec.ofNat 9 k) (.inr ⟨rfl, .inr hjc⟩)
  · intro p p' j hp hp'
    rcases (hparent p j).mp hp with hpo | ⟨rfl, hj⟩ <;> rcases (hparent p' j).mp hp' with hpo' | ⟨rfl, hj'⟩
    · exact h.oneParent p p' j hpo hpo'
    · exfalso
      rcases hj' with rfl | rfl
      · exact (h.child _ hak).mp haq p hpo
      · exact (h.child _ hck).mp hcq' p hpo
    · exfalso
      rcases hj with rfl | rfl
      · exact (h.child _ hak).mp haq p' hpo'
      · exact (h.child _ hck).mp hcq' p' hpo'
    · rfl
  · obtain ⟨tr, htr, htp⟩ := h.trees
    have hlt : ∀ i : NodeIdx, i.toNat < (BitVec.ofNat 9 k).toNat → (nodeAt n i).internal = true →
        (nodeAt n i).left.toNat < (BitVec.ofNat 9 k).toNat ∧ (nodeAt n i).right.toNat < (BitVec.ofNat 9 k).toNat := by
      intro i hi hint
      rw [hk] at hi ⊢
      have hm := h.merged i ((h.internal i).mp hint).1 hi
      omega
    refine ⟨fun j => if j = BitVec.ofNat 9 k then .node (tr a) (tr c) else tr j, ?_, ?_⟩
    · intro j hj
      rcases List.mem_append.mp hj with hj | hj
      · have hjq := ((hrest j).mp hj).1
        have hjk := h.below j hjq
        simp only [hne j hjk, if_false]
        exact (htr j hjq).setNode (by omega) hlt
      · rw [List.mem_singleton] at hj
        subst hj
        simp only [if_true, Rep, hnew]
        exact ⟨rfl, (htr a haq).setNode (by omega) hlt, (htr c hcq').setNode (by omega) hlt⟩
    · have hcongr : ((q.erase a).erase c).flatMap
          (fun j => ((if j = BitVec.ofNat 9 k then CodeTree.node (tr a) (tr c) else tr j) : CodeTree).leaves)
          = ((q.erase a).erase c).flatMap fun j => (tr j).leaves := by
        apply List.flatMap_congr
        intro j hj
        simp only [hne j (h.below j ((hrest j).mp hj).1), if_false]
      rw [List.flatMap_append, hcongr]
      simp only [List.flatMap_cons, List.flatMap_nil, if_true, CodeTree.leaves, List.append_nil]
      refine List.Perm.trans ?_ htp
      refine List.Perm.trans ?_ (hperm.flatMap_right _).symm
      simp only [List.flatMap_cons]
      exact List.perm_append_comm.trans (by rw [List.append_assoc])
  · intro ht
    have hs := h.total ht
    have hp := (hperm.map fun j => (nodeAt n j).weight.toNat).sum_eq
    simp only [List.map_cons, List.sum_cons] at hp
    have hcongr : ((q.erase a).erase c).map
        (fun j => (nodeAt (setNode n (BitVec.ofNat 9 k) (mergedEntry n a c)) j).weight.toNat)
        = ((q.erase a).erase c).map fun j => (nodeAt n j).weight.toNat := by
      apply List.map_congr_left
      intro j hj
      rw [hold j (h.below j ((hrest j).mp hj).1)]
    rw [List.map_append, hcongr, List.sum_append]
    simp only [List.map_cons, List.map_nil, List.sum_cons, List.sum_nil, hnew, hweight ht]
    omega
  · intro i hi₁ hi₂
    have hpar : ∀ p j : NodeIdx, p.toNat < k →
        (ParentOf (setNode n (BitVec.ofNat 9 k) (mergedEntry n a c)) p j ↔ ParentOf n p j) := by
      intro p j hp
      rw [hparent p j]
      exact ⟨fun h' => h'.resolve_right fun h'' => by rw [h''.1] at hp; omega, .inl⟩
    by_cases hik : i = BitVec.ofNat 9 k
    · subst hik
      have hl : (mergedEntry n a c).left = a := rfl
      have hr : (mergedEntry n a c).right = c := rfl
      rw [hnew, hl, hr, hk]
      have hq : ∀ j : NodeIdx, j.toNat < k →
          (∀ p, p.toNat < k → ¬ ParentOf (setNode n (BitVec.ofNat 9 k) (mergedEntry n a c)) p j) → j ∈ q := by
        intro j hj hall
        refine (h.child j hj).mpr fun p hp => ?_
        have hpk := (h.children hp).1
        exact hall p hpk ((hpar p j hpk).mpr hp)
      refine ⟨fun p hp h' => (h.child a hak).mp haq p ((hpar p a hp).mp h'),
        fun p hp h' => (h.child c hck).mp hcq' p ((hpar p c hp).mp h'), fun j hj hall => ⟨fun hja => ?_, fun hja hjc => ?_⟩⟩
      · rw [hkeyLt a j hak hj]; exact hamin j (hq j hj hall) hja
      · rw [hkeyLt c j hck hj]; exact hcmin j ((List.Nodup.mem_erase_iff h.nodup).mpr ⟨hja, hq j hj hall⟩) hjc
    · have hi' : i.toNat < k := by
        have : i.toNat ≠ k := fun h' => hik (BitVec.eq_of_toNat_eq (by omega))
        omega
      have hm := h.merged i hi₁ hi'
      obtain ⟨h₁, h₂, h₃⟩ := h.least i hi₁ hi'
      rw [hold i hi']
      refine ⟨fun p hp h' => h₁ p hp ((hpar p _ (by omega)).mp h'), fun p hp h' => h₂ p hp ((hpar p _ (by omega)).mp h'),
        fun j hj hall => ?_⟩
      have h₄ := h₃ j hj fun p hp h' => hall p hp ((hpar p _ (by omega)).mpr h')
      rw [hkeyLt _ j (by omega) (by omega), hkeyLt _ j (by omega) (by omega)]
      exact h₄

/-- The merges end with one node in Q and `2n-1` indices in use. -/
theorem Forest.mergeNodes {f : Freqs} (hf : presentBytes f ≠ []) {fuel k : Nat} {n : Nodes} {q : List NodeIdx}
    (h : Forest f k n q) (hfuel : q.length ≤ fuel + 1) :
    ∃ r, (Machine.mergeNodes fuel (BitVec.ofNat 9 k) (n, q)).2 = [r] ∧
      Forest f (2 * (presentBytes f).length - 1) (Machine.mergeNodes fuel (BitVec.ofNat 9 k) (n, q)).1 [r] := by
  have hpos : 0 < (presentBytes f).length := List.length_pos_iff.mpr hf
  have done : ∀ {n : Nodes} {q : List NodeIdx} {k : Nat}, Forest f k n q → q.length ≤ 1 →
      ∃ r, q = [r] ∧ Forest f (2 * (presentBytes f).length - 1) n [r] := by
    intro n q k h hq
    match q, hq with
    | [], _ =>
      obtain ⟨tr, -, hp⟩ := h.trees
      simp at hp
      exact absurd hp hf
    | [r], _ =>
      have := h.count
      simp only [List.length_cons, List.length_nil, zero_add] at this
      exact ⟨r, rfl, by rw [show 2 * (presentBytes f).length - 1 = k by omega]; exact h⟩
  induction fuel generalizing k n q with
  | zero => exact done (n := n) (q := q) h (by omega)
  | succ fuel ih =>
    rw [Machine.mergeNodes]
    cases ha : leastKey n q with
    | none =>
      rw [leastKey_none] at ha
      exact done (n := n) (q := q) h (by simp [ha])
    | some a =>
      simp only
      cases hc : leastKey n (q.erase a) with
      | none =>
        rw [leastKey_none] at hc
        have hlen := List.length_erase_of_mem (leastKey_some ha).1
        rw [hc] at hlen
        have h₁ := List.length_pos_of_mem (leastKey_some ha).1
        simp only [List.length_nil] at hlen
        exact done (n := n) (q := q) h (by omega)
      | some c =>
        simp only
        have hm := h.merge ha hc
        have hadd : (BitVec.ofNat 9 k + 1 : NodeIdx) = BitVec.ofNat 9 (k + 1) := by
          apply BitVec.eq_of_toNat_eq
          simp [BitVec.toNat_add]
        rw [hadd]
        refine ih hm ?_
        have h₁ := List.length_erase_of_mem (leastKey_some ha).1
        have h₂ := List.length_erase_of_mem (leastKey_some hc).1
        have h₃ := List.length_pos_of_mem (leastKey_some ha).1
        have h₄ := List.length_pos_of_mem (leastKey_some hc).1
        simp only [List.length_append, List.length_cons, List.length_nil]
        omega

/-! ### The leaves (R80) -/

theorem nodeAt_writeLeaves (f : Freqs) (bs : List Byte) (j : Nat) (n : Nodes) (h : j + bs.length ≤ 512) (i : NodeIdx) :
    nodeAt (writeLeaves f j bs n) i =
      if hi : j ≤ i.toNat ∧ i.toNat < j + bs.length then leafEntry f (bs[i.toNat - j]'(by omega)) else nodeAt n i := by
  induction bs generalizing j n with
  | nil =>
    rw [dif_neg (by simp)]; rfl
  | cons b bs ih =>
    simp only [List.length_cons] at h
    rw [writeLeaves, ih (j + 1) _ (by omega)]
    by_cases h₁ : i.toNat = j
    · have hi : i = BitVec.ofNat 9 j := BitVec.eq_of_toNat_eq (by rw [toNat_ofNat9 (by omega)]; exact h₁)
      rw [dif_neg (by omega), dif_pos (by simp only [List.length_cons]; omega)]
      subst hi
      rw [nodeAt_setNode_same]
      simp [toNat_ofNat9 (show j < 512 by omega)]
    · have hi : i ≠ BitVec.ofNat 9 j := by rintro rfl; rw [toNat_ofNat9 (by omega)] at h₁; exact h₁ rfl
      by_cases h₂ : j + 1 ≤ i.toNat ∧ i.toNat < j + 1 + bs.length
      · rw [dif_pos h₂, dif_pos (by simp only [List.length_cons]; omega)]
        congr 1
        obtain ⟨d, hd⟩ : ∃ d, i.toNat = j + 1 + d := ⟨i.toNat - (j + 1), by omega⟩
        simp [hd, show j + 1 + d - j = d + 1 by omega]
      · rw [dif_neg h₂, dif_neg (by simp only [List.length_cons]; omega), nodeAt_setNode_other _ _ hi]

theorem forest_start (f : Freqs) :
    Forest f (presentBytes f).length (leafForest f).1 (leafForest f).2 := by
  have hN := length_presentBytes_le f
  have hq : ∀ j : NodeIdx, j ∈ (leafForest f).2 ↔ j.toNat < (presentBytes f).length := by
    intro j
    simp only [leafForest, List.mem_map, List.mem_range]
    constructor
    · rintro ⟨a, ha, rfl⟩; rw [toNat_ofNat9 (by omega)]; exact ha
    · intro hj; exact ⟨j.toNat, hj, by simp⟩
  have hat : ∀ j : NodeIdx, nodeAt (leafForest f).1 j =
      if hj : j.toNat < (presentBytes f).length then leafEntry f (presentBytes f)[j.toNat] else NodeEntry.zero := by
    intro j
    simp only [leafForest]
    rw [nodeAt_writeLeaves f _ 0 _ (by omega)]
    by_cases hj : j.toNat < (presentBytes f).length
    · rw [dif_pos (by omega), dif_pos hj]; simp
    · rw [dif_neg (by omega), dif_neg hj]; simp
  have hnoint : ∀ j : NodeIdx, (nodeAt (leafForest f).1 j).internal = false := by
    intro j; rw [hat]; split <;> rfl
  have hnopar : ∀ p j, ¬ ParentOf (leafForest f).1 p j := by
    rintro p j ⟨-, h, -⟩; rw [hnoint] at h; cases h
  have hmapidx : (presentBytes f) = (List.range (presentBytes f).length).map
      fun i => if h : i < (presentBytes f).length then (presentBytes f)[i] else 0 := by
    apply List.ext_getElem
    · simp
    · intro i h₁ h₂; simp [h₁]
  constructor
  · simp [leafForest]; omega
  · refine List.Nodup.map_on ?_ List.nodup_range
    intro x hx y hy h
    have h := congrArg BitVec.toNat h
    rw [List.mem_range] at hx hy
    rwa [toNat_ofNat9 (by omega), toNat_ofNat9 (by omega)] at h
  · exact fun j hj => (hq j).mp hj
  · exact le_refl _
  · intro j hj; rw [hat, dif_neg (by omega)]
  · intro j hj; rw [hat, dif_pos hj]
  · intro j h₁ h₂; omega
  · intro j hj; simp [hq, hj, hnopar]
  · intro p p' j hp; exact absurd hp (hnopar p j)
  · refine ⟨fun j => .leaf (nodeAt (leafForest f).1 j).symbol, fun j _ => ⟨hnoint j, rfl⟩, ?_⟩
    rw [List.perm_iff_count]
    intro b
    congr 1
    conv_rhs => rw [hmapidx]
    simp only [CodeTree.leaves, leafForest, List.flatMap_map, ← List.map_eq_flatMap]
    apply List.map_congr_left
    intro i hi
    rw [List.mem_range] at hi
    have := hat (BitVec.ofNat 9 i)
    simp only [leafForest] at this
    rw [this, dif_pos (by rw [toNat_ofNat9 (by omega)]; exact hi), dif_pos hi]
    simp [leafEntry, toNat_ofNat9 (show i < 512 by omega)]
  · intro _
    have hfilter : freqTotal f = ((presentBytes f).map fun b => (freqAt f b).toNat).sum := by
      unfold freqTotal presentBytes
      generalize allBytes = bs
      induction bs with
      | nil => rfl
      | cons b bs ih =>
        rw [List.filter_cons]
        split
        · simp [ih]
        · rename_i hb
          have : freqAt f b = 0 := by simpa using hb
          simp [ih, this]
    rw [hfilter]
    conv_rhs => rw [hmapidx]
    simp only [leafForest, List.map_map]
    refine congrArg List.sum (List.map_congr_left fun i hi => ?_)
    rw [List.mem_range] at hi
    have := hat (BitVec.ofNat 9 i)
    simp only [leafForest] at this
    simp only [Function.comp_def]
    rw [this, dif_pos (by rw [toNat_ofNat9 (by omega)]; exact hi), dif_pos hi]
    simp [leafEntry, toNat_ofNat9 (show i < 512 by omega)]
  · intro i h₁ h₂; omega

/-- What BUILD makes of a table that is not empty (R81). -/
theorem huffmanForest_forest {f : Freqs} (hf : presentBytes f ≠ []) :
    (huffmanForest f).2 = [treeRoot f] ∧
      Forest f (2 * (presentBytes f).length - 1) (treeNodes f) [treeRoot f] := by
  obtain ⟨r, h₁, h₂⟩ := (forest_start f).mergeNodes hf (fuel := (presentBytes f).length) (by simp [leafForest])
  have hr : treeRoot f = r := by
    unfold treeRoot huffmanForest
    rw [show leafForest f = ((leafForest f).1, (leafForest f).2) from rfl, h₁]; rfl
  rw [hr]
  exact ⟨h₁, h₂⟩

/-- ROOT is the last node created (R81). -/
theorem treeRoot_toNat {f : Freqs} (hf : presentBytes f ≠ []) :
    (treeRoot f).toNat = 2 * (presentBytes f).length - 2 := by
  have hF := (huffmanForest_forest hf).2
  have hN := length_presentBytes_le f
  have hpos : 0 < (presentBytes f).length := List.length_pos_iff.mpr hf
  by_contra hne
  have hlt : (BitVec.ofNat 9 (2 * (presentBytes f).length - 2)).toNat = 2 * (presentBytes f).length - 2 :=
    toNat_ofNat9 (by omega)
  have hch := hF.child (BitVec.ofNat 9 (2 * (presentBytes f).length - 2)) (by omega)
  have hnot : BitVec.ofNat 9 (2 * (presentBytes f).length - 2) ∉ [treeRoot f] := by
    rw [List.mem_singleton]; intro h; rw [← h] at hne; exact hne hlt
  rw [hch] at hnot
  push Not at hnot
  obtain ⟨p, hp⟩ := hnot
  have := hF.children hp
  omega

/-- R81 of the tree BUILD makes. -/
theorem treeNodes_huffman {f : Freqs} (hf : presentBytes f ≠ []) (ht : freqTotal f < 2 ^ 32) :
    HuffmanTree f (treeNodes f) (treeRoot f) := by
  obtain ⟨-, hF⟩ := huffmanForest_forest hf
  have hroot := treeRoot_toNat hf
  have hpos : 0 < (presentBytes f).length := List.length_pos_iff.mpr hf
  have hr : (treeRoot f).toNat < 2 * (presentBytes f).length - 1 := by omega
  refine ⟨fun j => by rw [hF.valid]; simp, hF.unused, hroot, hF.leaf, fun j h₁ h₂ => ?_, fun j hj hne => ?_,
    (hF.child _ hr).mp (by simp), fun j hj => ?_, ?_, fun j hj => ?_⟩
  · obtain ⟨h₃, h₄, h₅, h₆, -⟩ := hF.merged j h₁ h₂
    exact ⟨by rw [h₃]; rfl, by rw [h₃]; rfl, h₄, h₅, h₆⟩
  · have hch := hF.child j hj
    have hnot : j ∉ [treeRoot f] := by simpa using hne
    rw [hch] at hnot
    push Not at hnot
    obtain ⟨p, hp⟩ := hnot
    exact ⟨p, hp, fun p' hp' => hF.oneParent p' p j hp' hp⟩
  · obtain ⟨h₁, h₂⟩ := (hF.internal j).mp hj
    exact (hF.merged j h₁ h₂).2.2.2.2.2 ht
  · simpa using hF.total ht
  · obtain ⟨h₁, h₂⟩ := (hF.internal j).mp hj
    exact (hF.merged j h₁ h₂).2.2.2.2.1

/-- NODE under ROOT represents a tree whose leaves are the bytes of the table, each once (R81). -/
theorem treeNodes_rep {f : Freqs} (hf : presentBytes f ≠ []) :
    ∃ t : CodeTree, Rep (treeNodes f) (treeRoot f) t ∧ t.leaves.Perm (presentBytes f) := by
  obtain ⟨tr, h₁, h₂⟩ := (huffmanForest_forest hf).2.trees
  exact ⟨tr (treeRoot f), h₁ _ (by simp), by simpa using h₂⟩

/-- The codebook of the tree of a table: prefix-free, and the bytes of the table are those with a valid code (R84). -/
theorem deriveCodes_tree {f : Freqs} (hf : presentBytes f ≠ []) :
    PrefixFree (deriveCodes (treeNodes f) (treeRoot f)).1 ∧
      ∀ b, (codeAt (deriveCodes (treeNodes f) (treeRoot f)).1 b).valid = true ↔ freqAt f b ≠ 0 := by
  obtain ⟨t, h₁, h₂⟩ := treeNodes_rep hf
  have hn : t.leaves.Nodup := h₂.nodup_iff.mpr (nodup_presentBytes f)
  have hl : t.leaves.length ≤ 256 := by rw [h₂.length_eq]; exact length_presentBytes_le f
  obtain ⟨h₃, h₄⟩ := deriveCodes_prefixFree h₁ hn hl
  exact ⟨h₃, fun b => by rw [h₄, h₂.mem_iff, mem_presentBytes]⟩

end Sys2Proof.Machine
end

