-- ==== Sys2Proof/Laws/Stages.lean ====
section
/-! SUPPORT. ANALYZE, BUILD and DERIVE as runs (R78, R80, R82), what they leave, and the composite commands as their
sequence (R104, R105, R107). -/

namespace Sys2Proof.Machine

/-! ### Counting (R78, R79) -/

theorem toNat_freqAt_countByte {f : Freqs} {b : Byte} (h : (freqAt f b).toNat + 1 < 2 ^ 32) (c : Byte) :
    (freqAt (countByte f b) c).toNat = (freqAt f c).toNat + if c = b then 1 else 0 := by
  rw [countByte, freqAt_setFreq]
  split
  · subst_vars
    rw [BitVec.toNat_add]
    exact Nat.mod_eq_of_lt h
  · rfl

theorem freqAt_le_total (f : Freqs) (b : Byte) : (freqAt f b).toNat ≤ freqTotal f :=
  List.single_le_sum (fun _ _ => Nat.zero_le _) _ (List.mem_map_of_mem (mem_allBytes b))

theorem freqTotal_countByte {f : Freqs} {b : Byte} (h : freqTotal f + 1 < 2 ^ 32) :
    freqTotal (countByte f b) = freqTotal f + 1 := by
  have hb : (freqAt f b).toNat + 1 < 2 ^ 32 := by have := freqAt_le_total f b; omega
  have hsum : ∀ bs : List Byte, bs.Nodup → (bs.map fun c => (freqAt (countByte f b) c).toNat).sum
      = (bs.map fun c => (freqAt f c).toNat).sum + if b ∈ bs then 1 else 0 := by
    intro bs hbs
    induction bs with
    | nil => simp
    | cons c bs ih =>
      rw [List.nodup_cons] at hbs
      rw [List.map_cons, List.sum_cons, ih hbs.2, List.map_cons, List.sum_cons, toNat_freqAt_countByte hb]
      by_cases hc : c = b
      · subst hc
        simp only [hbs.1, if_true, List.mem_cons, true_or, if_false]
        omega
      · have hc' : b ≠ c := fun h => hc h.symm
        simp only [hc, if_false, List.mem_cons, hc', false_or]
        omega
  unfold freqTotal
  rw [hsum allBytes nodup_allBytes, if_pos (mem_allBytes b)]

theorem foldl_countByte {m : List Byte} {f : Freqs} (h : freqTotal f + m.length < 2 ^ 32) :
    freqTotal (m.foldl countByte f) = freqTotal f + m.length ∧
      ∀ b, (freqAt (m.foldl countByte f) b).toNat = (freqAt f b).toNat + m.count b := by
  induction m generalizing f with
  | nil => simp
  | cons c m ih =>
    simp only [List.length_cons] at h
    have h₁ := freqTotal_countByte (f := f) (b := c) (by omega)
    obtain ⟨h₂, h₃⟩ := ih (f := countByte f c) (by omega)
    have hc : (freqAt f c).toNat + 1 < 2 ^ 32 := by have := freqAt_le_total f c; omega
    refine ⟨?_, fun b => ?_⟩
    · rw [List.foldl_cons, h₂, h₁, List.length_cons]; omega
    · rw [List.foldl_cons, h₃, toNat_freqAt_countByte hc, List.count_cons]
      by_cases hb : b = c
      · subst hb; simp only [beq_self_eq_true, if_true]; omega
      · have hb' : (c == b) = false := by simpa using fun h => hb h.symm
        simp [hb, hb']

theorem histogram_nil : histogram [] = zeroFreqs := by rw [histogram, List.foldl_nil]

/-- The counts of a message are its counts, and they sum to its length (R79). -/
theorem histogram_spec {m : List Byte} (h : m.length < 2 ^ 32) :
    freqTotal (histogram m) = m.length ∧ ∀ b, (freqAt (histogram m) b).toNat = m.count b := by
  obtain ⟨h₁, h₂⟩ := foldl_countByte (m := m) (f := zeroFreqs) (by simpa using h)
  exact ⟨by rw [histogram, h₁]; simp, fun b => by rw [histogram, h₂]; simp⟩

theorem histogram_ne_zero {m : List Byte} (h : m.length < 2 ^ 32) {b : Byte} : freqAt (histogram m) b ≠ 0 ↔ b ∈ m := by
  rw [← List.count_pos_iff, ← (histogram_spec h).2 b, ne_eq, ← BitVec.toNat_inj]
  simp

theorem presentBytes_histogram {m : List Byte} (h : m.length < 2 ^ 32) (hm : m ≠ []) :
    presentBytes (histogram m) ≠ [] := by
  obtain ⟨b, hb⟩ := List.exists_mem_of_ne_nil m hm
  exact List.ne_nil_of_mem (mem_presentBytes.mpr ((histogram_ne_zero h).mpr hb))

/-- NSYM holds the number of entries of the table (R30, R78). -/
theorem toNat_nsym (f : Freqs) : (BitVec.ofNat 9 (distinct f)).toNat = (presentBytes f).length := by
  have := length_presentBytes_le f
  rw [BitVec.toNat_ofNat, show distinct f = (presentBytes f).length from rfl]
  omega

theorem length_message_lt (s : State) : (message s).length < 2 ^ 32 := by
  rw [length_message]; exact s.inLen.isLt

theorem message_ne_nil {s : State} (h : 0 < s.inLen.toNat) : message s ≠ [] := by
  intro hm
  have := length_message s
  rw [hm] at this
  simp at this
  omega

/-! ### The three stages as runs -/

theorem runAnalyze_ok {s : State} (h : s.inLen.toNat ≤ s.params.ibufSize) :
    runAnalyze s = .ok (tabulate (clearHidden s)) := by
  rw [runAnalyze, lenFault_none h, require_none, Run.bind_ok]

theorem runAnalyze_raised {s : State} (h : s.params.ibufSize < s.inLen.toNat) :
    runAnalyze s = .raised { code := .lenRange, index := 0, value := s.inLen } (clearHidden s) := by
  rw [runAnalyze, lenFault_some h, require_some, Run.bind_raised]

theorem runBuild_ok {s : State} (h : presentBytes s.freq ≠ []) : runBuild s = .ok (plantTree (clearHidden s)) := by
  rw [runBuild, if_neg h]

theorem runBuild_raised {s : State} (h : presentBytes s.freq = []) :
    runBuild s = .raised { code := .emptyInput, index := 0, value := 0 } { clearHidden s with treeValid := false } := by
  rw [runBuild, if_pos h]

theorem runDerive_ok {s : State} (h : s.treeValid = true) : runDerive s = .ok (writeCodebook (clearHidden s)) := by
  rw [runDerive, if_pos h]

theorem runDerive_raised {s : State} (h : s.treeValid = false) :
    runDerive s = .raised { code := .noTree, index := 0, value := 0 } (clearHidden s) := by
  rw [runDerive, if_neg (by simp [h])]

/-! ### The composite commands (R104, R105, R107) -/

/-- What the stages ANALYZE, BUILD and DERIVE leave, for the counts `f` of the message. -/
def stagedWith (f : Freqs) (s : State) : State :=
  { s with
    freq := f, nsym := BitVec.ofNat 9 (distinct f), node := treeNodes f, root := treeRoot f
    code := (deriveCodes (treeNodes f) (treeRoot f)).1
    maxLen := BitVec.ofNat 8 (longestCode (deriveCodes (treeNodes f) (treeRoot f)).1)
    freqValid := true, treeValid := true
    hidden := { Hidden.empty with stack := (deriveCodes (treeNodes f) (treeRoot f)).2 } }

/-- What the stages ANALYZE, BUILD and DERIVE leave. -/
def staged (s : State) : State := stagedWith (histogram (message s)) s

theorem tabulate_clearHidden (s : State) :
    tabulate (clearHidden s) = { s with
      freq := histogram (message s), nsym := BitVec.ofNat 9 (distinct (histogram (message s)))
      freqValid := true, treeValid := false, hidden := Hidden.empty } := by
  unfold tabulate; rw [message_clearHidden]; rfl

theorem runCodebookStages_ok {s : State} (h₁ : 0 < s.inLen.toNat) (h₂ : s.inLen.toNat ≤ s.params.ibufSize) :
    runCodebookStages s = .ok (staged s) := by
  have hp := presentBytes_histogram (length_message_lt s) (message_ne_nil h₁)
  rw [runCodebookStages, runAnalyze_ok h₂, Run.bind_ok, tabulate_clearHidden, staged]
  generalize histogram (message s) = f at hp
  rw [runBuild_ok hp, Run.bind_ok, runDerive_ok rfl]
  rfl

theorem message_of_inLen_zero {s : State} (h : s.inLen.toNat = 0) : message s = [] := by
  rw [message, h]; rfl

/-- The empty message stops a composite command at its BUILD stage (R104). -/
theorem runCodebookStages_empty {s : State} (h : s.inLen.toNat = 0) :
    runCodebookStages s = .raised { code := .emptyInput, index := 0, value := 0 }
      { s with freq := zeroFreqs, nsym := 0, freqValid := true, treeValid := false, hidden := Hidden.empty } := by
  rw [runCodebookStages, runAnalyze_ok (by omega), tabulate_clearHidden, message_of_inLen_zero h,
    histogram_nil, show distinct zeroFreqs = 0 from congrArg List.length presentBytes_zeroFreqs,
    Run.bind_ok, runBuild_raised, Run.bind_raised]
  · rfl
  · exact presentBytes_zeroFreqs

theorem runCodebookStages_long {s : State} (h : s.params.ibufSize < s.inLen.toNat) :
    runCodebookStages s = .raised { code := .lenRange, index := 0, value := s.inLen } (clearHidden s) := by
  rw [runCodebookStages, runAnalyze_raised h, Run.bind_raised]

/-- The codebook the stages leave: prefix-free, with a code for every byte of the message (R84, R104). -/
theorem staged_code {s : State} (h : 0 < s.inLen.toNat) :
    PrefixFree (staged s).code ∧ Coded (staged s).code (message s) := by
  have hp := presentBytes_histogram (length_message_lt s) (message_ne_nil h)
  obtain ⟨h₁, h₂⟩ := deriveCodes_tree hp
  exact ⟨h₁, fun b hb => (h₂ b).mpr ((histogram_ne_zero (length_message_lt s)).mpr hb)⟩

theorem runCompress_ok {s : State} (h₁ : 0 < s.inLen.toNat) (h₂ : s.inLen.toNat ≤ s.params.ibufSize) :
    runCompress s = runEncpack (staged s) := by
  rw [runCompress, runCodebookStages_ok h₁ h₂, Run.bind_ok]

theorem runEncodeOnly_ok {s : State} (h₁ : 0 < s.inLen.toNat) (h₂ : s.inLen.toNat ≤ s.params.ibufSize) :
    runEncodeOnly s = runEncode (staged s) := by
  rw [runEncodeOnly, runCodebookStages_ok h₁ h₂, Run.bind_ok]

theorem length_encodedBits_le (c : Codes) (m : List Byte) : (encodedBits c m).length ≤ 255 * m.length := by
  induction m with
  | nil => simp [encodedBits]
  | cons b m ih =>
    rw [encodedBits_cons, List.length_append, CodeEntry.length_symbols, List.length_cons]
    have := (codeAt c b).len.isLt
    omega

end Sys2Proof.Machine
end

