-- ==== Sys2Proof/Laws/Effects.lean ====
section
/-! SUPPORT. What the run of any command can do, said once for all of them: the state it may have changed when it
reaches its end or raises, and the errors it may raise (R72, R107, R114, R116). -/

namespace Sys2Proof.Machine

/-- `t` differs from `s` in nothing but what commands write (R72): the tables, their flags, the results, OBUF and the
hidden state. -/
def Wrote (s t : State) : Prop :=
  t = { s with
    freq := t.freq, nsym := t.nsym, node := t.node, root := t.root, code := t.code, maxLen := t.maxLen
    freqValid := t.freqValid, treeValid := t.treeValid, obuf := t.obuf, hidden := t.hidden
    outLen := t.outLen, bitLen := t.bitLen, pad := t.pad }

theorem OutputRun.mono {s : State} {codes codes' : List ErrCode} {m : Run State} (h : OutputRun s codes m)
    (hs : codes ⊆ codes') : OutputRun s codes' m :=
  ⟨h.ends, fun r t e => ⟨hs (h.raised r t e).1, (h.raised r t e).2⟩⟩

/-- The run of a single output command (R91 to R101). -/
theorem runOf_output {i : Instr} (hi : i ∈ [Instr.encode, .encpack, .pack, .unpack, .decode, .decompress]) (s : State) :
    OutputRun s (mayRaise i) (runOf i s) := by
  simp only [List.mem_cons, List.not_mem_nil, or_false] at hi
  rcases hi with rfl | rfl | rfl | rfl | rfl | rfl
  · exact runEncode_spec s
  · exact runEncpack_spec s
  · exact runPack_spec s
  · exact runUnpack_spec s
  · exact runDecode_spec s
  · exact runDecompress_spec s

/-- ENCPACK with a codebook that fits the message can only run out of OBUF. -/
theorem runEncpack_coded {s : State} (h₁ : s.inLen.toNat ≤ s.params.ibufSize) (h₂ : PrefixFree s.code)
    (h₃ : Coded s.code (message s)) : OutputRun s [.obufOverflow] (runEncpack s) := by
  refine .of_require (fun r h => by rw [lenFault_none h₁] at h; cases h) fun _ => ?_
  refine .of_require (fun r h => by
    rw [show (clearHidden s).code = s.code from rfl, codebookFault_none.mpr h₂] at h; cases h) fun _ => ?_
  refine .of_out ?_ ?_ fun o ho => .of_result ho (padCount_le _)
  · exact (forBytes_ends (encodeByte_ends _ packBit_ends) _ _ _ (Out.sound_start _ _)).bind
      fun a ha => packFinish_ends _ a ha
  · refine (forBytes_encode_raises h₃ (fun x i o => packBit_raises _ x i o) _ _).bind fun a => ?_
    exact packFinish_raises _ _ a

/-- ENCODE with a codebook that fits the message can only run out of OBUF. -/
theorem runEncode_coded {s : State} (h₁ : s.inLen.toNat ≤ s.params.ibufSize) (h₂ : PrefixFree s.code)
    (h₃ : Coded s.code (message s)) : OutputRun s [.obufOverflow] (runEncode s) := by
  refine .of_require (fun r h => by rw [lenFault_none h₁] at h; cases h) fun _ => ?_
  refine .of_require (fun r h => by
    rw [show (clearHidden s).code = s.code from rfl, codebookFault_none.mpr h₂] at h; cases h) fun _ => ?_
  refine .of_out ?_ ?_ fun o ho => .of_result ho (by simp)
  · exact forBytes_ends (encodeByte_ends _ emitText_ends) _ _ _ (Out.sound_start _ _)
  · exact forBytes_encode_raises h₃ (fun x i o => emit_raises _ _ i o) _ _

/-- What the run of a composite command is (R104, R105, R107): it fails the length check, or the message is empty, or
it is the run of ENCPACK or ENCODE on what the stages left. -/
theorem runOf_composite {i : Instr} (hi : i ∈ [Instr.compress, .encodeOnly]) (s : State) :
    (s.params.ibufSize < s.inLen.toNat ∧
      runOf i s = .raised { code := .lenRange, index := 0, value := s.inLen } (clearHidden s)) ∨
    (s.inLen.toNat = 0 ∧ runOf i s = .raised { code := .emptyInput, index := 0, value := 0 }
      { s with freq := zeroFreqs, nsym := 0, freqValid := true, treeValid := false, hidden := Hidden.empty }) ∨
    (0 < s.inLen.toNat ∧ s.inLen.toNat ≤ s.params.ibufSize ∧ OutputRun (staged s) [.obufOverflow] (runOf i s)) := by
  simp only [List.mem_cons, List.not_mem_nil, or_false] at hi
  by_cases h₁ : s.params.ibufSize < s.inLen.toNat
  · refine .inl ⟨h₁, ?_⟩
    rcases hi with rfl | rfl <;> simp only [runOf, runCompress, runEncodeOnly, runCodebookStages_long h₁, Run.bind_raised]
  · by_cases h₂ : s.inLen.toNat = 0
    · refine .inr (.inl ⟨h₂, ?_⟩)
      rcases hi with rfl | rfl <;>
        simp only [runOf, runCompress, runEncodeOnly, runCodebookStages_empty h₂, Run.bind_raised]
    · have h₃ : 0 < s.inLen.toNat := by omega
      have h₄ : s.inLen.toNat ≤ s.params.ibufSize := by omega
      refine .inr (.inr ⟨h₃, h₄, ?_⟩)
      obtain ⟨hc, hm⟩ := staged_code h₃
      rcases hi with rfl | rfl
      · rw [runOf, runCompress_ok h₃ h₄]; exact runEncpack_coded (s := staged s) h₄ hc hm
      · rw [runOf, runEncodeOnly_ok h₃ h₄]; exact runEncode_coded (s := staged s) h₄ hc hm

/-- Whatever a command's run ends in, it wrote nothing else (R72, R107, R117). -/
theorem runOf_wrote (i : Instr) (s : State) : Wrote s (runOf i s).left := by
  have hout : ∀ i ∈ [Instr.encode, .encpack, .pack, .unpack, .decode, .decompress], Wrote s (runOf i s).left := by
    intro i hi
    have h := runOf_output hi s
    cases hr : runOf i s with
    | ok t => obtain ⟨o, b, p, -, -, rfl⟩ := h.ends t hr; rfl
    | raised r t => obtain ⟨-, o, rfl⟩ := h.raised r t hr; rfl
  have hcomp : ∀ i ∈ [Instr.compress, .encodeOnly], Wrote s (runOf i s).left := by
    intro i hi
    rcases runOf_composite hi s with ⟨-, h⟩ | ⟨-, h⟩ | ⟨-, -, h⟩
    · rw [h]; rfl
    · rw [h]; rfl
    · cases hr : runOf i s with
      | ok t => obtain ⟨o, b, p, -, -, rfl⟩ := h.ends t hr; rfl
      | raised r t => obtain ⟨-, o, rfl⟩ := h.raised r t hr; rfl
  cases i with
  | nop => rfl
  | analyze =>
    by_cases h : s.inLen.toNat ≤ s.params.ibufSize
    · rw [runOf, runAnalyze_ok h, tabulate_clearHidden]; rfl
    · rw [runOf, runAnalyze_raised (by omega)]; rfl
  | build =>
    by_cases h : presentBytes s.freq = []
    · rw [runOf, runBuild_raised h]; rfl
    · rw [runOf, runBuild_ok h]; rfl
  | derive =>
    cases h : s.treeValid
    · rw [runOf, runDerive_raised h]; rfl
    · rw [runOf, runDerive_ok h]; rfl
  | encode => exact hout _ (by simp)
  | encpack => exact hout _ (by simp)
  | pack => exact hout _ (by simp)
  | unpack => exact hout _ (by simp)
  | decode => exact hout _ (by simp)
  | decompress => exact hout _ (by simp)
  | compress => exact hcomp _ (by simp)
  | encodeOnly => exact hcomp _ (by simp)
  | reserved w => rfl

/-- The errors of each command (R116, R118). -/
theorem runOf_raises (i : Instr) (s : State) : (runOf i s).Raises (mayRaise i) := by
  intro r t hr
  have hout : ∀ i ∈ [Instr.encode, .encpack, .pack, .unpack, .decode, .decompress], runOf i s = .raised r t →
      r.code ∈ mayRaise i := fun i hi hr => ((runOf_output hi s).raised r t hr).1
  have hcomp : ∀ i ∈ [Instr.compress, .encodeOnly], runOf i s = .raised r t →
      r.code ∈ [ErrCode.lenRange, .emptyInput, .obufOverflow] := by
    intro i hi hr
    rcases runOf_composite hi s with ⟨-, h⟩ | ⟨-, h⟩ | ⟨-, -, h⟩
    · rw [h] at hr; cases hr; simp
    · rw [h] at hr; cases hr; simp
    · have := (h.raised r t hr).1
      simp only [List.mem_cons, List.not_mem_nil, or_false] at this
      simp [this]
  cases i with
  | nop => cases hr
  | analyze =>
    by_cases h : s.inLen.toNat ≤ s.params.ibufSize
    · rw [runOf, runAnalyze_ok h] at hr; cases hr
    · rw [runOf, runAnalyze_raised (by omega)] at hr; cases hr; simp [mayRaise]
  | build =>
    by_cases h : presentBytes s.freq = []
    · rw [runOf, runBuild_raised h] at hr; cases hr; simp [mayRaise]
    · rw [runOf, runBuild_ok h] at hr; cases hr
  | derive =>
    cases h : s.treeValid
    · rw [runOf, runDerive_raised h] at hr; cases hr; simp [mayRaise]
    · rw [runOf, runDerive_ok h] at hr; cases hr
  | encode => exact hout _ (by simp) hr
  | encpack => exact hout _ (by simp) hr
  | pack => exact hout _ (by simp) hr
  | unpack => exact hout _ (by simp) hr
  | decode => exact hout _ (by simp) hr
  | decompress => exact hout _ (by simp) hr
  | compress => exact hcomp _ (by simp) hr
  | encodeOnly => exact hcomp _ (by simp) hr
  | reserved w => cases hr; simp [mayRaise]

/-- What `exec` answers, as a completion of what the run left. -/
theorem exec_cases (i : Instr) (s : State) :
    (∃ t, runOf i s = .ok t ∧ Wrote s t ∧ exec i s = .next (completeOk t)) ∨
    ∃ r t, runOf i s = .raised r t ∧ Wrote s t ∧ r.code ∈ mayRaise i ∧
      exec i s = .next (raiseError (isOutput i) r t) := by
  have hw := runOf_wrote i s
  cases hr : runOf i s with
  | ok t => rw [hr] at hw; exact .inl ⟨t, rfl, hw, exec_ok hr⟩
  | raised r t => rw [hr] at hw; exact .inr ⟨r, t, rfl, hw, runOf_raises i s r t hr, exec_raised hr⟩

end Sys2Proof.Machine
end

