-- ==== Sys2Proof/Laws/Aside.lean ====
section
/-! SUPPORT. The output commands read nothing but IN_LEN, IBUF, CODE and the parameters (R38, R72): what stands in the
rest of the state passes through them untouched. -/

namespace Sys2Proof.Machine

/-- A change of the state that no output command can see. -/
structure Aside (φ : State → State) : Prop where
  params : ∀ s, (φ s).params = s.params
  inLen : ∀ s, (φ s).inLen = s.inLen
  ibuf : ∀ s, (φ s).ibuf = s.ibuf
  code : ∀ s, (φ s).code = s.code
  obuf : ∀ s, (φ s).obuf = s.obuf
  hidden : ∀ s, (φ s).hidden = s.hidden
  clear : ∀ s, clearHidden (φ s) = φ (clearHidden s)
  out : ∀ (s : State) (o : Out),
    ({ φ s with obuf := o.obuf, hidden := o.hidden } : State) = φ { s with obuf := o.obuf, hidden := o.hidden }
  result : ∀ a b c s, setResult a b c (φ s) = φ (setResult a b c s)

/-- The state a run left, changed. -/
def Run.map {σ : Type} (φ : σ → σ) : Run σ → Run σ
  | .ok a => .ok (φ a)
  | .raised r a => .raised r (φ a)

theorem Run.map_bind {σ : Type} {φ : σ → σ} {m m' : Run σ} {f f' : σ → Run σ} (hm : m' = m.map φ)
    (hf : ∀ a, f' (φ a) = (f a).map φ) : m'.bind f' = (m.bind f).map φ := by
  subst hm
  cases m with
  | ok a => exact hf a
  | raised r a => rfl

theorem require_map {σ : Type} (φ : σ → σ) (fault : Option Raised) (a : σ) :
    require fault (φ a) = (require fault a).map φ := by
  cases fault <;> rfl

theorem require_aside {σ : Type} (φ : σ → σ) {fault fault' : Option Raised} {a a' : σ} (hf : fault' = fault)
    (ha : a' = φ a) : require fault' a' = (require fault a).map φ := by
  subst hf; subst ha; exact require_map φ fault' a

variable {φ : State → State}

theorem Aside.message (h : Aside φ) (s : State) : message (φ s) = message s := by
  unfold Machine.message; rw [h.inLen, h.ibuf]

theorem Aside.lenFault (h : Aside φ) (s : State) : lenFault (φ s) = lenFault s := by
  unfold Machine.lenFault; rw [h.inLen, h.params]

theorem Aside.paddingCount (h : Aside φ) (s : State) : paddingCount (φ s) = paddingCount s := by
  unfold Machine.paddingCount; rw [h.inLen, h.ibuf]

theorem Aside.paddingFault (h : Aside φ) (s : State) : paddingFault (φ s) = paddingFault s := by
  unfold Machine.paddingFault; rw [h.inLen, h.paddingCount]

theorem Aside.packedInput (h : Aside φ) (f : Bool → Nat → Out → Run Out) (s : State) (o : Out) :
    packedInput f (φ s) o = packedInput f s o := by
  unfold Machine.packedInput dataBytes finalSymbols
  rw [h.message, h.inLen, h.ibuf, h.paddingCount]

theorem Aside.onOut (h : Aside φ) {f f' : Out → Run Out} {s : State} (hf : ∀ o, f' o = f o) :
    onOut f' (φ s) = (onOut f s).map φ := by
  unfold Machine.onOut
  rw [hf, h.obuf, h.hidden]
  cases f { obuf := s.obuf, hidden := s.hidden } with
  | ok o => exact congrArg Run.ok (h.out s o)
  | raised r o => exact congrArg (Run.raised r) (h.out s o)

/-- The single output commands pass it through. -/
theorem Aside.runOf (h : Aside φ) {i : Instr} (hi : i ∈ [Instr.encode, .encpack, .pack, .unpack, .decode, .decompress])
    (s : State) : runOf i (φ s) = (runOf i s).map φ := by
  simp only [List.mem_cons, List.not_mem_nil, or_false] at hi
  rcases hi with rfl | rfl | rfl | rfl | rfl | rfl <;> simp only [Machine.runOf]
  · refine Run.map_bind (require_aside φ (h.lenFault s) (h.clear s)) fun s => ?_
    refine Run.map_bind (require_aside φ (by rw [h.code]) rfl) fun s => ?_
    refine Run.map_bind (h.onOut fun o => ?_) fun s => ?_
    · unfold encodeOut; rw [h.code, h.params, h.message]
    · unfold encodeResult; rw [h.hidden, h.result]; rfl
  · refine Run.map_bind (require_aside φ (h.lenFault s) (h.clear s)) fun s => ?_
    refine Run.map_bind (require_aside φ (by rw [h.code]) rfl) fun s => ?_
    refine Run.map_bind (h.onOut fun o => ?_) fun s => ?_
    · unfold encpackOut; rw [h.code, h.params, h.message, h.inLen]
    · unfold packResult; rw [h.hidden, h.result]; rfl
  · refine Run.map_bind (require_aside φ (h.lenFault s) (h.clear s)) fun s => ?_
    refine Run.map_bind (h.onOut fun o => ?_) fun s => ?_
    · unfold packOut; rw [h.params, h.message, h.inLen]
    · unfold packResult; rw [h.hidden, h.result]; rfl
  · refine Run.map_bind (require_aside φ (h.lenFault s) (h.clear s)) fun s => ?_
    refine Run.map_bind (require_aside φ (h.paddingFault s) rfl) fun s => ?_
    refine Run.map_bind (h.onOut fun o => ?_) fun s => ?_
    · rw [h.params, h.packedInput]
    · unfold unpackResult; rw [h.hidden, h.paddingCount, h.result]; rfl
  · refine Run.map_bind (require_aside φ (h.lenFault s) (h.clear s)) fun s => ?_
    refine Run.map_bind (require_aside φ (by rw [h.code]) rfl) fun s => ?_
    refine Run.map_bind (h.onOut fun o => ?_) fun s => ?_
    · unfold decodeOut; rw [h.params, h.code, h.message]
    · refine Run.map_bind (require_aside φ (by rw [h.inLen, h.hidden]) rfl) fun s => ?_
      unfold decodeResult; rw [h.hidden, h.inLen, h.result]; rfl
  · refine Run.map_bind (require_aside φ (h.lenFault s) (h.clear s)) fun s => ?_
    refine Run.map_bind (require_aside φ (h.paddingFault s) rfl) fun s => ?_
    refine Run.map_bind (require_aside φ (by rw [h.code]) rfl) fun s => ?_
    refine Run.map_bind (h.onOut fun o => ?_) fun s => ?_
    · rw [h.params, h.code, h.packedInput]
    · refine Run.map_bind (require_aside φ (by rw [h.inLen, h.hidden]) rfl) fun s => ?_
      unfold unpackResult; rw [h.hidden, h.paddingCount, h.result]; rfl

/-- The completion state is aside. -/
theorem aside_completion (d : Bool) (p : Phase) : Aside fun s => { s with done := d, phase := p } :=
  ⟨fun _ => rfl, fun _ => rfl, fun _ => rfl, fun _ => rfl, fun _ => rfl, fun _ => rfl, fun _ => rfl, fun _ _ => rfl,
    fun _ _ _ _ => rfl⟩

/-- A single output command does the same from any completion state and hidden state (R45). -/
theorem exec_entered {i : Instr} (hi : i ∈ [Instr.encode, .encpack, .pack, .unpack, .decode, .decompress]) (s : State)
    (h : Hidden) (d : Bool) (p : Phase) : exec i { s with hidden := h, done := d, phase := p } = exec i s := by
  have h₁ : runOf i { s with hidden := h, done := d, phase := p } = runOf i { s with done := d, phase := p } := by
    simp only [List.mem_cons, List.not_mem_nil, or_false] at hi
    rcases hi with rfl | rfl | rfl | rfl | rfl | rfl <;> rfl
  rw [exec_eq, exec_eq, h₁, (aside_completion d p).runOf hi s]
  cases runOf i s with
  | ok t => rfl
  | raised r t => cases isOutput i <;> rfl

/-! ### The bus is aside of every command (R15, R54) -/

/-- The bus side of the state replaced: what the host will do, what is held, what was answered, how long the command
still waits. -/
def withPort (es : List HostEvent) (ts : List Transaction) (as : List Answer) (n : Nat) (s : State) : State :=
  { s with input := es, held := ts, answers := as, work := n }

theorem aside_port (es : List HostEvent) (ts : List Transaction) (as : List Answer) (n : Nat) :
    Aside (withPort es ts as n) :=
  ⟨fun _ => rfl, fun _ => rfl, fun _ => rfl, fun _ => rfl, fun _ => rfl, fun _ => rfl, fun _ => rfl, fun _ _ => rfl,
    fun _ _ _ _ => rfl⟩

theorem tabulate_port (es : List HostEvent) (ts : List Transaction) (as : List Answer) (n : Nat) (s : State) :
    tabulate (withPort es ts as n s) = withPort es ts as n (tabulate s) := by
  unfold tabulate
  rw [(aside_port es ts as n).message]
  generalize histogram (message s) = f
  rfl

theorem runCodebookStages_port (es : List HostEvent) (ts : List Transaction) (as : List Answer) (n : Nat) (s : State) :
    runAnalyze (withPort es ts as n s) = (runAnalyze s).map (withPort es ts as n) ∧
    runBuild (withPort es ts as n s) = (runBuild s).map (withPort es ts as n) ∧
    runDerive (withPort es ts as n s) = (runDerive s).map (withPort es ts as n) := by
  refine ⟨?_, ?_, ?_⟩
  · refine Run.map_bind (require_aside _ rfl rfl) fun s => ?_
    rw [tabulate_port]; rfl
  · unfold runBuild
    simp only [show (withPort es ts as n s).freq = s.freq from rfl]
    split <;> rfl
  · unfold runDerive
    simp only [show (withPort es ts as n s).treeValid = s.treeValid from rfl]
    split <;> rfl

/-- The run of a command does not read the bus side and leaves it. -/
theorem runOf_port (i : Instr) (es : List HostEvent) (ts : List Transaction) (as : List Answer) (n : Nat) (s : State) :
    runOf i (withPort es ts as n s) = (runOf i s).map (withPort es ts as n) := by
  have hstages : ∀ s, runCodebookStages (withPort es ts as n s) = (runCodebookStages s).map (withPort es ts as n) :=
    fun s => Run.map_bind (runCodebookStages_port es ts as n s).1 fun s =>
      Run.map_bind (runCodebookStages_port es ts as n s).2.1 fun s => (runCodebookStages_port es ts as n s).2.2
  cases i with
  | nop => rfl
  | analyze => exact (runCodebookStages_port es ts as n s).1
  | build => exact (runCodebookStages_port es ts as n s).2.1
  | derive => exact (runCodebookStages_port es ts as n s).2.2
  | encode => exact (aside_port es ts as n).runOf (by simp) s
  | encpack => exact (aside_port es ts as n).runOf (by simp) s
  | pack => exact (aside_port es ts as n).runOf (by simp) s
  | unpack => exact (aside_port es ts as n).runOf (by simp) s
  | decode => exact (aside_port es ts as n).runOf (by simp) s
  | decompress => exact (aside_port es ts as n).runOf (by simp) s
  | compress => exact Run.map_bind (hstages s) fun s => (aside_port es ts as n).runOf (i := .encpack) (by simp) s
  | encodeOnly => exact Run.map_bind (hstages s) fun s => (aside_port es ts as n).runOf (i := .encode) (by simp) s
  | reserved w => rfl

/-- A command's effect does not depend on the bus side and leaves it (R15, R72). -/
theorem exec_port {i : Instr} {s t : State} (h : exec i s = .next t) (es : List HostEvent) (ts : List Transaction)
    (as : List Answer) (n : Nat) : exec i (withPort es ts as n s) = .next (withPort es ts as n t) := by
  rw [exec_eq] at h ⊢
  rw [runOf_port]
  cases hr : runOf i s with
  | ok u =>
    rw [hr] at h
    cases h; rfl
  | raised r u =>
    rw [hr] at h
    cases h
    cases isOutput i <;> rfl

end Sys2Proof.Machine
end

