-- ==== Sys2Proof/Laws/Fails.lean ====
section
/-! SUPPORT. The first error of an output command (R118): for each loop, that it raises at the first symbol or byte that
fails, with that symbol's IBUF index; and for each command, the data on which it raises each of its errors. -/

namespace Sys2Proof.Machine

variable {σ : Type}

/-- The run raises `r`. -/
def Run.Fails (r : Raised) (m : Run σ) : Prop := ∃ a, m = .raised r a

theorem Run.Fails.bind {r : Raised} {m : Run σ} {f : σ → Run σ} (h : m.Fails r) : (m.bind f).Fails r := by
  obtain ⟨a, rfl⟩ := h
  exact ⟨a, rfl⟩

theorem Run.Fails.bind_ok {r : Raised} {m : Run σ} {f : σ → Run σ} {a : σ} (h : m = .ok a) (hf : (f a).Fails r) :
    (m.bind f).Fails r := by
  subst h; exact hf

theorem emit_fails {p : Params} {o : Out} (v : Byte) (i : Nat) (h : o.hidden.outIdx = p.obufSize) :
    (emit p v i o).Fails
      { code := .obufOverflow, index := BitVec.ofNat 32 i, value := BitVec.ofNat 32 p.obufSize } := by
  rw [emit_raised v i (by omega), h]
  exact ⟨_, rfl⟩

/-! ### The loops -/

section Loops

variable {f : Bool → Nat → Out → Run Out} {st : Bits → Out} {E : Bits} {r : Raised}

/-- A string of symbols whose first failing one is `x`, after `E`. -/
theorem forSymbols_fails (hf : ∀ D x i, D ++ [x] <+: E → f x i (st D) = .ok (st (D ++ [x]))) {i : Nat} {x : Bool}
    (hx : (f x i (st E)).Fails r) {xs D rest : Bits} (h : D ++ xs = E ++ x :: rest) (hD : D <+: E) :
    (forSymbols f i xs (st D)).Fails r := by
  induction xs generalizing D with
  | nil =>
    have hlen := congrArg List.length h
    have := hD.length_le
    simp at hlen
    omega
  | cons y ys ih =>
    rw [forSymbols]
    by_cases hDE : D = E
    · subst hDE
      have hy : y = x := (List.cons.inj (List.append_cancel_left h)).1
      subst hy
      exact hx.bind
    · have h₁ : (D ++ [y]) ++ ys = E ++ x :: rest := by simpa using h
      have h₂ : D ++ [y] <+: E := by
        have h₃ : D ++ [y] <+: E ++ x :: rest := h₁ ▸ List.prefix_append _ _
        rcases List.prefix_or_prefix_of_prefix h₃ (List.prefix_append E (x :: rest)) with h₄ | h₄
        · exact h₄
        · have h₅ := h₄.length_le
          have h₆ := hD.length_le
          simp only [List.length_append, List.length_cons, List.length_nil] at h₅
          have h₇ : D.length ≠ E.length := fun h' => hDE (hD.eq_of_length h')
          rw [h₄.eq_of_length (by simp; omega)]
      exact Run.Fails.bind_ok (hf D y i h₂) (ih h₁ h₂)

/-- ENCODE's loop at a byte without a valid code (R91). -/
theorem forBytes_unknown {c : Codes} (hf : ∀ D x i, D ++ [x] <+: E → f x i (st D) = .ok (st (D ++ [x])))
    (i : Nat) {m₁ m₂ : List Byte} {b : Byte} {D : Bits} (hm : Coded c m₁) (hb : (codeAt c b).valid = false)
    (h : D ++ encodedBits c m₁ <+: E) :
    (forBytes (encodeByte c f) i (m₁ ++ b :: m₂) (st D)).Fails
      { code := .unknownSymbol, index := BitVec.ofNat 32 (i + m₁.length), value := b.setWidth 32 } := by
  induction m₁ generalizing D i with
  | nil =>
    rw [List.nil_append, forBytes, encodeByte, if_neg (by simp [hb])]
    exact Run.Fails.bind ⟨_, rfl⟩
  | cons d m₁ ih =>
    rw [encodedBits_cons, ← List.append_assoc] at h
    rw [List.cons_append, forBytes, encodeByte, if_pos (hm d (by simp)),
      forSymbols_ok hf i _ D ((List.prefix_append _ _).trans h), Run.bind_ok]
    have := ih (i + 1) (fun b' h' => hm b' (by simp [h'])) h
    rwa [show i + 1 + m₁.length = i + (d :: m₁).length by simp; omega] at this

/-- ENCODE's loop at the byte one of whose symbols fails (R91, R92). -/
theorem forBytes_encode_fails {c : Codes} (hf : ∀ D x i, D ++ [x] <+: E → f x i (st D) = .ok (st (D ++ [x])))
    {i : Nat} {m₁ m₂ : List Byte} {b : Byte} {D rest : Bits} {x : Bool} (hm : Coded c (m₁ ++ [b]))
    (h₁ : D ++ encodedBits c m₁ <+: E) (h₂ : D ++ encodedBits c (m₁ ++ [b]) = E ++ x :: rest)
    (hx : (f x (i + m₁.length) (st E)).Fails r) :
    (forBytes (encodeByte c f) i (m₁ ++ b :: m₂) (st D)).Fails r := by
  induction m₁ generalizing D i with
  | nil =>
    rw [List.nil_append, forBytes, encodeByte, if_pos (hm b (by simp))]
    refine Run.Fails.bind (forSymbols_fails hf hx (rest := rest) ?_ ?_)
    · simpa [encodedBits] using h₂
    · simpa [encodedBits] using h₁
  | cons d m₁ ih =>
    rw [encodedBits_cons, ← List.append_assoc] at h₁
    rw [List.cons_append, encodedBits_cons, ← List.append_assoc] at h₂
    rw [List.cons_append, forBytes, encodeByte, if_pos (hm d (by simp)),
      forSymbols_ok hf i _ D ((List.prefix_append _ _).trans h₁), Run.bind_ok]
    refine ih (fun b' h' => hm b' (by simp at h' ⊢; tauto)) h₁ h₂ ?_
    rwa [show i + 1 + m₁.length = i + (d :: m₁).length by simp; omega]

/-- The text loop at a byte that is no text bit (R93, R100). -/
theorem forBytes_badBitchar (hf : ∀ D x i, D ++ [x] <+: E → f x i (st D) = .ok (st (D ++ [x])))
    (i : Nat) {e D : Bits} {c : Byte} {m : List Byte} (hc : isTextBit c = false) (h : D ++ e <+: E) :
    (forBytes (textInput f) i (textBits e ++ c :: m) (st D)).Fails
      { code := .badBitchar, index := BitVec.ofNat 32 (i + e.length), value := c.setWidth 32 } := by
  induction e generalizing D i with
  | nil =>
    rw [show textBits [] ++ c :: m = c :: m from rfl, forBytes, textInput, if_neg (by simp [hc])]
    exact Run.Fails.bind ⟨_, rfl⟩
  | cons x e ih =>
    obtain ⟨h₁, h₂⟩ := prefix_of_cons h
    rw [show textBits (x :: e) ++ c :: m = textByte x :: (textBits e ++ c :: m) from rfl, forBytes, textInput,
      if_pos (isTextBit_textByte x), textSymbol_textByte, hf D x i h₁, Run.bind_ok]
    have := ih (i + 1) h₂
    rwa [show i + 1 + e.length = i + (x :: e).length by simp; omega] at this

/-- The text loop at a symbol that fails (R93, R100). -/
theorem forBytes_text_fails (hf : ∀ D x i, D ++ [x] <+: E → f x i (st D) = .ok (st (D ++ [x])))
    {i : Nat} {e D : Bits} {x : Bool} {m : List Byte} (h : D ++ e = E) (hx : (f x (i + e.length) (st E)).Fails r) :
    (forBytes (textInput f) i (textBits (e ++ [x]) ++ m) (st D)).Fails r := by
  induction e generalizing D i with
  | nil =>
    have hDE : D = E := by simpa using h
    subst hDE
    rw [show textBits ([] ++ [x]) ++ m = textByte x :: m from rfl, forBytes, textInput,
      if_pos (isTextBit_textByte x), textSymbol_textByte]
    exact hx.bind
  | cons y e ih =>
    obtain ⟨h₁, -⟩ := prefix_of_cons (show D ++ y :: e <+: E from by rw [h])
    rw [show textBits (y :: e ++ [x]) ++ m = textByte y :: (textBits (e ++ [x]) ++ m) from rfl, forBytes, textInput,
      if_pos (isTextBit_textByte y), textSymbol_textByte, hf D y i h₁, Run.bind_ok]
    refine ih (by simpa using h) ?_
    rwa [show i + 1 + e.length = i + (y :: e).length by simp; omega]

theorem feedBits_fails
    (hf : ∀ D x i ys, D ++ [x] <+: E → f x i ((st D).withInBits ys) = .ok ((st (D ++ [x])).withInBits ys))
    {i : Nat} {x : Bool} (hx : ∀ ys, (f x i ((st E).withInBits ys)).Fails r) {xs D ys rest : Bits}
    (h : D ++ xs = E ++ x :: rest) (hD : D <+: E) : (feedBits f i xs ((st D).withInBits ys)).Fails r := by
  induction xs generalizing D ys with
  | nil =>
    have hlen := congrArg List.length h
    have := hD.length_le
    simp at hlen
    omega
  | cons y zs ih =>
    have h₃ : ({ (st D).withInBits ys with hidden := { ((st D).withInBits ys).hidden with inBits := zs } } : Out)
        = (st D).withInBits zs := rfl
    rw [feedBits, h₃]
    by_cases hDE : D = E
    · subst hDE
      have hy : y = x := (List.cons.inj (List.append_cancel_left h)).1
      subst hy
      exact (hx zs).bind
    · have h₁ : (D ++ [y]) ++ zs = E ++ x :: rest := by simpa using h
      have h₂ : D ++ [y] <+: E := by
        have h₃ : D ++ [y] <+: E ++ x :: rest := h₁ ▸ List.prefix_append _ _
        rcases List.prefix_or_prefix_of_prefix h₃ (List.prefix_append E (x :: rest)) with h₄ | h₄
        · exact h₄
        · have h₅ := h₄.length_le
          have h₆ := hD.length_le
          simp only [List.length_append, List.length_cons, List.length_nil] at h₅
          have h₇ : D.length ≠ E.length := fun h' => hDE (hD.eq_of_length h')
          rw [h₄.eq_of_length (by simp; omega)]
      exact Run.Fails.bind_ok (hf D y i zs h₂) (ih h₁ h₂)

theorem length_flatMap_bits8 (data : List Byte) : (data.flatMap bits8).length = 8 * data.length := by
  induction data with
  | nil => rfl
  | cons b data ih => rw [List.flatMap_cons, List.length_append, ih, length_bits8, List.length_cons]; omega

theorem forBytes_feed_fails
    (hf : ∀ D x i ys, D ++ [x] <+: E → f x i ((st D).withInBits ys) = .ok ((st (D ++ [x])).withInBits ys))
    {i : Nat} {x : Bool} {data : List Byte} {D rest : Bits} (h : D ++ data.flatMap bits8 = E ++ x :: rest) (hD : D <+: E)
    (hx : ∀ ys, (f x (i + (E.length - D.length) / 8) ((st E).withInBits ys)).Fails r) :
    (forBytes (fun b i => feedBits f i (bits8 b)) i data ((st D).withInBits [])).Fails r := by
  induction data generalizing D i with
  | nil =>
    have hlen := congrArg List.length h
    have := hD.length_le
    simp at hlen
    omega
  | cons b data ih =>
    rw [List.flatMap_cons, ← List.append_assoc] at h
    have hlen := hD.length_le
    rw [forBytes]
    by_cases h₈ : E.length < D.length + 8
    · rw [show (E.length - D.length) / 8 = 0 by omega, Nat.add_zero] at hx
      refine Run.Fails.bind ?_
      have hp : E ++ [x] <+: D ++ bits8 b := by
        have h₁ : E ++ [x] <+: (D ++ bits8 b) ++ data.flatMap bits8 := by
          rw [h, show E ++ x :: rest = (E ++ [x]) ++ rest by simp]; exact List.prefix_append _ _
        exact List.prefix_of_prefix_length_le h₁ (List.prefix_append _ _) (by simp; omega)
      obtain ⟨rest', hr⟩ := hp
      exact feedBits_fails hf hx (rest := rest') (by simp [← hr]) hD
    · have hp : D ++ bits8 b <+: E := by
        have h₁ : E <+: (D ++ bits8 b) ++ data.flatMap bits8 := by rw [h]; exact List.prefix_append _ _
        exact List.prefix_of_prefix_length_le (List.prefix_append _ _) h₁ (by simp; omega)
      rw [feedBits_ok hf i _ D [] hp, Run.bind_ok]
      refine ih h hp fun ys => ?_
      have := hx ys
      rwa [show i + (E.length - D.length) / 8 = i + 1 + (E.length - (D ++ bits8 b).length) / 8 by
        rw [List.length_append, length_bits8]; omega] at this

/-- The delivery of packed bits at the symbol number `E.length`, which fails (R96). -/
theorem forPackedBits_fails
    (hf : ∀ D x i ys, D ++ [x] <+: E → f x i ((st D).withInBits ys) = .ok ((st (D ++ [x])).withInBits ys))
    {x : Bool} {data : List Byte} {final rest : Bits} {last : Nat} (h : data.flatMap bits8 ++ final = E ++ x :: rest)
    (hx : ∀ ys, (f x (if E.length < 8 * data.length then E.length / 8 else last) ((st E).withInBits ys)).Fails r) :
    (forPackedBits f data final last ((st []).withInBits [])).Fails r := by
  unfold forPackedBits
  have hlen := length_flatMap_bits8 data
  by_cases hE : E.length < 8 * data.length
  · rw [if_pos hE] at hx
    refine Run.Fails.bind ?_
    have hp : E ++ [x] <+: data.flatMap bits8 := by
      have h₁ : E ++ [x] <+: data.flatMap bits8 ++ final := by
        rw [h, show E ++ x :: rest = (E ++ [x]) ++ rest by simp]; exact List.prefix_append _ _
      exact List.prefix_of_prefix_length_le h₁ (List.prefix_append _ _) (by simp; omega)
    obtain ⟨rest', hr⟩ := hp
    exact forBytes_feed_fails hf (i := 0) (x := x) (D := []) (rest := rest') (by simp [← hr]) List.nil_prefix (by simpa using hx)
  · rw [if_neg hE] at hx
    have hp : data.flatMap bits8 <+: E := by
      have h₁ : E <+: data.flatMap bits8 ++ final := by rw [h]; exact List.prefix_append _ _
      exact List.prefix_of_prefix_length_le (List.prefix_append _ _) h₁ (by omega)
    refine Run.Fails.bind_ok (forBytes_feed_ok hf 0 data [] (by simpa using hp)) ?_
    exact feedBits_fails hf hx (rest := rest) (by simpa using h) (by simpa using hp)

end Loops

/-! ### The steps that fail -/

theorem emitText_fails (p : Params) (m : Memory) {E : Bits} (x : Bool) (i : Nat) (h : E.length = p.obufSize) :
    (emitText p x i (textState m false E)).Fails
      { code := .obufOverflow, index := BitVec.ofNat 32 i, value := BitVec.ofNat 32 p.obufSize } :=
  emit_fails _ i h

theorem emitTextCounted_fails (p : Params) (m : Memory) {E : Bits} (x : Bool) (i : Nat) (ys : Bits)
    (h : E.length = p.obufSize) :
    (emitTextCounted p x i ((textState m true E).withInBits ys)).Fails
      { code := .obufOverflow, index := BitVec.ofNat 32 i, value := BitVec.ofNat 32 p.obufSize } :=
  (emit_fails _ i (by exact h)).bind

theorem packBit_fails (p : Params) (m : Memory) {E : Bits} (x : Bool) (i : Nat) (h : E.length + 1 = 8 * (p.obufSize + 1)) :
    (packBit p x i (packState m E)).Fails
      { code := .obufOverflow, index := BitVec.ofNat 32 i, value := BitVec.ofNat 32 p.obufSize } := by
  have hl := length_remainder E
  unfold packBit
  rw [if_pos (show ((packState m E).hidden.acc ++ [x]).length = 8 from by
    rw [List.length_append, show (packState m E).hidden.acc = remainder E from rfl, hl]; simp; omega)]
  exact (emit_fails _ i (by simp only [packState]; omega)).bind

/-- The trailer that does not fit (R89). -/
theorem packFinish_fails (p : Params) (m : Memory) (D : Bits) (i : Nat) (h₁ : D.length / 8 ≤ p.obufSize)
    (h₂ : p.obufSize < D.length / 8 + 2) :
    (packFinish p i (packState m D)).Fails
      { code := .obufOverflow, index := BitVec.ofNat 32 i, value := BitVec.ofNat 32 p.obufSize } := by
  unfold packFinish
  by_cases h : D.length / 8 = p.obufSize
  · exact (emit_fails _ i h).bind
  · exact Run.Fails.bind_ok (emit_ok _ i (show (packState m D).hidden.outIdx < p.obufSize from by
      simp only [packState]; omega)) (emit_fails _ i (by simp only [packState]; omega))

/-! ### The decoder on symbols that start no code (R97, R98) -/

theorem NoCodeStarts.left {c : Codes} {s t : Bits} (h : NoCodeStarts c (s ++ t)) : NoCodeStarts c s := by
  intro b hb hp
  rw [bitPrefix_iff] at hp
  exact h b hb (bitPrefix_iff.mpr (hp.trans (List.prefix_append s t)))

/-- They gather in the accumulator. -/
theorem matched_tail {c : Codes} {D : Bits} {bs : List Byte} (hD : matched c D = (bs, [])) {e : Bits}
    (he : NoCodeStarts c e) : matched c (D ++ e) = (bs, e) := by
  induction e using List.reverseRecOn with
  | nil => simpa using hD
  | append_singleton e x ih =>
    rw [← List.append_assoc, matched_snoc, ih he.left, matchStep]
    cases hl : ringLookup c (e ++ [x]) with
    | none => simp
    | some b =>
      obtain ⟨h₁, h₂⟩ := ringLookup_some hl
      exact absurd (bitPrefix_iff.mpr (by rw [h₂])) (he b h₁)

/-- OBUF and the hidden state after the symbols `D`, the first `k` of them the codes of a message: the accumulator
overflows at the 256th symbol beyond them (R97). -/
def tailState (c : Codes) (m : Memory) (counted : Bool) (k : Nat) (D : Bits) : Out :=
  if D.length ≤ k + 255 then decodeState c m counted D
  else
    { obuf := (decodeState c m counted (D.take (k + 255))).obuf
      hidden := { (decodeState c m counted (D.take (k + 255))).hidden with
        dead := true, nbits := if counted then D.length else 0 } }

theorem decodeBit_dead (p : Params) (c : Codes) (x : Bool) (i : Nat) {o : Out} (h : o.hidden.dead = true) :
    decodeBit p c x i o = .ok o := by rw [decodeBit, if_pos h]

theorem decodeBit_overflow (p : Params) (c : Codes) (x : Bool) (i : Nat) {o : Out} (h₁ : o.hidden.dead = false)
    (h₂ : o.hidden.dacc.length = 255) :
    decodeBit p c x i o = .ok { o with hidden := { o.hidden with dead := true } } := by
  rw [decodeBit, if_neg (by simp [h₁]), if_pos (show o.hidden.dacc.length = Config.maxCodeLen from h₂)]

section Tail

variable {c : Codes} (hc : PrefixFree c) {m : List Byte} (hm : Coded c m) {e : Bits} (he : NoCodeStarts c e)
  {p : Params} (hs : m.length ≤ p.obufSize)
include hc hm he hs

/-- What the decoder holds along the codes of a message and a tail that starts no code. -/
theorem tail_along {D : Bits} {x : Bool} (h : D ++ [x] <+: encodedBits c m ++ e) :
    (D.length < (encodedBits c m).length ∧ (matched c D).2.length < 255 ∧ (matched c (D ++ [x])).1.length ≤ p.obufSize) ∨
    (∃ e', D = encodedBits c m ++ e' ∧ matched c D = (m, e') ∧ matched c (D ++ [x]) = (m, e' ++ [x])) := by
  have h₀ := matched_encoded hc hm (matched_nil c)
  simp only [List.nil_append] at h₀
  rcases prefix_append_cases h with h' | ⟨D', hD', h'⟩
  · left
    have := h'.length_le
    simp only [List.length_append, List.length_cons, List.length_nil] at this
    exact ⟨by omega, decode_along hc hm hs D x h'⟩
  · rcases List.eq_nil_or_concat D' with rfl | ⟨e', y, hy⟩
    · left
      have h'' : D ++ [x] <+: encodedBits c m := by rw [hD']; simp
      have := h''.length_le
      simp only [List.length_append, List.length_cons, List.length_nil] at this
      exact ⟨by omega, decode_along hc hm hs D x h''⟩
    · right
      have hD'' : D ++ [x] = (encodedBits c m ++ e') ++ [y] := by rw [hD', hy]; simp
      obtain ⟨h₁, h₂⟩ := List.append_inj' hD'' rfl
      have hyx : y = x := by simpa using h₂.symm
      subst hyx
      refine ⟨e', h₁, ?_, ?_⟩
      · obtain ⟨t, ht⟩ := h'
        rw [h₁]
        have hne : NoCodeStarts c e' := by
          have : NoCodeStarts c (e' ++ ([y] ++ t)) := by
            rw [hy] at ht; simpa [← ht] using he
          exact this.left
        exact matched_tail h₀ hne
      · obtain ⟨t, ht⟩ := h'
        rw [hD', hy, List.concat_eq_append]
        have hne : NoCodeStarts c (e' ++ [y]) := by
          have : NoCodeStarts c ((e' ++ [y]) ++ t) := by
            rw [hy] at ht; simpa [← ht] using he
          exact this.left
        exact matched_tail h₀ hne

theorem decodeBit_tail (mem : Memory) (i : Nat) {D : Bits} {x : Bool} (h : D ++ [x] <+: encodedBits c m ++ e) :
    decodeBit p c x i (tailState c mem false (encodedBits c m).length D)
      = .ok (tailState c mem false (encodedBits c m).length (D ++ [x])) := by
  have hal := tail_along hc hm he hs h
  unfold tailState
  have hlen : (D ++ [x]).length = D.length + 1 := by simp
  rcases hal with ⟨h₁, h₂, h₃⟩ | ⟨e', rfl, h₂, h₃⟩
  · rw [if_pos (by omega), if_pos (by omega), decodeBit_step p c mem D x i h₂ h₃]
  · have hle : (encodedBits c m ++ e').length = (encodedBits c m).length + e'.length := by simp
    by_cases h₄ : e'.length < 255
    · rw [if_pos (by omega), if_pos (by omega),
        decodeBit_step p c mem _ x i (by rw [h₂]; exact h₄) (by rw [h₃]; exact hs)]
    · by_cases h₅ : e'.length = 255
      · rw [if_pos (by omega), if_neg (by omega),
          decodeBit_overflow p c x i rfl (by simp only [decodeState, h₂]; exact h₅)]
        rw [List.take_append_of_le_length (by omega), List.take_of_length_le (by omega)]
        rfl
      · rw [if_neg (show ¬ (encodedBits c m ++ e').length ≤ _ by omega),
          if_neg (show ¬ (encodedBits c m ++ e' ++ [x]).length ≤ _ by omega), decodeBit_dead _ _ _ _ rfl,
          List.take_append_of_le_length (l₂ := [x]) (by omega)]
        rfl

theorem decodeBitCounted_tail (mem : Memory) (i : Nat) (ys : Bits) {D : Bits} {x : Bool}
    (h : D ++ [x] <+: encodedBits c m ++ e) :
    decodeBitCounted p c x i ((tailState c mem true (encodedBits c m).length D).withInBits ys)
      = .ok ((tailState c mem true (encodedBits c m).length (D ++ [x])).withInBits ys) := by
  have hal := tail_along hc hm he hs h
  unfold tailState
  have hlen : (D ++ [x]).length = D.length + 1 := by simp
  rcases hal with ⟨h₁, h₂, h₃⟩ | ⟨e', rfl, h₂, h₃⟩
  · rw [if_pos (by omega), if_pos (by omega), decodeBitCounted_step p c mem D x i ys h₂ h₃]
  · have hle : (encodedBits c m ++ e').length = (encodedBits c m).length + e'.length := by simp
    by_cases h₄ : e'.length < 255
    · rw [if_pos (by omega), if_pos (by omega),
        decodeBitCounted_step p c mem _ x i ys (by rw [h₂]; exact h₄) (by rw [h₃]; exact hs)]
    · by_cases h₅ : e'.length = 255
      · rw [if_pos (by omega), if_neg (by omega), decodeBitCounted,
          decodeBit_overflow p c x i rfl (by simp only [decodeState, Out.withInBits, h₂]; exact h₅)]
        rw [List.take_append_of_le_length (by omega), List.take_of_length_le (by omega)]
        simp [decodeState, Out.withInBits, Nat.add_assoc]
      · rw [if_neg (show ¬ (encodedBits c m ++ e').length ≤ _ by omega),
          if_neg (show ¬ (encodedBits c m ++ e' ++ [x]).length ≤ _ by omega), decodeBitCounted,
          decodeBit_dead _ _ _ _ rfl,
          List.take_append_of_le_length (l₂ := [x]) (by omega)]
        simp [Out.withInBits, Nat.add_assoc]

omit hs in
/-- The final check finds the tail (R98). -/
theorem decodeFault_tail (mem : Memory) (counted : Bool) (i : Word) (hne : e ≠ []) :
    decodeFault i (tailState c mem counted (encodedBits c m).length (encodedBits c m ++ e)).hidden
      = some { code := .incompleteCode, index := i
               value := BitVec.ofNat 32 (if 255 < e.length then 256 else e.length) } := by
  have h₀ := matched_encoded hc hm (matched_nil c)
  simp only [List.nil_append] at h₀
  have hpos : 0 < e.length := List.length_pos_iff.mpr hne
  have hlen : (encodedBits c m ++ e).length = (encodedBits c m).length + e.length := by simp
  unfold tailState
  by_cases h : e.length ≤ 255
  · rw [if_pos (show (encodedBits c m ++ e).length ≤ _ by omega), if_neg (show ¬ 255 < e.length by omega)]
    simp [decodeFault, decodeState, Hidden.empty, matched_tail h₀ he, hne]
  · rw [if_neg (show ¬ (encodedBits c m ++ e).length ≤ _ by omega), if_pos (show 255 < e.length by omega)]
    simp [decodeFault]

end Tail

/-- The decoder at the byte that does not fit (R87, R97). -/
theorem decodeBit_fails {p : Params} {c : Codes} {mem : Memory} {E : Bits} {x : Bool} {b : Byte} {bs : List Byte}
    {acc : Bits} (h₁ : matched c E = (bs, acc)) (h₂ : acc.length < 255) (h₃ : ringLookup c (acc ++ [x]) = some b)
    (h₄ : bs.length = p.obufSize) (counted : Bool) (i n : Nat) (ys : Bits) :
    (decodeBit p c x i { decodeState c mem counted E with
      hidden := { (decodeState c mem counted E).hidden with nbits := n, inBits := ys } }).Fails
      { code := .obufOverflow, index := BitVec.ofNat 32 i, value := BitVec.ofNat 32 p.obufSize } := by
  unfold decodeBit
  rw [if_neg (by simp [decodeState, Hidden.empty]), if_neg (by
    simp only [decodeState, h₁, Config.maxCodeLen]; omega)]
  simp only [decodeState, h₁, h₃]
  exact (emit_fails _ i (by exact h₄)).bind

/-! ### From the procedures to the command -/

/-- A failing output procedure ends the run there. -/
theorem onOut_fails {f : Out → Run Out} {s : State} {r : Raised} (g : State → Run State)
    (h : (f { obuf := s.obuf, hidden := Hidden.empty }).Fails r) :
    ∃ o : Out, (onOut f (clearHidden s)).bind g = .raised r { s with obuf := o.obuf, hidden := o.hidden } := by
  obtain ⟨o, ho⟩ := h
  exact ⟨o, by rw [onOut_raised (s := clearHidden s) ho]; rfl⟩

/-- An output command whose run raised having written OBUF alone (R114). -/
theorem exec_output_raised {i : Instr} (hi : isOutput i = true) {s : State} {r : Raised} {o : Out}
    (h : runOf i s = .raised r { s with obuf := o.obuf, hidden := o.hidden }) :
    exec i s = .next (failedOutput r.code r.index r.value s) := by
  rw [exec_raised h, hi]; rfl

theorem paddingFault_eq_none {s : State} : paddingFault s = none ↔ PaddingOk s := by
  unfold paddingFault PaddingOk
  split
  · simp; omega
  · split
    · simp; omega
    · simp; omega

theorem exec_encode_fails {s : State} {r : Raised} (h₁ : s.inLen.toNat ≤ s.params.ibufSize) (h₂ : PrefixFree s.code)
    (h : (encodeOut (clearHidden s) { obuf := s.obuf, hidden := Hidden.empty }).Fails r) :
    exec .encode s = .next (failedOutput r.code r.index r.value s) := by
  obtain ⟨o, ho⟩ := onOut_fails (fun s => .ok (encodeResult s)) h
  refine exec_output_raised (i := .encode) rfl (o := o) ?_
  rw [runOf, runEncode, lenFault_none h₁, require_none, Run.bind_ok]
  simp only [show (clearHidden s).code = s.code from rfl, codebookFault_none.mpr h₂, require_none, Run.bind_ok]
  exact ho

theorem exec_encpack_fails {s : State} {r : Raised} (h₁ : s.inLen.toNat ≤ s.params.ibufSize) (h₂ : PrefixFree s.code)
    (h : (encpackOut (clearHidden s) { obuf := s.obuf, hidden := Hidden.empty }).Fails r) :
    exec .encpack s = .next (failedOutput r.code r.index r.value s) := by
  obtain ⟨o, ho⟩ := onOut_fails (fun s => .ok (packResult s)) h
  refine exec_output_raised (i := .encpack) rfl (o := o) ?_
  rw [runOf, runEncpack, lenFault_none h₁, require_none, Run.bind_ok]
  simp only [show (clearHidden s).code = s.code from rfl, codebookFault_none.mpr h₂, require_none, Run.bind_ok]
  exact ho

theorem exec_pack_fails {s : State} {r : Raised} (h₁ : s.inLen.toNat ≤ s.params.ibufSize)
    (h : (packOut (clearHidden s) { obuf := s.obuf, hidden := Hidden.empty }).Fails r) :
    exec .pack s = .next (failedOutput r.code r.index r.value s) := by
  obtain ⟨o, ho⟩ := onOut_fails (fun s => .ok (packResult s)) h
  refine exec_output_raised (i := .pack) rfl (o := o) ?_
  rw [runOf, runPack, lenFault_none h₁, require_none, Run.bind_ok]
  exact ho

theorem exec_unpack_fails {s : State} {r : Raised} (h₁ : s.inLen.toNat ≤ s.params.ibufSize) (h₂ : PaddingOk s)
    (h : (packedInput (emitTextCounted s.params) s { obuf := s.obuf, hidden := Hidden.empty }).Fails r) :
    exec .unpack s = .next (failedOutput r.code r.index r.value s) := by
  obtain ⟨o, ho⟩ := onOut_fails (fun s => .ok (unpackResult s)) h
  refine exec_output_raised (i := .unpack) rfl (o := o) ?_
  rw [runOf, runUnpack, lenFault_none h₁, require_none, Run.bind_ok, paddingFault_clearHidden,
    paddingFault_eq_none.mpr h₂, require_none, Run.bind_ok]
  exact ho

theorem exec_decode_fails {s : State} {r : Raised} (h₁ : s.inLen.toNat ≤ s.params.ibufSize) (h₂ : PrefixFree s.code)
    (h : (decodeOut (clearHidden s) { obuf := s.obuf, hidden := Hidden.empty }).Fails r) :
    exec .decode s = .next (failedOutput r.code r.index r.value s) := by
  obtain ⟨o, ho⟩ := onOut_fails
    (fun s => (require (decodeFault s.inLen s.hidden) s).bind fun s => .ok (decodeResult s)) h
  refine exec_output_raised (i := .decode) rfl (o := o) ?_
  rw [runOf, runDecode, lenFault_none h₁, require_none, Run.bind_ok]
  simp only [show (clearHidden s).code = s.code from rfl, codebookFault_none.mpr h₂, require_none, Run.bind_ok]
  exact ho

theorem exec_decompress_fails {s : State} {r : Raised} (h₁ : s.inLen.toNat ≤ s.params.ibufSize) (h₂ : PaddingOk s)
    (h₃ : PrefixFree s.code)
    (h : (packedInput (decodeBitCounted s.params s.code) s { obuf := s.obuf, hidden := Hidden.empty }).Fails r) :
    exec .decompress s = .next (failedOutput r.code r.index r.value s) := by
  obtain ⟨o, ho⟩ := onOut_fails
    (fun s => (require (decodeFault s.inLen s.hidden) s).bind fun s => .ok (unpackResult s)) h
  refine exec_output_raised (i := .decompress) rfl (o := o) ?_
  rw [runOf, runDecompress, lenFault_none h₁, require_none, Run.bind_ok, paddingFault_clearHidden,
    paddingFault_eq_none.mpr h₂, require_none, Run.bind_ok]
  simp only [show (clearHidden s).code = s.code from rfl, codebookFault_none.mpr h₃, require_none, Run.bind_ok]
  exact ho

/-- DECODE whose symbols end in an accumulator that is not empty (R98, R100). -/
theorem exec_decode_incomplete {s : State} {r : Raised} {o : Out} (h₁ : s.inLen.toNat ≤ s.params.ibufSize)
    (h₂ : PrefixFree s.code) (h : decodeOut (clearHidden s) { obuf := s.obuf, hidden := Hidden.empty } = .ok o)
    (hr : decodeFault s.inLen o.hidden = some r) :
    exec .decode s = .next (failedOutput r.code r.index r.value s) := by
  refine exec_output_raised (i := .decode) rfl (o := o) ?_
  rw [runOf, runDecode, lenFault_none h₁, require_none, Run.bind_ok]
  simp only [show (clearHidden s).code = s.code from rfl, codebookFault_none.mpr h₂, require_none, Run.bind_ok]
  rw [onOut_ok (s := clearHidden s) h, Run.bind_ok]
  simp only [show (clearHidden s).inLen = s.inLen from rfl, hr, require_some, Run.bind_raised]
  rfl

/-- DECOMPRESS whose symbols end in an accumulator that is not empty (R98, R101). -/
theorem exec_decompress_incomplete {s : State} {r : Raised} {o : Out} (h₁ : s.inLen.toNat ≤ s.params.ibufSize)
    (h₂ : PaddingOk s) (h₃ : PrefixFree s.code)
    (h : packedInput (decodeBitCounted s.params s.code) s { obuf := s.obuf, hidden := Hidden.empty } = .ok o)
    (hr : decodeFault s.inLen o.hidden = some r) :
    exec .decompress s = .next (failedOutput r.code r.index r.value s) := by
  refine exec_output_raised (i := .decompress) rfl (o := o) ?_
  rw [runOf, runDecompress, lenFault_none h₁, require_none, Run.bind_ok, paddingFault_clearHidden,
    paddingFault_eq_none.mpr h₂, require_none, Run.bind_ok]
  simp only [show (clearHidden s).code = s.code from rfl, codebookFault_none.mpr h₃, require_none, Run.bind_ok]
  simp only [show (clearHidden s).params = s.params from rfl]
  rw [onOut_ok (s := clearHidden s) (f := packedInput (decodeBitCounted s.params s.code) (clearHidden s)) h, Run.bind_ok]
  simp only [show (clearHidden s).inLen = s.inLen from rfl, hr, require_some, Run.bind_raised]
  rfl

/-- The last symbol of the codes of a message of `k + 1` bytes: up to it the decoder has made `k` bytes (R97). -/
theorem last_symbol {c : Codes} (hc : PrefixFree c) {m : List Byte} (hm : Coded c m) {k : Nat} (hk : m.length = k + 1) :
  ∃ (E : Bits) (x : Bool) (b : Byte) (bs : List Byte) (acc : Bits), encodedBits c m = E ++ [x] ∧ bs.length = k ∧ matched c E = (bs, acc) ∧ acc.length < 255 ∧
    ringLookup c (acc ++ [x]) = some b ∧ ∀ D y, D ++ [y] <+: E → (matched c D).2.length < 255 ∧ (matched c (D ++ [y])).1.length ≤ k := by
  rcases List.eq_nil_or_concat m with rfl | ⟨m', b, rfl⟩
  · simp at hk
  rw [List.concat_eq_append] at hm hk ⊢
  have hm' : Coded c m' := fun b' h => hm b' (by simp [h])
  have hv : (codeAt c b).valid = true := hm b (by simp)
  have hl : m'.length = k := by simpa using hk
  rcases List.eq_nil_or_concat (codeAt c b).symbols with h | ⟨s, x, h⟩
  · exact absurd h (hc.1 b hv)
  rw [List.concat_eq_append] at h
  have h0 : matched c (encodedBits c m') = (m', []) := by simpa using matched_encoded hc hm' (matched_nil c)
  have hp : matched c (encodedBits c m' ++ s) = (m', s) := matched_part hc hv h0 s [x] h (by simp)
  have hs : s.length < 255 := by
    have h1 := congrArg List.length h
    rw [CodeEntry.length_symbols] at h1
    have := (codeAt c b).len.isLt
    simp at h1; omega
  refine ⟨encodedBits c m' ++ s, x, b, m', s, ?_, hl, hp, hs, ?_, ?_⟩
  · rw [encodedBits_append]; simp [encodedBits, h]
  · rw [← h]; exact ringLookup_code hc hv
  · intro D y hD
    have hD1 : D ++ [y] <+: encodedBits c (m' ++ [b]) := by
      rw [encodedBits_append]; refine hD.trans ?_
      simp [encodedBits, h]
    have h1 := decode_along hc hm (le_refl _) D y hD1
    refine ⟨h1.1, ?_⟩
    rcases prefix_append_cases hD with hD | ⟨D', hD', hs'⟩
    · have h2 := (matched_along hc hm' (matched_nil c) hD).2
      simpa [hl] using h2
    · rw [hD']
      obtain ⟨t, ht⟩ := hs'
      rw [matched_part hc hv h0 D' (t ++ [x]) (by rw [h, ← ht]; simp) (by simp), hl]

end Sys2Proof.Machine
end

