-- ==== Sys2Proof/Laws/Optimal.lean ====
section
/-! SUPPORT. The lengths of the codes DERIVE gives (R84): the Kraft sum of a strict binary tree, and that a node of lower
weight is never nearer to ROOT. -/

namespace Sys2Proof.Machine

/-! ### Paths (R82) -/

theorem throughInternal_cons (n : Nodes) (j : NodeIdx) (x : Bool) (p : Bits) :
    throughInternal n j (x :: p) = ((nodeAt n j).internal &&
      throughInternal n (if x then (nodeAt n j).left else (nodeAt n j).right) p) := rfl

theorem follow_cons (n : Nodes) (j : NodeIdx) (x : Bool) (p : Bits) :
    follow n j (x :: p) = follow n (if x then (nodeAt n j).left else (nodeAt n j).right) p := rfl

/-- A leaf's path in the tree is a path of nodes from the root to it. -/
theorem Rep.path {n : Nodes} {j : NodeIdx} {t : CodeTree} (h : Rep n j t) {s u : Bits} {b : Byte} (hm : (b, u) ∈ t.paths s) :
    ∃ p, u = s ++ p ∧ throughInternal n j p = true ∧ (nodeAt n (follow n j p)).internal = false ∧
      (nodeAt n (follow n j p)).symbol = b := by
  induction t generalizing j s with
  | leaf c =>
    simp only [CodeTree.paths, List.mem_singleton, Prod.mk.injEq] at hm
    obtain ⟨rfl, rfl⟩ := hm
    exact ⟨[], by simp, rfl, h.1, h.2⟩
  | node l r ihl ihr =>
    obtain ⟨h₁, h₂, h₃⟩ := h
    simp only [CodeTree.paths, List.mem_append] at hm
    rcases hm with hm | hm
    · obtain ⟨p, hp, h₄, h₅⟩ := ihl h₂ hm
      refine ⟨true :: p, by simp [hp], ?_, by rw [follow_cons]; exact h₅⟩
      rw [throughInternal_cons, h₁]; exact h₄
    · obtain ⟨p, hp, h₄, h₅⟩ := ihr h₃ hm
      refine ⟨false :: p, by simp [hp], ?_, by rw [follow_cons]; exact h₅⟩
      rw [throughInternal_cons, h₁]; exact h₄

/-- A path of nodes from the root to a leaf is that leaf's path in the tree. -/
theorem Rep.mem_paths {n : Nodes} {j : NodeIdx} {t : CodeTree} (h : Rep n j t) {p : Bits} (hp : throughInternal n j p = true)
    (hl : (nodeAt n (follow n j p)).internal = false) (s : Bits) :
    ((nodeAt n (follow n j p)).symbol, s ++ p) ∈ t.paths s := by
  induction t generalizing j s p with
  | leaf c =>
    cases p with
    | nil => simp [CodeTree.paths, follow, h.2]
    | cons x p => rw [throughInternal_cons, h.1] at hp; simp at hp
  | node l r ihl ihr =>
    obtain ⟨h₁, h₂, h₃⟩ := h
    cases p with
    | nil => rw [follow, h₁] at hl; cases hl
    | cons x p =>
      rw [throughInternal_cons, Bool.and_eq_true] at hp
      rw [follow_cons] at hl ⊢
      simp only [CodeTree.paths, List.mem_append]
      cases x with
      | true => exact .inl (by simpa using ihl h₂ hp.2 hl (s ++ [true]))
      | false => exact .inr (by simpa using ihr h₃ hp.2 hl (s ++ [false]))

/-! ### The Kraft sum (R84.3) -/

theorem CodeTree.kraft (t : CodeTree) {s : Bits} (h : s.length + t.leaves.length ≤ 257) :
    ((t.paths s).map fun p => 2 ^ (256 - p.2.length)).sum = 2 ^ (256 - s.length) := by
  induction t generalizing s with
  | leaf b => simp [CodeTree.paths]
  | node l r ihl ihr =>
    have hl := l.length_leaves_pos
    have hr := r.length_leaves_pos
    simp only [CodeTree.leaves, List.length_append] at h
    simp only [CodeTree.paths, List.map_append, List.sum_append]
    rw [ihl (by simp only [List.length_append, List.length_cons, List.length_nil]; omega),
      ihr (by simp only [List.length_append, List.length_cons, List.length_nil]; omega)]
    simp only [List.length_append, List.length_cons, List.length_nil, zero_add]
    rw [show 256 - s.length = (256 - (s.length + 1)) + 1 by omega, pow_succ]
    omega

/-! ### Lower weight, greater depth (R84.4) -/

section Depth

variable {f : Freqs} {n : Nodes} {r : NodeIdx}

/-- A node and its distance from the root. -/
inductive AtDepth (n : Nodes) (r : NodeIdx) : NodeIdx → Nat → Prop where
  | root : AtDepth n r r 0
  | child {p j : NodeIdx} {d : Nat} : AtDepth n r p d → ParentOf n p j → AtDepth n r j (d + 1)

theorem AtDepth.follow {j : NodeIdx} {d : Nat} (hF : ∀ i, (nodeAt n i).internal = true → (nodeAt n i).valid = true)
    (h : AtDepth n r j d) {p : Bits} (hp : throughInternal n j p = true) :
    AtDepth n r (follow n j p) (d + p.length) := by
  induction p generalizing j d with
  | nil => exact h
  | cons x p ih =>
    rw [throughInternal_cons, Bool.and_eq_true] at hp
    rw [follow_cons, List.length_cons, show d + (p.length + 1) = (d + 1) + p.length by omega]
    refine ih (.child h ⟨hF j hp.1, hp.1, ?_⟩) hp.2
    cases x <;> simp

variable (h : Forest f (2 * (presentBytes f).length - 1) n [r]) (ht : freqTotal f < 2 ^ 32)
include h ht

/-- The weights of the merged nodes do not fall, from one to the next. -/
theorem Forest.weight_succ {i i' : NodeIdx} (h₁ : (presentBytes f).length ≤ i.toNat) (h₂ : i'.toNat = i.toNat + 1)
    (h₃ : i'.toNat < 2 * (presentBytes f).length - 1) :
    (nodeAt n i).weight.toNat ≤ (nodeAt n i').weight.toNat := by
  have hm := h.merged i h₁ (by omega)
  have hm' := h.merged i' (by omega) h₃
  have hl := h.least i h₁ (by omega)
  have hl' := h.least i' (by omega) h₃
  have hint := (h.internal i).mpr ⟨h₁, by omega⟩
  have hval : (nodeAt n i).valid = true := by rw [h.valid]; simp; omega
  rw [hm'.2.2.2.2.2 ht]
  by_cases hL : (nodeAt n i').left = i
  · rw [hL]; omega
  by_cases hR : (nodeAt n i').right = i
  · rw [hR]; omega
  have hparL : ParentOf n i (nodeAt n i).left := ⟨hval, hint, .inl rfl⟩
  have hparR : ParentOf n i (nodeAt n i).right := ⟨hval, hint, .inr rfl⟩
  have hne : ∀ j : NodeIdx, (∀ p, p.toNat < i'.toNat → ¬ ParentOf n p j) →
      j ≠ (nodeAt n i).left ∧ j ≠ (nodeAt n i).right := by
    intro j hj
    exact ⟨fun h' => hj i (by omega) (h' ▸ hparL), fun h' => hj i (by omega) (h' ▸ hparR)⟩
  have hlt : ∀ j : NodeIdx, j.toNat < i'.toNat → j ≠ i → j.toNat < i.toNat := by
    intro j hj hji
    have : j.toNat ≠ i.toNat := fun h' => hji (BitVec.eq_of_toNat_eq h')
    omega
  have hle : ∀ j : NodeIdx, j.toNat < i.toNat → (∀ p, p.toNat < i'.toNat → ¬ ParentOf n p j) →
      (nodeAt n (nodeAt n i).right).weight.toNat ≤ (nodeAt n j).weight.toNat := by
    intro j hj hall
    have h₄ := (hl.2.2 j hj fun p hp => hall p (by omega)).2 (hne j hall).1 (hne j hall).2
    rw [keyLt_iff] at h₄
    omega
  have hwl := hle _ (hlt _ hm'.2.1 hL) hl'.1
  have hwr := hle _ (hlt _ hm'.2.2.1 hR) hl'.2.1
  have hk := hm.2.2.2.2.1
  rw [keyLt_iff] at hk
  rw [hm.2.2.2.2.2 ht]
  omega

theorem Forest.weight_mono {i i' : NodeIdx} (h₁ : (presentBytes f).length ≤ i.toNat) (h₂ : i.toNat ≤ i'.toNat)
    (h₃ : i'.toNat < 2 * (presentBytes f).length - 1) :
    (nodeAt n i).weight.toNat ≤ (nodeAt n i').weight.toNat := by
  obtain ⟨d, hd⟩ : ∃ d, i'.toNat = i.toNat + d := ⟨i'.toNat - i.toNat, by omega⟩
  induction d generalizing i' with
  | zero => rw [BitVec.eq_of_toNat_eq (show i'.toNat = i.toNat by omega)]
  | succ d ih =>
    have hk : (BitVec.ofNat 9 (i.toNat + d) : NodeIdx).toNat = i.toNat + d := by
      have := i'.isLt
      exact toNat_ofNat9 (by omega)
    have h₄ := ih (i' := BitVec.ofNat 9 (i.toNat + d)) (by omega) (by omega) hk
    exact h₄.trans (h.weight_succ ht (by omega) (by omega) h₃)

/-- A node of lower key is merged no later. -/
theorem Forest.parent_mono {u v p q : NodeIdx} (hu : ParentOf n p u) (hv : ParentOf n q v) (hk : keyLt n u v = true) :
    p.toNat ≤ q.toNat := by
  by_contra hlt
  obtain ⟨hp, hup⟩ := h.children hu
  obtain ⟨hq, hvq⟩ := h.children hv
  have hqN := ((h.internal q).mp hv.2.1).1
  have hm := h.merged q hqN hq
  have hl := h.least q hqN hq
  rw [keyLt_iff] at hk
  by_cases huq : u.toNat < q.toNat
  · have hall : ∀ p', p'.toNat < q.toNat → ¬ ParentOf n p' u := by
      intro p' hp' h'
      rw [h.oneParent p' p u h' hu] at hp'
      omega
    have hne : u ≠ v := by rintro rfl; rw [h.oneParent p q u hu hv] at hlt; omega
    have hun : ∀ w, ParentOf n q w → u ≠ w := by
      rintro w hw rfl; rw [h.oneParent p q u hu hw] at hlt; omega
    have h₁ := hun _ ⟨hv.1, hv.2.1, .inl rfl⟩
    have h₂ := hun _ ⟨hv.1, hv.2.1, .inr rfl⟩
    have h₃ := hl.2.2 u huq hall
    rcases hv.2.2 with rfl | rfl
    · have := h₃.1 h₁; rw [keyLt_iff] at this; omega
    · have := h₃.2 h₁ h₂; rw [keyLt_iff] at this; omega
  · have hw := h.weight_mono ht (i := q) (i' := u) hqN (by omega) (by omega)
    rw [hm.2.2.2.2.2 ht] at hw
    rcases hv.2.2 with rfl | rfl <;> omega

/-- Of two merged nodes the one made later is no deeper. -/
theorem Forest.depth_mono {x y : NodeIdx} {a b : Nat} (hx : AtDepth n r x a) (hy : AtDepth n r y b)
    (h₁ : (presentBytes f).length ≤ x.toNat) (h₂ : x.toNat ≤ y.toNat) (h₃ : y.toNat < 2 * (presentBytes f).length - 1)
    (hr : r.toNat + 1 = 2 * (presentBytes f).length - 1) : b ≤ a := by
  have hnoroot : ∀ p, ¬ ParentOf n p r := (h.child r (by omega)).mp (by simp)
  induction hx generalizing y b with
  | root =>
    have : y = r := BitVec.eq_of_toNat_eq (by omega)
    subst this
    cases hy with
    | root => omega
    | child _ hp => exact absurd hp (hnoroot _)
  | @child p j d hd hp ih =>
    cases hy with
    | root => omega
    | @child q _ e he hq =>
      have hpN := ((h.internal p).mp hp.2.1).1
      have hqlt := h.children hq
      by_cases hj : j = y
      · subst hj
        have hpq := h.oneParent p q j hp hq
        subst hpq
        have := ih he hpN (le_refl _) hqlt.1
        omega
      · have hne : j.toNat ≠ y.toNat := fun h' => hj (BitVec.eq_of_toNat_eq h')
        have hw := h.weight_mono ht h₁ h₂ h₃
        have hpq := h.parent_mono ht hp hq (by rw [keyLt_iff]; omega)
        have := ih he hpN hpq hqlt.1
        omega

/-- Of two leaves the one of lower weight is no nearer to the root (R84.4). -/
theorem Forest.leaf_depth {u v : NodeIdx} {a b : Nat} (hu : AtDepth n r u a) (hv : AtDepth n r v b)
    (hw : (nodeAt n u).weight.toNat < (nodeAt n v).weight.toNat) (hul : (nodeAt n u).internal = false)
    (hr : r.toNat + 1 = 2 * (presentBytes f).length - 1) : b ≤ a := by
  cases hv with
  | root => omega
  | @child q _ e he hq =>
    cases hu with
    | root => have := hq.2.1; have hqr := h.children hq; rw [h.internal] at this; rw [← Bool.not_eq_true, h.internal] at hul; omega
    | @child p _ d hd hp =>
      have hpq := h.parent_mono ht hp hq (by rw [keyLt_iff]; omega)
      have := h.depth_mono ht hd he ((h.internal p).mp hp.2.1).1 hpq (h.children hq).1 hr
      omega

end Depth

end Sys2Proof.Machine
end

