-- ==== Sys2Proof/Laws/Inverse.lean ====
section
/-! SUPPORT. From an outcome back to its data: where an encoding first fails, how a bit string splits into codes, the
PackedBytes read back (R90, R94, R96, R102, R111); and the stages of the composite commands as commands (R104, R105).
-/

namespace Sys2Proof.Machine

/-! ### BUILD and DERIVE -/

theorem present_ne {f : Freqs} : (∃ b, freqAt f b ≠ 0) ↔ presentBytes f ≠ [] := by
  constructor
  · rintro ⟨b, hb⟩; exact List.ne_nil_of_mem (mem_presentBytes.mpr hb)
  · intro h; obtain ⟨b, hb⟩ := List.exists_mem_of_ne_nil _ h; exact ⟨b, mem_presentBytes.mp hb⟩

/-- BUILD from a table that is not empty (R80). -/
theorem exec_build {s : State} (h : presentBytes s.freq ≠ []) :
    exec .build s = .next (succeeded { s with
      node := treeNodes s.freq, root := treeRoot s.freq, treeValid := true }) := by
  rw [exec_ok (i := .build) (runBuild_ok h)]; rfl

/-- DERIVE with a valid tree (R82). -/
theorem exec_derive {s : State} (h : s.treeValid = true) :
    exec .derive s = .next (succeeded { s with
      code := (deriveCodes s.node s.root).1
      maxLen := BitVec.ofNat 8 (longestCode (deriveCodes s.node s.root).1) }) := by
  rw [exec_ok (i := .derive) (runDerive_ok h)]; rfl

theorem foldl_max (l : List CodeEntry) (m : Nat) :
  m ≤ l.foldl (fun m e => if e.valid then max m e.len.toNat else m) m ∧
  (∀ e ∈ l, e.valid = true → e.len.toNat ≤ l.foldl (fun m e => if e.valid then max m e.len.toNat else m) m) ∧
  (l.foldl (fun m e => if e.valid then max m e.len.toNat else m) m = m ∨ ∃ e ∈ l, e.valid = true ∧ e.len.toNat =
      l.foldl (fun m e => if e.valid then max m e.len.toNat else m) m) := by
  induction l generalizing m with
  | nil => simp
  | cons e l ih =>
    simp only [List.foldl_cons]
    obtain ⟨h1, h2, h3⟩ := ih (if e.valid then max m e.len.toNat else m)
    refine ⟨?_, ?_, ?_⟩
    · refine le_trans ?_ h1
      split <;> omega
    · intro e' he' hv
      rcases List.mem_cons.mp he' with rfl | he'
      · rw [if_pos hv] at h1; rw [if_pos hv]; omega
      · exact h2 e' he' hv
    · rcases h3 with h3 | ⟨e', he', h4, h5⟩
      · rw [h3]
        split
        · rename_i hv
          rcases le_total m e.len.toNat with hle | hle
          · right; exact ⟨e, by simp, hv, by simp [hle]⟩
          · left; simp [hle]
        · left; rfl
      · right; exact ⟨e', by simp [he'], h4, h5⟩

theorem mem_codes {c : Codes} {e : CodeEntry} : e ∈ c.toList ↔ ∃ b, codeAt c b = e := by
  constructor
  · intro h
    obtain ⟨i, hi, rfl⟩ := List.mem_iff_getElem.mp h
    exact ⟨BitVec.ofNat 8 i, codeAt_eq_getElem c i (by simpa using hi)⟩
  · rintro ⟨b, rfl⟩
    have := codeAt_eq_getElem c b.toNat b.isLt
    simp only [BitVec.ofNat_toNat, BitVec.setWidth_eq] at this
    rw [this]; exact List.getElem_mem _

/-- MAXLEN is the largest LEN of a valid entry (R82). -/
theorem longestCode_spec {c : Codes} (hc : ∃ b, (codeAt c b).valid = true) :
   longestCode c ≤ 255 ∧ (∀ b, (codeAt c b).valid = true → (codeAt c b).len.toNat ≤ longestCode c) ∧
   ∃ b, (codeAt c b).valid = true ∧ (codeAt c b).len.toNat = longestCode c := by
  obtain ⟨-, h2, h3⟩ := foldl_max c.toList 0
  have h2' : ∀ b, (codeAt c b).valid = true →
      (codeAt c b).len.toNat ≤ longestCode c := fun b hb => h2 _ (mem_codes.mpr ⟨b, rfl⟩) hb
  have h3' : ∃ b, (codeAt c b).valid = true ∧ (codeAt c b).len.toNat = longestCode c := by
    rcases h3 with h3 | ⟨e, he, hv, hl⟩
    · obtain ⟨b, hb⟩ := hc
      have := h2' b hb
      refine ⟨b, hb, ?_⟩
      unfold longestCode at this ⊢
      rw [h3] at this ⊢; omega
    · obtain ⟨b, rfl⟩ := mem_codes.mp he
      exact ⟨b, hv, hl⟩
  refine ⟨?_, h2', h3'⟩
  obtain ⟨b, -, hb⟩ := h3'
  rw [← hb]; have := (codeAt c b).len.isLt; omega

/-- The store of an assigned code (R82). -/
theorem symbolAt_ofCode {s : Bits} (h : s.length ≤ 255) {t : Nat} (ht : t < 256) :
    (CodeEntry.ofCode s).symbolAt t = s.getD t false := by
  by_cases hts : t < s.length
  · have h1 := CodeEntry.symbols_ofCode h
    have h2 := CodeEntry.getElem_symbols (CodeEntry.ofCode s) t (by rw [h1]; exact hts)
    rw [← h2]
    simp only [h1]
    rw [List.getD_eq_getElem _ _ hts]
  · rw [List.getD_eq_default _ _ (by omega)]
    simp only [CodeEntry.symbolAt, CodeEntry.ofCode, storeBits, BitVec.getLsbD_ofNat]
    have : (255 - t) < 256 - s.length := by omega
    rw [Nat.mul_comm, Nat.testBit_two_pow_mul]
    simp; omega

/-! ### The composite commands -/

/-- ANALYZE, BUILD and DERIVE one after the other leave what the stages leave (R107). -/
theorem staged_completed (s : State) : completeOk
    (writeCodebook (clearHidden (completeOk (plantTree (clearHidden (completeOk (tabulate (clearHidden s)))))))) =
   { staged s with hidden := Hidden.empty, done := true, phase := .idle } := by
  rw [tabulate_clearHidden, staged]
  generalize histogram (message s) = f
  rfl

/-- COMPRESS of a message that passes its checks (R104). -/
theorem exec_compress {s : State} (h1 : 0 < s.inLen.toNat) (h2 : s.inLen.toNat ≤ s.params.ibufSize) :
    exec .compress s = exec .encpack (staged s) := by
  rw [exec_eq, exec_eq, show runOf .compress s = runCompress s from rfl, runCompress_ok h1 h2]; rfl

/-- ENCODE_ONLY of a message that passes its checks (R105). -/
theorem exec_encodeOnly {s : State} (h1 : 0 < s.inLen.toNat) (h2 : s.inLen.toNat ≤ s.params.ibufSize) :
    exec .encodeOnly s = exec .encode (staged s) := by
  rw [exec_eq, exec_eq, show runOf .encodeOnly s = runEncodeOnly s from rfl, runEncodeOnly_ok h1 h2]; rfl

/-! ### Where an encoding fails and how a bit string splits -/

/-- The first byte of a message that has no valid code or whose code does not fit, `μ` measuring the room. -/
theorem first_failure (c : Codes) (size : Nat) (μ : Nat → Nat) (h0 : μ 0 ≤ size) (m : List Byte) :
    (Coded c m ∧ μ (encodedBits c m).length ≤ size) ∨
    ∃ m₁ b m₂, m = m₁ ++ b :: m₂ ∧ Coded c m₁ ∧ μ (encodedBits c m₁).length ≤ size ∧
      ((codeAt c b).valid = false ∨ ((codeAt c b).valid = true ∧ size < μ (encodedBits c (m₁ ++ [b])).length)) := by
  induction m using List.reverseRecOn with
  | nil => left; exact ⟨by simp [Coded], by simpa [encodedBits] using h0⟩
  | append_singleton m b ih =>
    rcases ih with ⟨h1, h2⟩ | ⟨m₁, b', m₂, rfl, h1, h2, h3⟩
    · cases hv : (codeAt c b).valid with
      | false => right; exact ⟨m, b, [], by simp, h1, h2, .inl hv⟩
      | true =>
        by_cases hs : μ (encodedBits c (m ++ [b])).length ≤ size
        · left; refine ⟨?_, hs⟩
          intro b' hb'; simp at hb'; rcases hb' with hb' | rfl; exact h1 _ hb'; exact hv
        · right; exact ⟨m, b, [], by simp, h1, h2, .inr ⟨hv, by omega⟩⟩
    · right; exact ⟨m₁, b', m₂ ++ [b], by simp, h1, h2, h3⟩

/-- A bit string is the codes of a message and a rest in which no code starts (R97). -/
theorem codes_and_rest {c : Codes} (hc : PrefixFree c) (E : Bits) :
    ∃ m e, Coded c m ∧ NoCodeStarts c e ∧ E = encodedBits c m ++ e := by
  induction h : E.length using Nat.strong_induction_on generalizing E with
  | _ n ih =>
    by_cases hE : NoCodeStarts c E
    · exact ⟨[], E, by simp [Coded], hE, by simp [encodedBits]⟩
    · simp only [NoCodeStarts, not_forall, not_not] at hE
      obtain ⟨b, hv, hp⟩ := hE
      obtain ⟨E', rfl⟩ := bitPrefix_iff.mp hp
      have hpos : 0 < (codeAt c b).symbols.length := List.length_pos_iff.mpr (hc.1 b hv)
      obtain ⟨m, e, h1, h2, h3⟩ := ih E'.length (by rw [← h, List.length_append]; omega) E' rfl
      refine ⟨b :: m, e, ?_, h2, ?_⟩
      · intro b' hb'; rcases List.mem_cons.mp hb' with rfl | hb'; exact hv; exact h1 _ hb'
      · rw [h3, encodedBits_cons]; simp

/-- A well-formed codebook is never refused (R85). -/
theorem ring_not_raised {i : Instr} (hi : i ∈ [Instr.encode, .encpack, .decode, .decompress]) {s : State}
    (h : PrefixFree s.code) (r : Raised) (t : State) (hr : runOf i s = .raised r t) :
   r.code ≠ .ringInvalid := by
  have hno : codebookFault (clearHidden s).code = none := codebookFault_none.mpr h
  have key : OutputRun s [.lenRange, .corruptPadding, .unknownSymbol, .badBitchar, .obufOverflow,
      .incompleteCode] (runOf i s) := by
    simp only [List.mem_cons, List.not_mem_nil, or_false] at hi
    rcases hi with rfl | rfl | rfl | rfl
    · refine .of_require (fun r h => by simp [lenFault_code h]) fun _ => ?_
      refine .of_require (fun r h => by rw [hno] at h; cases h) fun _ => ?_
      refine .of_out ?_ ?_ fun o ho => .of_result ho (by simp)
      · exact forBytes_ends (encodeByte_ends _ emitText_ends) _ _ _ (Out.sound_start _ _)
      · refine forBytes_raises (encodeByte_raises _ (fun x i o => ?_) (by simp)) _ _ _
        exact (emit_raises _ _ i o).mono (by simp)
    · refine .of_require (fun r h => by simp [lenFault_code h]) fun _ => ?_
      refine .of_require (fun r h => by rw [hno] at h; cases h) fun _ => ?_
      refine .of_out ?_ ?_ fun o ho => .of_result ho (padCount_le _)
      · exact (forBytes_ends (encodeByte_ends _ packBit_ends) _ _ _ (Out.sound_start _ _)).bind
          fun a ha => packFinish_ends _ a ha
      · refine (forBytes_raises (encodeByte_raises _ (fun x i o => ?_) (by simp)) _ _ _).bind fun a => ?_
        · exact (packBit_raises _ x i o).mono (by simp)
        · exact (packFinish_raises _ _ a).mono (by simp)
    · refine .of_require (fun r h => by simp [lenFault_code h]) fun _ => ?_
      refine .of_require (fun r h => by rw [hno] at h; cases h) fun _ => ?_
      refine .of_out ?_ ?_ fun o ho => .of_decodeFault (by simp) (.of_result ho (by simp))
      · exact forBytes_ends (textInput_ends (decodeBit_ends _)) _ _ _ (Out.sound_start _ _)
      · refine forBytes_raises (textInput_raises (fun x i o => ?_) (by simp)) _ _ _
        exact (decodeBit_raises _ _ x i o).mono (by simp)
    · refine .of_require (fun r h => by simp [lenFault_code h]) fun _ => ?_
      refine .of_require (fun r h => by simp [paddingFault_code h]) fun hp => ?_
      refine .of_require (fun r h => by rw [hno] at h; cases h) fun _ => ?_
      refine .of_out ?_ ?_ fun o ho => .of_decodeFault (by simp) (.of_result ho (paddingCount_le (s := s) hp))
      · exact forPackedBits_ends (decodeBitCounted_ends _) Out.Sound.withInBits _ _ _ _ (Out.sound_start _ _)
      · refine forPackedBits_raises (fun x i o => ?_) _ _ _ _
        exact (decodeBitCounted_raises _ _ x i o).mono (by simp)
  have := (key.raised r t hr).1
  intro h'
  rw [h'] at this
  simp at this

/-! ### Reading back -/

/-- The bytes a successful output command wrote (R115). -/
theorem outputBytes_succeeded {l : List Byte} {n p : Nat} {s : State} (h : l.length < 2 ^ 32) : outputBytes
    (succeededOutput l n p s) = l := by
  unfold outputBytes succeededOutput
  exact Memory.map_read_writeAll_of_eq _ _ _ (by simp; omega)

/-- A ring moved and written back encodes alike (R111). -/
theorem sameRing_bits {c d : Codes} (h : SameRing c d) {m : List Byte} (hm : Coded c m) :
    encodedBits d m = encodedBits c m ∧ Coded d m := by
  constructor
  · induction m with
    | nil => rfl
    | cons b m ih =>
      rw [encodedBits_cons, encodedBits_cons, ih (fun b' hb' => hm b' (by simp [hb'])), ((h b).2 (hm b (by simp))).2]
  · intro b hb; rw [(h b).1]; exact hm b hb

theorem sameRing_prefixFree {c d : Codes} (h : SameRing c d) (hc : PrefixFree c) : PrefixFree d := by
  constructor
  · intro b hb
    rw [(h b).1] at hb
    rw [((h b).2 hb).2]; exact hc.1 b hb
  · intro b1 b2 hne h1 h2
    rw [(h _).1] at h1 h2
    rw [((h _).2 h1).2, ((h _).2 h2).2]; exact hc.2 b1 b2 hne h1 h2

/-- The PackedBytes of a bit string read back (R90, R95, R96). -/
theorem packed_back {u : State} {E : Bits} (h : message u = packedBytes E) : PaddingOk u ∧ packedSymbols u = E := by
  have hlen : u.inLen.toNat = E.length / 8 + 2 := by rw [← length_message u, h, length_packedBytes]
  have hrem := length_remainder E
  have hget : ∀ k (hk : k < u.inLen.toNat), u.ibuf.read k = (packedBytes E)[k]'(by rw [length_packedBytes]; omega) := by
    intro k hk
    have : (message u)[k]'(by rw [length_message]; exact hk) = u.ibuf.read k := by simp [message]
    rw [← this]; simp only [h]
  have hpk := packedBytes_eq E
  have hpc : padCount (remainder E) = 8 - E.length % 8 := by rw [padCount, hrem]
  rw [hpc] at hpk
  have hp : paddingCount u = 8 - E.length % 8 := by
    unfold paddingCount
    rw [hget _ (by omega)]
    simp only [hpk, hlen]
    rw [List.getElem_append_right (by simp)]
    simp
    omega
  have hfin : bits8 (u.ibuf.read (u.inLen.toNat - 1)) = remainder E ++ zeros (8 - E.length % 8) := by
    rw [hget _ (by omega)]
    simp only [hpk, hlen]
    rw [List.getElem_append_right (by simp)]
    simp only [length_groupBytes]
    have : E.length / 8 + 2 - 1 - E.length / 8 = 1 := by omega
    simp only [this]
    simp only [List.getElem_cons_succ, List.getElem_cons_zero]
    rw [bits8_byteOf]
    simp [hrem, zeros]; omega
  have hdata : (dataBytes u).flatMap bits8 = E.take (8 * (E.length / 8)) := by
    unfold dataBytes
    rw [h, hlen, Nat.add_sub_cancel, hpk, List.take_append_of_le_length (by simp), List.take_of_length_le (by simp)]
    have : ∀ n, 8 * n ≤ E.length → ((List.range n).map fun g => byteOf ((E.drop (8 * g)).take 8)).flatMap bits8 =
        E.take (8 * n) := by
      intro n hn
      induction n with
      | zero => simp
      | succ n ih =>
        rw [List.range_succ, List.map_append, List.flatMap_append, ih (by omega)]
        simp only [List.map_cons, List.map_nil, List.flatMap_cons, List.flatMap_nil, List.append_nil]
        rw [bits8_byteOf (by simp; omega)]
        rw [Nat.mul_succ, List.take_add]
    exact this _ (by omega)
  refine ⟨⟨by omega, by omega⟩, ?_⟩
  unfold packedSymbols finalSymbols
  rw [hdata, hp, hfin, show 8 - (8 - E.length % 8) = E.length % 8 by omega, ← hrem, List.take_left]
  exact List.take_append_drop _ _

/-! ### What the composite commands leave (R104, R105) -/

/-- What the three stages leave in the tables: the counts and their number, their Huffman tree, a code for exactly the
bytes of the message, and the longest length (R78, R80, R82, R84). -/
theorem staged_spec {s : State} (h : 0 < s.inLen.toNat) :
    (∀ b, (freqAt (staged s).freq b).toNat = (message s).count b) ∧
      (staged s).nsym.toNat = (presentBytes (staged s).freq).length ∧
      HuffmanTree (staged s).freq (staged s).node (staged s).root ∧ PrefixFree (staged s).code ∧
      (∀ b, (codeAt (staged s).code b).valid = true ↔ b ∈ message s) ∧
      (∀ b, (codeAt (staged s).code b).valid = true →
        (codeAt (staged s).code b).len.toNat ≤ (staged s).maxLen.toNat) ∧
      ∃ b, (codeAt (staged s).code b).valid = true ∧ (codeAt (staged s).code b).len = (staged s).maxLen := by
  obtain ⟨htotal, hcount⟩ := histogram_spec (length_message_lt s)
  have hmem := fun b => histogram_ne_zero (length_message_lt s) (b := b)
  have hp := presentBytes_histogram (length_message_lt s) (message_ne_nil h)
  have ht : freqTotal (histogram (message s)) < 2 ^ 32 := by rw [htotal]; exact length_message_lt s
  unfold staged
  generalize histogram (message s) = f at htotal hcount hmem hp ht ⊢
  obtain ⟨hfree, hvalid⟩ := deriveCodes_tree hp
  obtain ⟨b, hb⟩ := present_ne.mpr hp
  obtain ⟨hm₁, hm₂, c, hc₁, hc₂⟩ := longestCode_spec ⟨b, (hvalid b).mpr hb⟩
  have hm : (BitVec.ofNat 8 (longestCode (deriveCodes (treeNodes f) (treeRoot f)).1)).toNat
      = longestCode (deriveCodes (treeNodes f) (treeRoot f)).1 := by rw [BitVec.toNat_ofNat]; omega
  refine ⟨hcount, toNat_nsym f, treeNodes_huffman hp ht, hfree, fun b => (hvalid b).trans (hmem b), ?_, c, hc₁, ?_⟩
  · intro b hb
    exact (hm₂ b hb).trans_eq hm.symm
  · exact BitVec.eq_of_toNat_eq (hc₂.trans hm.symm)

end Sys2Proof.Machine
end

