-- ==== Sys2Proof/Laws/State.lean ====
section
/-! SUPPORT. One lemma per field of State per named update: what the update leaves in the field. -/

namespace Sys2Proof.Machine

/-! ### `clearHidden s` (R45) -/

@[simp] theorem clearHidden_params (s : State) : (clearHidden s).params = s.params := rfl
@[simp] theorem clearHidden_ie (s : State) : (clearHidden s).ie = s.ie := rfl
@[simp] theorem clearHidden_cmd (s : State) : (clearHidden s).cmd = s.cmd := rfl
@[simp] theorem clearHidden_phase (s : State) : (clearHidden s).phase = s.phase := rfl
@[simp] theorem clearHidden_done (s : State) : (clearHidden s).done = s.done := rfl
@[simp] theorem clearHidden_err (s : State) : (clearHidden s).err = s.err := rfl
@[simp] theorem clearHidden_freqValid (s : State) : (clearHidden s).freqValid = s.freqValid := rfl
@[simp] theorem clearHidden_treeValid (s : State) : (clearHidden s).treeValid = s.treeValid := rfl
@[simp] theorem clearHidden_errCode (s : State) : (clearHidden s).errCode = s.errCode := rfl
@[simp] theorem clearHidden_errIndex (s : State) : (clearHidden s).errIndex = s.errIndex := rfl
@[simp] theorem clearHidden_errValue (s : State) : (clearHidden s).errValue = s.errValue := rfl
@[simp] theorem clearHidden_inLen (s : State) : (clearHidden s).inLen = s.inLen := rfl
@[simp] theorem clearHidden_outLen (s : State) : (clearHidden s).outLen = s.outLen := rfl
@[simp] theorem clearHidden_bitLen (s : State) : (clearHidden s).bitLen = s.bitLen := rfl
@[simp] theorem clearHidden_pad (s : State) : (clearHidden s).pad = s.pad := rfl
@[simp] theorem clearHidden_nsym (s : State) : (clearHidden s).nsym = s.nsym := rfl
@[simp] theorem clearHidden_root (s : State) : (clearHidden s).root = s.root := rfl
@[simp] theorem clearHidden_maxLen (s : State) : (clearHidden s).maxLen = s.maxLen := rfl
@[simp] theorem clearHidden_freq (s : State) : (clearHidden s).freq = s.freq := rfl
@[simp] theorem clearHidden_node (s : State) : (clearHidden s).node = s.node := rfl
@[simp] theorem clearHidden_code (s : State) : (clearHidden s).code = s.code := rfl
@[simp] theorem clearHidden_ibuf (s : State) : (clearHidden s).ibuf = s.ibuf := rfl
@[simp] theorem clearHidden_obuf (s : State) : (clearHidden s).obuf = s.obuf := rfl
@[simp] theorem clearHidden_hidden (s : State) : (clearHidden s).hidden = Hidden.empty := rfl
@[simp] theorem clearHidden_rstN (s : State) : (clearHidden s).rstN = s.rstN := rfl
@[simp] theorem clearHidden_recovery (s : State) : (clearHidden s).recovery = s.recovery := rfl
@[simp] theorem clearHidden_input (s : State) : (clearHidden s).input = s.input := rfl
@[simp] theorem clearHidden_held (s : State) : (clearHidden s).held = s.held := rfl
@[simp] theorem clearHidden_answers (s : State) : (clearHidden s).answers = s.answers := rfl
@[simp] theorem clearHidden_work (s : State) : (clearHidden s).work = s.work := rfl
@[simp] theorem clearHidden_draws (s : State) : (clearHidden s).draws = s.draws := rfl

/-! ### `accept w s` (R112) -/

@[simp] theorem accept_params (w : Word) (s : State) : (accept w s).params = s.params := rfl
@[simp] theorem accept_ie (w : Word) (s : State) : (accept w s).ie = s.ie := rfl
@[simp] theorem accept_cmd (w : Word) (s : State) : (accept w s).cmd = w := rfl
@[simp] theorem accept_phase (w : Word) (s : State) : (accept w s).phase = .busy := rfl
@[simp] theorem accept_done (w : Word) (s : State) : (accept w s).done = false := rfl
@[simp] theorem accept_err (w : Word) (s : State) : (accept w s).err = false := rfl
@[simp] theorem accept_freqValid (w : Word) (s : State) : (accept w s).freqValid = s.freqValid := rfl
@[simp] theorem accept_treeValid (w : Word) (s : State) : (accept w s).treeValid = s.treeValid := rfl
@[simp] theorem accept_errCode (w : Word) (s : State) : (accept w s).errCode = .none := rfl
@[simp] theorem accept_errIndex (w : Word) (s : State) : (accept w s).errIndex = 0 := rfl
@[simp] theorem accept_errValue (w : Word) (s : State) : (accept w s).errValue = 0 := rfl
@[simp] theorem accept_inLen (w : Word) (s : State) : (accept w s).inLen = s.inLen := rfl
@[simp] theorem accept_outLen (w : Word) (s : State) : (accept w s).outLen = s.outLen := rfl
@[simp] theorem accept_bitLen (w : Word) (s : State) : (accept w s).bitLen = s.bitLen := rfl
@[simp] theorem accept_pad (w : Word) (s : State) : (accept w s).pad = s.pad := rfl
@[simp] theorem accept_nsym (w : Word) (s : State) : (accept w s).nsym = s.nsym := rfl
@[simp] theorem accept_root (w : Word) (s : State) : (accept w s).root = s.root := rfl
@[simp] theorem accept_maxLen (w : Word) (s : State) : (accept w s).maxLen = s.maxLen := rfl
@[simp] theorem accept_freq (w : Word) (s : State) : (accept w s).freq = s.freq := rfl
@[simp] theorem accept_node (w : Word) (s : State) : (accept w s).node = s.node := rfl
@[simp] theorem accept_code (w : Word) (s : State) : (accept w s).code = s.code := rfl
@[simp] theorem accept_ibuf (w : Word) (s : State) : (accept w s).ibuf = s.ibuf := rfl
@[simp] theorem accept_obuf (w : Word) (s : State) : (accept w s).obuf = s.obuf := rfl
@[simp] theorem accept_hidden (w : Word) (s : State) : (accept w s).hidden = Hidden.empty := rfl
@[simp] theorem accept_rstN (w : Word) (s : State) : (accept w s).rstN = s.rstN := rfl
@[simp] theorem accept_recovery (w : Word) (s : State) : (accept w s).recovery = s.recovery := rfl
@[simp] theorem accept_input (w : Word) (s : State) : (accept w s).input = s.input := rfl
@[simp] theorem accept_held (w : Word) (s : State) : (accept w s).held = s.held := rfl
@[simp] theorem accept_answers (w : Word) (s : State) : (accept w s).answers = s.answers := rfl
@[simp] theorem accept_work (w : Word) (s : State) : (accept w s).work = Config.commandTime s.draws := rfl
@[simp] theorem accept_draws (w : Word) (s : State) : (accept w s).draws = s.draws + 1 := rfl

/-! ### `completeOk s` (R113) -/

@[simp] theorem completeOk_params (s : State) : (completeOk s).params = s.params := rfl
@[simp] theorem completeOk_ie (s : State) : (completeOk s).ie = s.ie := rfl
@[simp] theorem completeOk_cmd (s : State) : (completeOk s).cmd = s.cmd := rfl
@[simp] theorem completeOk_phase (s : State) : (completeOk s).phase = .idle := rfl
@[simp] theorem completeOk_done (s : State) : (completeOk s).done = true := rfl
@[simp] theorem completeOk_err (s : State) : (completeOk s).err = s.err := rfl
@[simp] theorem completeOk_freqValid (s : State) : (completeOk s).freqValid = s.freqValid := rfl
@[simp] theorem completeOk_treeValid (s : State) : (completeOk s).treeValid = s.treeValid := rfl
@[simp] theorem completeOk_errCode (s : State) : (completeOk s).errCode = s.errCode := rfl
@[simp] theorem completeOk_errIndex (s : State) : (completeOk s).errIndex = s.errIndex := rfl
@[simp] theorem completeOk_errValue (s : State) : (completeOk s).errValue = s.errValue := rfl
@[simp] theorem completeOk_inLen (s : State) : (completeOk s).inLen = s.inLen := rfl
@[simp] theorem completeOk_outLen (s : State) : (completeOk s).outLen = s.outLen := rfl
@[simp] theorem completeOk_bitLen (s : State) : (completeOk s).bitLen = s.bitLen := rfl
@[simp] theorem completeOk_pad (s : State) : (completeOk s).pad = s.pad := rfl
@[simp] theorem completeOk_nsym (s : State) : (completeOk s).nsym = s.nsym := rfl
@[simp] theorem completeOk_root (s : State) : (completeOk s).root = s.root := rfl
@[simp] theorem completeOk_maxLen (s : State) : (completeOk s).maxLen = s.maxLen := rfl
@[simp] theorem completeOk_freq (s : State) : (completeOk s).freq = s.freq := rfl
@[simp] theorem completeOk_node (s : State) : (completeOk s).node = s.node := rfl
@[simp] theorem completeOk_code (s : State) : (completeOk s).code = s.code := rfl
@[simp] theorem completeOk_ibuf (s : State) : (completeOk s).ibuf = s.ibuf := rfl
@[simp] theorem completeOk_obuf (s : State) : (completeOk s).obuf = s.obuf := rfl
@[simp] theorem completeOk_hidden (s : State) : (completeOk s).hidden = Hidden.empty := rfl
@[simp] theorem completeOk_rstN (s : State) : (completeOk s).rstN = s.rstN := rfl
@[simp] theorem completeOk_recovery (s : State) : (completeOk s).recovery = s.recovery := rfl
@[simp] theorem completeOk_input (s : State) : (completeOk s).input = s.input := rfl
@[simp] theorem completeOk_held (s : State) : (completeOk s).held = s.held := rfl
@[simp] theorem completeOk_answers (s : State) : (completeOk s).answers = s.answers := rfl
@[simp] theorem completeOk_work (s : State) : (completeOk s).work = s.work := rfl
@[simp] theorem completeOk_draws (s : State) : (completeOk s).draws = s.draws := rfl

/-! ### `spoilOutput s` (R114) -/

@[simp] theorem spoilOutput_params (s : State) : (spoilOutput s).params = s.params := rfl
@[simp] theorem spoilOutput_ie (s : State) : (spoilOutput s).ie = s.ie := rfl
@[simp] theorem spoilOutput_cmd (s : State) : (spoilOutput s).cmd = s.cmd := rfl
@[simp] theorem spoilOutput_phase (s : State) : (spoilOutput s).phase = s.phase := rfl
@[simp] theorem spoilOutput_done (s : State) : (spoilOutput s).done = s.done := rfl
@[simp] theorem spoilOutput_err (s : State) : (spoilOutput s).err = s.err := rfl
@[simp] theorem spoilOutput_freqValid (s : State) : (spoilOutput s).freqValid = s.freqValid := rfl
@[simp] theorem spoilOutput_treeValid (s : State) : (spoilOutput s).treeValid = s.treeValid := rfl
@[simp] theorem spoilOutput_errCode (s : State) : (spoilOutput s).errCode = s.errCode := rfl
@[simp] theorem spoilOutput_errIndex (s : State) : (spoilOutput s).errIndex = s.errIndex := rfl
@[simp] theorem spoilOutput_errValue (s : State) : (spoilOutput s).errValue = s.errValue := rfl
@[simp] theorem spoilOutput_inLen (s : State) : (spoilOutput s).inLen = s.inLen := rfl
@[simp] theorem spoilOutput_outLen (s : State) : (spoilOutput s).outLen = 0 := rfl
@[simp] theorem spoilOutput_bitLen (s : State) : (spoilOutput s).bitLen = 0 := rfl
@[simp] theorem spoilOutput_pad (s : State) : (spoilOutput s).pad = 0 := rfl
@[simp] theorem spoilOutput_nsym (s : State) : (spoilOutput s).nsym = s.nsym := rfl
@[simp] theorem spoilOutput_root (s : State) : (spoilOutput s).root = s.root := rfl
@[simp] theorem spoilOutput_maxLen (s : State) : (spoilOutput s).maxLen = s.maxLen := rfl
@[simp] theorem spoilOutput_freq (s : State) : (spoilOutput s).freq = s.freq := rfl
@[simp] theorem spoilOutput_node (s : State) : (spoilOutput s).node = s.node := rfl
@[simp] theorem spoilOutput_code (s : State) : (spoilOutput s).code = s.code := rfl
@[simp] theorem spoilOutput_ibuf (s : State) : (spoilOutput s).ibuf = s.ibuf := rfl
@[simp] theorem spoilOutput_obuf (s : State) : (spoilOutput s).obuf = Memory.unspecified s.draws := rfl
@[simp] theorem spoilOutput_hidden (s : State) : (spoilOutput s).hidden = s.hidden := rfl
@[simp] theorem spoilOutput_rstN (s : State) : (spoilOutput s).rstN = s.rstN := rfl
@[simp] theorem spoilOutput_recovery (s : State) : (spoilOutput s).recovery = s.recovery := rfl
@[simp] theorem spoilOutput_input (s : State) : (spoilOutput s).input = s.input := rfl
@[simp] theorem spoilOutput_held (s : State) : (spoilOutput s).held = s.held := rfl
@[simp] theorem spoilOutput_answers (s : State) : (spoilOutput s).answers = s.answers := rfl
@[simp] theorem spoilOutput_work (s : State) : (spoilOutput s).work = s.work := rfl
@[simp] theorem spoilOutput_draws (s : State) : (spoilOutput s).draws = s.draws + 1 := rfl

/-! ### `raiseError false r s` (R114) -/

@[simp] theorem raiseError_params (r : Raised) (s : State) : (raiseError false r s).params = s.params := rfl
@[simp] theorem raiseError_ie (r : Raised) (s : State) : (raiseError false r s).ie = s.ie := rfl
@[simp] theorem raiseError_cmd (r : Raised) (s : State) : (raiseError false r s).cmd = s.cmd := rfl
@[simp] theorem raiseError_phase (r : Raised) (s : State) : (raiseError false r s).phase = .idle := rfl
@[simp] theorem raiseError_done (r : Raised) (s : State) : (raiseError false r s).done = true := rfl
@[simp] theorem raiseError_err (r : Raised) (s : State) : (raiseError false r s).err = true := rfl
@[simp] theorem raiseError_freqValid (r : Raised) (s : State) : (raiseError false r s).freqValid = s.freqValid := rfl
@[simp] theorem raiseError_treeValid (r : Raised) (s : State) : (raiseError false r s).treeValid = s.treeValid := rfl
@[simp] theorem raiseError_errCode (r : Raised) (s : State) : (raiseError false r s).errCode = r.code := rfl
@[simp] theorem raiseError_errIndex (r : Raised) (s : State) : (raiseError false r s).errIndex = r.index := rfl
@[simp] theorem raiseError_errValue (r : Raised) (s : State) : (raiseError false r s).errValue = r.value := rfl
@[simp] theorem raiseError_inLen (r : Raised) (s : State) : (raiseError false r s).inLen = s.inLen := rfl
@[simp] theorem raiseError_outLen (r : Raised) (s : State) : (raiseError false r s).outLen = s.outLen := rfl
@[simp] theorem raiseError_bitLen (r : Raised) (s : State) : (raiseError false r s).bitLen = s.bitLen := rfl
@[simp] theorem raiseError_pad (r : Raised) (s : State) : (raiseError false r s).pad = s.pad := rfl
@[simp] theorem raiseError_nsym (r : Raised) (s : State) : (raiseError false r s).nsym = s.nsym := rfl
@[simp] theorem raiseError_root (r : Raised) (s : State) : (raiseError false r s).root = s.root := rfl
@[simp] theorem raiseError_maxLen (r : Raised) (s : State) : (raiseError false r s).maxLen = s.maxLen := rfl
@[simp] theorem raiseError_freq (r : Raised) (s : State) : (raiseError false r s).freq = s.freq := rfl
@[simp] theorem raiseError_node (r : Raised) (s : State) : (raiseError false r s).node = s.node := rfl
@[simp] theorem raiseError_code (r : Raised) (s : State) : (raiseError false r s).code = s.code := rfl
@[simp] theorem raiseError_ibuf (r : Raised) (s : State) : (raiseError false r s).ibuf = s.ibuf := rfl
@[simp] theorem raiseError_obuf (r : Raised) (s : State) : (raiseError false r s).obuf = s.obuf := rfl
@[simp] theorem raiseError_hidden (r : Raised) (s : State) : (raiseError false r s).hidden = Hidden.empty := rfl
@[simp] theorem raiseError_rstN (r : Raised) (s : State) : (raiseError false r s).rstN = s.rstN := rfl
@[simp] theorem raiseError_recovery (r : Raised) (s : State) : (raiseError false r s).recovery = s.recovery := rfl
@[simp] theorem raiseError_input (r : Raised) (s : State) : (raiseError false r s).input = s.input := rfl
@[simp] theorem raiseError_held (r : Raised) (s : State) : (raiseError false r s).held = s.held := rfl
@[simp] theorem raiseError_answers (r : Raised) (s : State) : (raiseError false r s).answers = s.answers := rfl
@[simp] theorem raiseError_work (r : Raised) (s : State) : (raiseError false r s).work = s.work := rfl
@[simp] theorem raiseError_draws (r : Raised) (s : State) : (raiseError false r s).draws = s.draws := rfl

/-! ### `raiseError true r s` (R114) -/

@[simp] theorem raiseError_output_params (r : Raised) (s : State) : (raiseError true r s).params = s.params := rfl
@[simp] theorem raiseError_output_ie (r : Raised) (s : State) : (raiseError true r s).ie = s.ie := rfl
@[simp] theorem raiseError_output_cmd (r : Raised) (s : State) : (raiseError true r s).cmd = s.cmd := rfl
@[simp] theorem raiseError_output_phase (r : Raised) (s : State) : (raiseError true r s).phase = .idle := rfl
@[simp] theorem raiseError_output_done (r : Raised) (s : State) : (raiseError true r s).done = true := rfl
@[simp] theorem raiseError_output_err (r : Raised) (s : State) : (raiseError true r s).err = true := rfl
@[simp] theorem raiseError_output_freqValid (r : Raised) (s : State) :
    (raiseError true r s).freqValid = s.freqValid := rfl
@[simp] theorem raiseError_output_treeValid (r : Raised) (s : State) :
    (raiseError true r s).treeValid = s.treeValid := rfl
@[simp] theorem raiseError_output_errCode (r : Raised) (s : State) : (raiseError true r s).errCode = r.code := rfl
@[simp] theorem raiseError_output_errIndex (r : Raised) (s : State) : (raiseError true r s).errIndex = r.index := rfl
@[simp] theorem raiseError_output_errValue (r : Raised) (s : State) : (raiseError true r s).errValue = r.value := rfl
@[simp] theorem raiseError_output_inLen (r : Raised) (s : State) : (raiseError true r s).inLen = s.inLen := rfl
@[simp] theorem raiseError_output_outLen (r : Raised) (s : State) : (raiseError true r s).outLen = 0 := rfl
@[simp] theorem raiseError_output_bitLen (r : Raised) (s : State) : (raiseError true r s).bitLen = 0 := rfl
@[simp] theorem raiseError_output_pad (r : Raised) (s : State) : (raiseError true r s).pad = 0 := rfl
@[simp] theorem raiseError_output_nsym (r : Raised) (s : State) : (raiseError true r s).nsym = s.nsym := rfl
@[simp] theorem raiseError_output_root (r : Raised) (s : State) : (raiseError true r s).root = s.root := rfl
@[simp] theorem raiseError_output_maxLen (r : Raised) (s : State) : (raiseError true r s).maxLen = s.maxLen := rfl
@[simp] theorem raiseError_output_freq (r : Raised) (s : State) : (raiseError true r s).freq = s.freq := rfl
@[simp] theorem raiseError_output_node (r : Raised) (s : State) : (raiseError true r s).node = s.node := rfl
@[simp] theorem raiseError_output_code (r : Raised) (s : State) : (raiseError true r s).code = s.code := rfl
@[simp] theorem raiseError_output_ibuf (r : Raised) (s : State) : (raiseError true r s).ibuf = s.ibuf := rfl
@[simp] theorem raiseError_output_obuf (r : Raised) (s : State) :
    (raiseError true r s).obuf = Memory.unspecified s.draws := rfl
@[simp] theorem raiseError_output_hidden (r : Raised) (s : State) : (raiseError true r s).hidden = Hidden.empty := rfl
@[simp] theorem raiseError_output_rstN (r : Raised) (s : State) : (raiseError true r s).rstN = s.rstN := rfl
@[simp] theorem raiseError_output_recovery (r : Raised) (s : State) : (raiseError true r s).recovery = s.recovery := rfl
@[simp] theorem raiseError_output_input (r : Raised) (s : State) : (raiseError true r s).input = s.input := rfl
@[simp] theorem raiseError_output_held (r : Raised) (s : State) : (raiseError true r s).held = s.held := rfl
@[simp] theorem raiseError_output_answers (r : Raised) (s : State) : (raiseError true r s).answers = s.answers := rfl
@[simp] theorem raiseError_output_work (r : Raised) (s : State) : (raiseError true r s).work = s.work := rfl
@[simp] theorem raiseError_output_draws (r : Raised) (s : State) : (raiseError true r s).draws = s.draws + 1 := rfl

/-! ### `acknowledge s` (R119) -/

@[simp] theorem acknowledge_params (s : State) : (acknowledge s).params = s.params := rfl
@[simp] theorem acknowledge_ie (s : State) : (acknowledge s).ie = s.ie := rfl
@[simp] theorem acknowledge_cmd (s : State) : (acknowledge s).cmd = s.cmd := rfl
@[simp] theorem acknowledge_phase (s : State) : (acknowledge s).phase = s.phase := rfl
@[simp] theorem acknowledge_done (s : State) : (acknowledge s).done = false := rfl
@[simp] theorem acknowledge_err (s : State) : (acknowledge s).err = s.err := rfl
@[simp] theorem acknowledge_freqValid (s : State) : (acknowledge s).freqValid = s.freqValid := rfl
@[simp] theorem acknowledge_treeValid (s : State) : (acknowledge s).treeValid = s.treeValid := rfl
@[simp] theorem acknowledge_errCode (s : State) : (acknowledge s).errCode = s.errCode := rfl
@[simp] theorem acknowledge_errIndex (s : State) : (acknowledge s).errIndex = s.errIndex := rfl
@[simp] theorem acknowledge_errValue (s : State) : (acknowledge s).errValue = s.errValue := rfl
@[simp] theorem acknowledge_inLen (s : State) : (acknowledge s).inLen = s.inLen := rfl
@[simp] theorem acknowledge_outLen (s : State) : (acknowledge s).outLen = s.outLen := rfl
@[simp] theorem acknowledge_bitLen (s : State) : (acknowledge s).bitLen = s.bitLen := rfl
@[simp] theorem acknowledge_pad (s : State) : (acknowledge s).pad = s.pad := rfl
@[simp] theorem acknowledge_nsym (s : State) : (acknowledge s).nsym = s.nsym := rfl
@[simp] theorem acknowledge_root (s : State) : (acknowledge s).root = s.root := rfl
@[simp] theorem acknowledge_maxLen (s : State) : (acknowledge s).maxLen = s.maxLen := rfl
@[simp] theorem acknowledge_freq (s : State) : (acknowledge s).freq = s.freq := rfl
@[simp] theorem acknowledge_node (s : State) : (acknowledge s).node = s.node := rfl
@[simp] theorem acknowledge_code (s : State) : (acknowledge s).code = s.code := rfl
@[simp] theorem acknowledge_ibuf (s : State) : (acknowledge s).ibuf = s.ibuf := rfl
@[simp] theorem acknowledge_obuf (s : State) : (acknowledge s).obuf = s.obuf := rfl
@[simp] theorem acknowledge_hidden (s : State) : (acknowledge s).hidden = s.hidden := rfl
@[simp] theorem acknowledge_rstN (s : State) : (acknowledge s).rstN = s.rstN := rfl
@[simp] theorem acknowledge_recovery (s : State) : (acknowledge s).recovery = s.recovery := rfl
@[simp] theorem acknowledge_input (s : State) : (acknowledge s).input = s.input := rfl
@[simp] theorem acknowledge_held (s : State) : (acknowledge s).held = s.held := rfl
@[simp] theorem acknowledge_answers (s : State) : (acknowledge s).answers = s.answers := rfl
@[simp] theorem acknowledge_work (s : State) : (acknowledge s).work = s.work := rfl
@[simp] theorem acknowledge_draws (s : State) : (acknowledge s).draws = s.draws := rfl

/-! ### `setResult n b p s` (R27 to R29) -/

@[simp] theorem setResult_params (n b p : Nat) (s : State) : (setResult n b p s).params = s.params := rfl
@[simp] theorem setResult_ie (n b p : Nat) (s : State) : (setResult n b p s).ie = s.ie := rfl
@[simp] theorem setResult_cmd (n b p : Nat) (s : State) : (setResult n b p s).cmd = s.cmd := rfl
@[simp] theorem setResult_phase (n b p : Nat) (s : State) : (setResult n b p s).phase = s.phase := rfl
@[simp] theorem setResult_done (n b p : Nat) (s : State) : (setResult n b p s).done = s.done := rfl
@[simp] theorem setResult_err (n b p : Nat) (s : State) : (setResult n b p s).err = s.err := rfl
@[simp] theorem setResult_freqValid (n b p : Nat) (s : State) : (setResult n b p s).freqValid = s.freqValid := rfl
@[simp] theorem setResult_treeValid (n b p : Nat) (s : State) : (setResult n b p s).treeValid = s.treeValid := rfl
@[simp] theorem setResult_errCode (n b p : Nat) (s : State) : (setResult n b p s).errCode = s.errCode := rfl
@[simp] theorem setResult_errIndex (n b p : Nat) (s : State) : (setResult n b p s).errIndex = s.errIndex := rfl
@[simp] theorem setResult_errValue (n b p : Nat) (s : State) : (setResult n b p s).errValue = s.errValue := rfl
@[simp] theorem setResult_inLen (n b p : Nat) (s : State) : (setResult n b p s).inLen = s.inLen := rfl
@[simp] theorem setResult_outLen (n b p : Nat) (s : State) : (setResult n b p s).outLen = BitVec.ofNat 32 n := rfl
@[simp] theorem setResult_bitLen (n b p : Nat) (s : State) : (setResult n b p s).bitLen = BitVec.ofNat 32 b := rfl
@[simp] theorem setResult_pad (n b p : Nat) (s : State) : (setResult n b p s).pad = BitVec.ofNat 4 p := rfl
@[simp] theorem setResult_nsym (n b p : Nat) (s : State) : (setResult n b p s).nsym = s.nsym := rfl
@[simp] theorem setResult_root (n b p : Nat) (s : State) : (setResult n b p s).root = s.root := rfl
@[simp] theorem setResult_maxLen (n b p : Nat) (s : State) : (setResult n b p s).maxLen = s.maxLen := rfl
@[simp] theorem setResult_freq (n b p : Nat) (s : State) : (setResult n b p s).freq = s.freq := rfl
@[simp] theorem setResult_node (n b p : Nat) (s : State) : (setResult n b p s).node = s.node := rfl
@[simp] theorem setResult_code (n b p : Nat) (s : State) : (setResult n b p s).code = s.code := rfl
@[simp] theorem setResult_ibuf (n b p : Nat) (s : State) : (setResult n b p s).ibuf = s.ibuf := rfl
@[simp] theorem setResult_obuf (n b p : Nat) (s : State) : (setResult n b p s).obuf = s.obuf := rfl
@[simp] theorem setResult_hidden (n b p : Nat) (s : State) : (setResult n b p s).hidden = s.hidden := rfl
@[simp] theorem setResult_rstN (n b p : Nat) (s : State) : (setResult n b p s).rstN = s.rstN := rfl
@[simp] theorem setResult_recovery (n b p : Nat) (s : State) : (setResult n b p s).recovery = s.recovery := rfl
@[simp] theorem setResult_input (n b p : Nat) (s : State) : (setResult n b p s).input = s.input := rfl
@[simp] theorem setResult_held (n b p : Nat) (s : State) : (setResult n b p s).held = s.held := rfl
@[simp] theorem setResult_answers (n b p : Nat) (s : State) : (setResult n b p s).answers = s.answers := rfl
@[simp] theorem setResult_work (n b p : Nat) (s : State) : (setResult n b p s).work = s.work := rfl
@[simp] theorem setResult_draws (n b p : Nat) (s : State) : (setResult n b p s).draws = s.draws := rfl

/-! ### `withInput es s` (R15) -/

@[simp] theorem withInput_params (es : List HostEvent) (s : State) : (withInput es s).params = s.params := rfl
@[simp] theorem withInput_ie (es : List HostEvent) (s : State) : (withInput es s).ie = s.ie := rfl
@[simp] theorem withInput_cmd (es : List HostEvent) (s : State) : (withInput es s).cmd = s.cmd := rfl
@[simp] theorem withInput_phase (es : List HostEvent) (s : State) : (withInput es s).phase = s.phase := rfl
@[simp] theorem withInput_done (es : List HostEvent) (s : State) : (withInput es s).done = s.done := rfl
@[simp] theorem withInput_err (es : List HostEvent) (s : State) : (withInput es s).err = s.err := rfl
@[simp] theorem withInput_freqValid (es : List HostEvent) (s : State) : (withInput es s).freqValid = s.freqValid := rfl
@[simp] theorem withInput_treeValid (es : List HostEvent) (s : State) : (withInput es s).treeValid = s.treeValid := rfl
@[simp] theorem withInput_errCode (es : List HostEvent) (s : State) : (withInput es s).errCode = s.errCode := rfl
@[simp] theorem withInput_errIndex (es : List HostEvent) (s : State) : (withInput es s).errIndex = s.errIndex := rfl
@[simp] theorem withInput_errValue (es : List HostEvent) (s : State) : (withInput es s).errValue = s.errValue := rfl
@[simp] theorem withInput_inLen (es : List HostEvent) (s : State) : (withInput es s).inLen = s.inLen := rfl
@[simp] theorem withInput_outLen (es : List HostEvent) (s : State) : (withInput es s).outLen = s.outLen := rfl
@[simp] theorem withInput_bitLen (es : List HostEvent) (s : State) : (withInput es s).bitLen = s.bitLen := rfl
@[simp] theorem withInput_pad (es : List HostEvent) (s : State) : (withInput es s).pad = s.pad := rfl
@[simp] theorem withInput_nsym (es : List HostEvent) (s : State) : (withInput es s).nsym = s.nsym := rfl
@[simp] theorem withInput_root (es : List HostEvent) (s : State) : (withInput es s).root = s.root := rfl
@[simp] theorem withInput_maxLen (es : List HostEvent) (s : State) : (withInput es s).maxLen = s.maxLen := rfl
@[simp] theorem withInput_freq (es : List HostEvent) (s : State) : (withInput es s).freq = s.freq := rfl
@[simp] theorem withInput_node (es : List HostEvent) (s : State) : (withInput es s).node = s.node := rfl
@[simp] theorem withInput_code (es : List HostEvent) (s : State) : (withInput es s).code = s.code := rfl
@[simp] theorem withInput_ibuf (es : List HostEvent) (s : State) : (withInput es s).ibuf = s.ibuf := rfl
@[simp] theorem withInput_obuf (es : List HostEvent) (s : State) : (withInput es s).obuf = s.obuf := rfl
@[simp] theorem withInput_hidden (es : List HostEvent) (s : State) : (withInput es s).hidden = s.hidden := rfl
@[simp] theorem withInput_rstN (es : List HostEvent) (s : State) : (withInput es s).rstN = s.rstN := rfl
@[simp] theorem withInput_recovery (es : List HostEvent) (s : State) : (withInput es s).recovery = s.recovery := rfl
@[simp] theorem withInput_input (es : List HostEvent) (s : State) : (withInput es s).input = es := rfl
@[simp] theorem withInput_held (es : List HostEvent) (s : State) : (withInput es s).held = s.held := rfl
@[simp] theorem withInput_answers (es : List HostEvent) (s : State) : (withInput es s).answers = s.answers := rfl
@[simp] theorem withInput_work (es : List HostEvent) (s : State) : (withInput es s).work = s.work := rfl
@[simp] theorem withInput_draws (es : List HostEvent) (s : State) : (withInput es s).draws = s.draws := rfl

/-! ### `hold t s` (R54) -/

@[simp] theorem hold_params (t : Transaction) (s : State) : (hold t s).params = s.params := rfl
@[simp] theorem hold_ie (t : Transaction) (s : State) : (hold t s).ie = s.ie := rfl
@[simp] theorem hold_cmd (t : Transaction) (s : State) : (hold t s).cmd = s.cmd := rfl
@[simp] theorem hold_phase (t : Transaction) (s : State) : (hold t s).phase = s.phase := rfl
@[simp] theorem hold_done (t : Transaction) (s : State) : (hold t s).done = s.done := rfl
@[simp] theorem hold_err (t : Transaction) (s : State) : (hold t s).err = s.err := rfl
@[simp] theorem hold_freqValid (t : Transaction) (s : State) : (hold t s).freqValid = s.freqValid := rfl
@[simp] theorem hold_treeValid (t : Transaction) (s : State) : (hold t s).treeValid = s.treeValid := rfl
@[simp] theorem hold_errCode (t : Transaction) (s : State) : (hold t s).errCode = s.errCode := rfl
@[simp] theorem hold_errIndex (t : Transaction) (s : State) : (hold t s).errIndex = s.errIndex := rfl
@[simp] theorem hold_errValue (t : Transaction) (s : State) : (hold t s).errValue = s.errValue := rfl
@[simp] theorem hold_inLen (t : Transaction) (s : State) : (hold t s).inLen = s.inLen := rfl
@[simp] theorem hold_outLen (t : Transaction) (s : State) : (hold t s).outLen = s.outLen := rfl
@[simp] theorem hold_bitLen (t : Transaction) (s : State) : (hold t s).bitLen = s.bitLen := rfl
@[simp] theorem hold_pad (t : Transaction) (s : State) : (hold t s).pad = s.pad := rfl
@[simp] theorem hold_nsym (t : Transaction) (s : State) : (hold t s).nsym = s.nsym := rfl
@[simp] theorem hold_root (t : Transaction) (s : State) : (hold t s).root = s.root := rfl
@[simp] theorem hold_maxLen (t : Transaction) (s : State) : (hold t s).maxLen = s.maxLen := rfl
@[simp] theorem hold_freq (t : Transaction) (s : State) : (hold t s).freq = s.freq := rfl
@[simp] theorem hold_node (t : Transaction) (s : State) : (hold t s).node = s.node := rfl
@[simp] theorem hold_code (t : Transaction) (s : State) : (hold t s).code = s.code := rfl
@[simp] theorem hold_ibuf (t : Transaction) (s : State) : (hold t s).ibuf = s.ibuf := rfl
@[simp] theorem hold_obuf (t : Transaction) (s : State) : (hold t s).obuf = s.obuf := rfl
@[simp] theorem hold_hidden (t : Transaction) (s : State) : (hold t s).hidden = s.hidden := rfl
@[simp] theorem hold_rstN (t : Transaction) (s : State) : (hold t s).rstN = s.rstN := rfl
@[simp] theorem hold_recovery (t : Transaction) (s : State) : (hold t s).recovery = s.recovery := rfl
@[simp] theorem hold_input (t : Transaction) (s : State) : (hold t s).input = s.input := rfl
@[simp] theorem hold_held (t : Transaction) (s : State) : (hold t s).held = s.held ++ [t] := rfl
@[simp] theorem hold_answers (t : Transaction) (s : State) : (hold t s).answers = s.answers := rfl
@[simp] theorem hold_work (t : Transaction) (s : State) : (hold t s).work = s.work := rfl
@[simp] theorem hold_draws (t : Transaction) (s : State) : (hold t s).draws = s.draws := rfl

/-! ### `record t r d s` (R49) -/

@[simp] theorem record_params (t : Transaction) (r : Response) (d : Word) (s : State) :
    (record t r d s).params = s.params := rfl
@[simp] theorem record_ie (t : Transaction) (r : Response) (d : Word) (s : State) : (record t r d s).ie = s.ie := rfl
@[simp] theorem record_cmd (t : Transaction) (r : Response) (d : Word) (s : State) : (record t r d s).cmd = s.cmd := rfl
@[simp] theorem record_phase (t : Transaction) (r : Response) (d : Word) (s : State) :
    (record t r d s).phase = s.phase := rfl
@[simp] theorem record_done (t : Transaction) (r : Response) (d : Word) (s : State) :
    (record t r d s).done = s.done := rfl
@[simp] theorem record_err (t : Transaction) (r : Response) (d : Word) (s : State) : (record t r d s).err = s.err := rfl
@[simp] theorem record_freqValid (t : Transaction) (r : Response) (d : Word) (s : State) :
    (record t r d s).freqValid = s.freqValid := rfl
@[simp] theorem record_treeValid (t : Transaction) (r : Response) (d : Word) (s : State) :
    (record t r d s).treeValid = s.treeValid := rfl
@[simp] theorem record_errCode (t : Transaction) (r : Response) (d : Word) (s : State) :
    (record t r d s).errCode = s.errCode := rfl
@[simp] theorem record_errIndex (t : Transaction) (r : Response) (d : Word) (s : State) :
    (record t r d s).errIndex = s.errIndex := rfl
@[simp] theorem record_errValue (t : Transaction) (r : Response) (d : Word) (s : State) :
    (record t r d s).errValue = s.errValue := rfl
@[simp] theorem record_inLen (t : Transaction) (r : Response) (d : Word) (s : State) :
    (record t r d s).inLen = s.inLen := rfl
@[simp] theorem record_outLen (t : Transaction) (r : Response) (d : Word) (s : State) :
    (record t r d s).outLen = s.outLen := rfl
@[simp] theorem record_bitLen (t : Transaction) (r : Response) (d : Word) (s : State) :
    (record t r d s).bitLen = s.bitLen := rfl
@[simp] theorem record_pad (t : Transaction) (r : Response) (d : Word) (s : State) : (record t r d s).pad = s.pad := rfl
@[simp] theorem record_nsym (t : Transaction) (r : Response) (d : Word) (s : State) :
    (record t r d s).nsym = s.nsym := rfl
@[simp] theorem record_root (t : Transaction) (r : Response) (d : Word) (s : State) :
    (record t r d s).root = s.root := rfl
@[simp] theorem record_maxLen (t : Transaction) (r : Response) (d : Word) (s : State) :
    (record t r d s).maxLen = s.maxLen := rfl
@[simp] theorem record_freq (t : Transaction) (r : Response) (d : Word) (s : State) :
    (record t r d s).freq = s.freq := rfl
@[simp] theorem record_node (t : Transaction) (r : Response) (d : Word) (s : State) :
    (record t r d s).node = s.node := rfl
@[simp] theorem record_code (t : Transaction) (r : Response) (d : Word) (s : State) :
    (record t r d s).code = s.code := rfl
@[simp] theorem record_ibuf (t : Transaction) (r : Response) (d : Word) (s : State) :
    (record t r d s).ibuf = s.ibuf := rfl
@[simp] theorem record_obuf (t : Transaction) (r : Response) (d : Word) (s : State) :
    (record t r d s).obuf = s.obuf := rfl
@[simp] theorem record_hidden (t : Transaction) (r : Response) (d : Word) (s : State) :
    (record t r d s).hidden = s.hidden := rfl
@[simp] theorem record_rstN (t : Transaction) (r : Response) (d : Word) (s : State) :
    (record t r d s).rstN = s.rstN := rfl
@[simp] theorem record_recovery (t : Transaction) (r : Response) (d : Word) (s : State) :
    (record t r d s).recovery = s.recovery := rfl
@[simp] theorem record_input (t : Transaction) (r : Response) (d : Word) (s : State) :
    (record t r d s).input = s.input := rfl
@[simp] theorem record_held (t : Transaction) (r : Response) (d : Word) (s : State) :
    (record t r d s).held = s.held := rfl
@[simp] theorem record_answers (t : Transaction) (r : Response) (d : Word) (s : State) :
    (record t r d s).answers = { txn := t, resp := r, data := d } :: s.answers := rfl
@[simp] theorem record_work (t : Transaction) (r : Response) (d : Word) (s : State) :
    (record t r d s).work = s.work := rfl
@[simp] theorem record_draws (t : Transaction) (r : Response) (d : Word) (s : State) :
    (record t r d s).draws = s.draws := rfl

/-! ### `acceptNow w s` (R112) -/

@[simp] theorem acceptNow_params (w : Word) (s : State) : (acceptNow w s).params = s.params := rfl
@[simp] theorem acceptNow_ie (w : Word) (s : State) : (acceptNow w s).ie = s.ie := rfl
@[simp] theorem acceptNow_cmd (w : Word) (s : State) : (acceptNow w s).cmd = w := rfl
@[simp] theorem acceptNow_phase (w : Word) (s : State) : (acceptNow w s).phase = .busy := rfl
@[simp] theorem acceptNow_done (w : Word) (s : State) : (acceptNow w s).done = false := rfl
@[simp] theorem acceptNow_err (w : Word) (s : State) : (acceptNow w s).err = false := rfl
@[simp] theorem acceptNow_freqValid (w : Word) (s : State) : (acceptNow w s).freqValid = s.freqValid := rfl
@[simp] theorem acceptNow_treeValid (w : Word) (s : State) : (acceptNow w s).treeValid = s.treeValid := rfl
@[simp] theorem acceptNow_errCode (w : Word) (s : State) : (acceptNow w s).errCode = .none := rfl
@[simp] theorem acceptNow_errIndex (w : Word) (s : State) : (acceptNow w s).errIndex = 0 := rfl
@[simp] theorem acceptNow_errValue (w : Word) (s : State) : (acceptNow w s).errValue = 0 := rfl
@[simp] theorem acceptNow_inLen (w : Word) (s : State) : (acceptNow w s).inLen = s.inLen := rfl
@[simp] theorem acceptNow_outLen (w : Word) (s : State) : (acceptNow w s).outLen = s.outLen := rfl
@[simp] theorem acceptNow_bitLen (w : Word) (s : State) : (acceptNow w s).bitLen = s.bitLen := rfl
@[simp] theorem acceptNow_pad (w : Word) (s : State) : (acceptNow w s).pad = s.pad := rfl
@[simp] theorem acceptNow_nsym (w : Word) (s : State) : (acceptNow w s).nsym = s.nsym := rfl
@[simp] theorem acceptNow_root (w : Word) (s : State) : (acceptNow w s).root = s.root := rfl
@[simp] theorem acceptNow_maxLen (w : Word) (s : State) : (acceptNow w s).maxLen = s.maxLen := rfl
@[simp] theorem acceptNow_freq (w : Word) (s : State) : (acceptNow w s).freq = s.freq := rfl
@[simp] theorem acceptNow_node (w : Word) (s : State) : (acceptNow w s).node = s.node := rfl
@[simp] theorem acceptNow_code (w : Word) (s : State) : (acceptNow w s).code = s.code := rfl
@[simp] theorem acceptNow_ibuf (w : Word) (s : State) : (acceptNow w s).ibuf = s.ibuf := rfl
@[simp] theorem acceptNow_obuf (w : Word) (s : State) : (acceptNow w s).obuf = s.obuf := rfl
@[simp] theorem acceptNow_hidden (w : Word) (s : State) : (acceptNow w s).hidden = Hidden.empty := rfl
@[simp] theorem acceptNow_rstN (w : Word) (s : State) : (acceptNow w s).rstN = true := rfl
@[simp] theorem acceptNow_recovery (w : Word) (s : State) : (acceptNow w s).recovery = 0 := rfl
@[simp] theorem acceptNow_input (w : Word) (s : State) : (acceptNow w s).input = s.input := rfl
@[simp] theorem acceptNow_held (w : Word) (s : State) : (acceptNow w s).held = s.held := rfl
@[simp] theorem acceptNow_answers (w : Word) (s : State) : (acceptNow w s).answers = s.answers := rfl
@[simp] theorem acceptNow_work (w : Word) (s : State) : (acceptNow w s).work = 0 := rfl
@[simp] theorem acceptNow_draws (w : Word) (s : State) : (acceptNow w s).draws = s.draws + 1 := rfl

/-! ### `resetBlock s` (R128, R129) -/

@[simp] theorem resetBlock_params (s : State) : (resetBlock s).params = s.params := rfl
@[simp] theorem resetBlock_ie (s : State) : (resetBlock s).ie = false := rfl
@[simp] theorem resetBlock_cmd (s : State) : (resetBlock s).cmd = 0 := rfl
@[simp] theorem resetBlock_phase (s : State) : (resetBlock s).phase = .idle := rfl
@[simp] theorem resetBlock_done (s : State) : (resetBlock s).done = false := rfl
@[simp] theorem resetBlock_err (s : State) : (resetBlock s).err = false := rfl
@[simp] theorem resetBlock_freqValid (s : State) : (resetBlock s).freqValid = false := rfl
@[simp] theorem resetBlock_treeValid (s : State) : (resetBlock s).treeValid = false := rfl
@[simp] theorem resetBlock_errCode (s : State) : (resetBlock s).errCode = .none := rfl
@[simp] theorem resetBlock_errIndex (s : State) : (resetBlock s).errIndex = 0 := rfl
@[simp] theorem resetBlock_errValue (s : State) : (resetBlock s).errValue = 0 := rfl
@[simp] theorem resetBlock_inLen (s : State) : (resetBlock s).inLen = 0 := rfl
@[simp] theorem resetBlock_outLen (s : State) : (resetBlock s).outLen = 0 := rfl
@[simp] theorem resetBlock_bitLen (s : State) : (resetBlock s).bitLen = 0 := rfl
@[simp] theorem resetBlock_pad (s : State) : (resetBlock s).pad = 0 := rfl
@[simp] theorem resetBlock_nsym (s : State) : (resetBlock s).nsym = 0 := rfl
@[simp] theorem resetBlock_root (s : State) : (resetBlock s).root = 0 := rfl
@[simp] theorem resetBlock_maxLen (s : State) : (resetBlock s).maxLen = 0 := rfl
@[simp] theorem resetBlock_freq (s : State) : (resetBlock s).freq = zeroFreqs := rfl
@[simp] theorem resetBlock_node (s : State) : (resetBlock s).node = zeroNodes := rfl
@[simp] theorem resetBlock_code (s : State) : (resetBlock s).code = zeroCodes := rfl
@[simp] theorem resetBlock_ibuf (s : State) : (resetBlock s).ibuf = s.ibuf := rfl
@[simp] theorem resetBlock_obuf (s : State) : (resetBlock s).obuf = s.obuf := rfl
@[simp] theorem resetBlock_hidden (s : State) : (resetBlock s).hidden = Hidden.empty := rfl
@[simp] theorem resetBlock_rstN (s : State) : (resetBlock s).rstN = s.rstN := rfl
@[simp] theorem resetBlock_recovery (s : State) : (resetBlock s).recovery = 0 := rfl
@[simp] theorem resetBlock_input (s : State) : (resetBlock s).input = s.input := rfl
@[simp] theorem resetBlock_held (s : State) : (resetBlock s).held = s.held := rfl
@[simp] theorem resetBlock_answers (s : State) : (resetBlock s).answers = s.answers := rfl
@[simp] theorem resetBlock_work (s : State) : (resetBlock s).work = 0 := rfl
@[simp] theorem resetBlock_draws (s : State) : (resetBlock s).draws = s.draws := rfl

/-! ### `settle left s` (R128) -/

@[simp] theorem settle_params (left : Nat) (s : State) : (settle left s).params = s.params := rfl
@[simp] theorem settle_ie (left : Nat) (s : State) :
    (settle left s).ie = (s.ie && (left != 0 && Config.freeLinger (s.draws + 1))) := rfl
@[simp] theorem settle_cmd (left : Nat) (s : State) : (settle left s).cmd = s.cmd := rfl
@[simp] theorem settle_phase (left : Nat) (s : State) : (settle left s).phase = s.phase := rfl
@[simp] theorem settle_done (left : Nat) (s : State) :
    (settle left s).done = (s.done && (left != 0 && Config.freeLinger s.draws)) := rfl
@[simp] theorem settle_err (left : Nat) (s : State) : (settle left s).err = s.err := rfl
@[simp] theorem settle_freqValid (left : Nat) (s : State) : (settle left s).freqValid = s.freqValid := rfl
@[simp] theorem settle_treeValid (left : Nat) (s : State) : (settle left s).treeValid = s.treeValid := rfl
@[simp] theorem settle_errCode (left : Nat) (s : State) : (settle left s).errCode = s.errCode := rfl
@[simp] theorem settle_errIndex (left : Nat) (s : State) : (settle left s).errIndex = s.errIndex := rfl
@[simp] theorem settle_errValue (left : Nat) (s : State) : (settle left s).errValue = s.errValue := rfl
@[simp] theorem settle_inLen (left : Nat) (s : State) : (settle left s).inLen = s.inLen := rfl
@[simp] theorem settle_outLen (left : Nat) (s : State) : (settle left s).outLen = s.outLen := rfl
@[simp] theorem settle_bitLen (left : Nat) (s : State) : (settle left s).bitLen = s.bitLen := rfl
@[simp] theorem settle_pad (left : Nat) (s : State) : (settle left s).pad = s.pad := rfl
@[simp] theorem settle_nsym (left : Nat) (s : State) : (settle left s).nsym = s.nsym := rfl
@[simp] theorem settle_root (left : Nat) (s : State) : (settle left s).root = s.root := rfl
@[simp] theorem settle_maxLen (left : Nat) (s : State) : (settle left s).maxLen = s.maxLen := rfl
@[simp] theorem settle_freq (left : Nat) (s : State) : (settle left s).freq = s.freq := rfl
@[simp] theorem settle_node (left : Nat) (s : State) : (settle left s).node = s.node := rfl
@[simp] theorem settle_code (left : Nat) (s : State) : (settle left s).code = s.code := rfl
@[simp] theorem settle_ibuf (left : Nat) (s : State) : (settle left s).ibuf = s.ibuf := rfl
@[simp] theorem settle_obuf (left : Nat) (s : State) : (settle left s).obuf = s.obuf := rfl
@[simp] theorem settle_hidden (left : Nat) (s : State) : (settle left s).hidden = s.hidden := rfl
@[simp] theorem settle_rstN (left : Nat) (s : State) : (settle left s).rstN = s.rstN := rfl
@[simp] theorem settle_recovery (left : Nat) (s : State) : (settle left s).recovery = s.recovery := rfl
@[simp] theorem settle_input (left : Nat) (s : State) : (settle left s).input = s.input := rfl
@[simp] theorem settle_held (left : Nat) (s : State) : (settle left s).held = s.held := rfl
@[simp] theorem settle_answers (left : Nat) (s : State) : (settle left s).answers = s.answers := rfl
@[simp] theorem settle_work (left : Nat) (s : State) : (settle left s).work = s.work := rfl
@[simp] theorem settle_draws (left : Nat) (s : State) : (settle left s).draws = s.draws + 2 := rfl

end Sys2Proof.Machine
end

