-- ==== Sys2Proof/Laws/Port.lean ====
section
/-! SUPPORT. What one step is in each situation of the block, and what the port does with each register (R49, R54,
R112, R128). -/

namespace Sys2Proof.Machine

/-! ### The decoder -/

theorem decodeWord_reserved {w : Word} (h : 12 ≤ w.toNat) : decodeWord w = .reserved w := by
  unfold decodeWord
  split <;> first | rfl | omega

/-- A word is one of the twelve commands, or it is reserved and stands for itself. -/
theorem decodeWord_cases (w : Word) :
    (w.toNat < 12 ∧ (∀ v, decodeWord w ≠ .reserved v) ∧ encode (decodeWord w) = w ∧ (decodeWord w).wf = true) ∨
      (12 ≤ w.toNat ∧ decodeWord w = .reserved w) := by
  by_cases h : 12 ≤ w.toNat
  · exact .inr ⟨h, decodeWord_reserved h⟩
  · refine .inl ⟨by omega, ?_⟩
    have hall : ∀ k : Fin 12, (∀ v, decodeWord (BitVec.ofNat 32 k) ≠ .reserved v) ∧
        encode (decodeWord (BitVec.ofNat 32 k)) = BitVec.ofNat 32 k ∧ (decodeWord (BitVec.ofNat 32 k)).wf = true := by
      intro k
      refine ⟨?_, ?_⟩
      · fin_cases k <;> intro v hv <;> cases hv
      · revert k; decide
    simpa using hall ⟨w.toNat, by omega⟩

/-- The fields of R70 and the number of the word. -/
theorem legal_iff (w : Word) :
    (w.extractLsb' 4 28 = 0 ∧ (w.extractLsb' 0 4).toNat ≤ 0xB) ↔ w.toNat < 12 := by
  rw [← BitVec.toNat_inj]
  simp [BitVec.extractLsb'_toNat, Nat.shiftRight_eq_div_pow]
  omega

/-! ### One step -/

theorem step_idle {s : State} (h₁ : s.rstN = true) (h₂ : s.recovery = 0) (h₃ : s.phase = .idle) :
    step s = .next (idleStep s) := by
  simp [step, h₁, h₂, h₃]

theorem step_busy {s : State} {n : Nat} (h₁ : s.rstN = true) (h₂ : s.recovery = 0) (h₃ : s.phase = .busy)
    (h₄ : s.work = n + 1) : step s = .next (busyStep n s) := by
  simp [step, h₁, h₂, h₃, h₄]

theorem step_command {s : State} (h₁ : s.rstN = true) (h₂ : s.recovery = 0) (h₃ : s.phase = .busy)
    (h₄ : s.work = 0) : step s = exec (decodeWord s.cmd) s := by
  simp [step, h₁, h₂, h₃, h₄]

theorem step_recovery {s : State} {n : Nat} (h₁ : s.rstN = true) (h₂ : s.recovery = n + 1) :
    step s = .next (recoveryStep n s) := by
  simp [step, h₁, h₂]

/-- What a step of recovery does to DONE and IE: each stays or falls for good, and both are 0 when no step is left
(R128). -/
theorem settle_spec (left : Nat) (s : State) :
    ∃ done ie, settle left s = { s with done := done, ie := ie, draws := s.draws + 2 } ∧
      (done = true → s.done = true) ∧ (ie = true → s.ie = true) ∧ (left = 0 → done = false ∧ ie = false) :=
  ⟨_, _, rfl, fun h => (Bool.and_eq_true_iff.mp h).1, fun h => (Bool.and_eq_true_iff.mp h).1, fun h => by simp [h]⟩

/-- The state at the rise of `rst_n` (R128). -/
theorem hardReset_spec (s : State) :
    ∃ done ie, hardReset s = { resetBlock s with
        done := done, ie := ie, ibuf := Memory.unspecified s.draws, obuf := Memory.unspecified (s.draws + 1)
        recovery := Config.recoveryTime (s.draws + 2), draws := s.draws + 5 } ∧
      (done = true → s.done = true) ∧ (ie = true → s.ie = true) ∧
      (Config.recoveryTime (s.draws + 2) = 0 → done = false ∧ ie = false) := by
  obtain ⟨done, ie, h, h₁, h₂, h₃⟩ := settle_spec (Config.recoveryTime (s.draws + 2)) { resetBlock s with
    done := s.done, ie := s.ie
    ibuf := Memory.unspecified s.draws, obuf := Memory.unspecified (s.draws + 1)
    recovery := Config.recoveryTime (s.draws + 2), draws := s.draws + 3 }
  exact ⟨done, ie, h, h₁, h₂, h₃⟩

/-- A step of recovery moves the bus, the pin, DONE and IE, and answers nothing (R128). -/
theorem recoveryStep_spec (n : Nat) (s : State) :
    ∃ done ie es ts pin d, recoveryStep n s = { s with
        done := done, ie := ie, recovery := n, input := es, held := ts, rstN := pin, draws := d } ∧
      (done = true → s.done = true) ∧ (ie = true → s.ie = true) ∧ (n = 0 → done = false ∧ ie = false) := by
  obtain ⟨done, ie, h, hs⟩ := settle_spec n { s with recovery := n }
  refine ⟨done, ie, ?_⟩
  unfold recoveryStep
  rw [h]
  simp only
  split
  · exact ⟨_, _, _, _, rfl, hs⟩
  · exact ⟨_, _, _, _, rfl, hs⟩
  · exact ⟨_, _, _, _, rfl, hs⟩
  · split <;> exact ⟨_, _, _, _, rfl, hs⟩
  · exact ⟨_, _, _, _, rfl, hs⟩

theorem step_low {s : State} (h₁ : s.rstN = false) : step s = lowStep s := by
  simp [step, h₁]

theorem idleStep_held {s : State} {t : Transaction} {ts : List Transaction} (h : s.held = t :: ts) :
    idleStep s = release t ts s := by
  simp only [idleStep, h]

/-- A transaction that leaves the block IDLE is released alone. -/
theorem release_idle {t : Transaction} {ts : List Transaction} {s : State}
    (h : (transact t { s with held := ts }).phase = .idle) : release t ts s = transact t { s with held := ts } := by
  simp only [release, h]

/-- A STATUS read while BUSY = 1 shows BUSY and neither DONE nor ERR (R22). -/
theorem busyStatus_low (i : Instr) (s : State) :
    (busyStatus i s).getLsbD 0 = true ∧ (busyStatus i s).getLsbD 1 = false ∧ (busyStatus i s).getLsbD 2 = false := by
  unfold busyStatus
  generalize admitted s.freqValid _ _ = a
  generalize admitted s.treeValid _ _ = b
  revert a b; decide

/-- Answering STATUS reads adds their answers and takes draws, and changes nothing else. -/
theorem answerStatusReads_spec (ts : List Transaction) (s : State) :
    ∃ (data : List Word) (d : Nat),
      answerStatusReads ts s = { s with answers := statusAnswers data ++ s.answers, draws := d } ∧
      data.length = (ts.filter isStatusRead).length ∧
      ∀ w ∈ data, ∃ k, w = busyStatus (decodeWord s.cmd) { s with draws := k } := by
  induction ts generalizing s with
  | nil => exact ⟨[], s.draws, rfl, rfl, by simp⟩
  | cons t ts ih =>
    cases ht : isStatusRead t with
    | false =>
      rw [answerStatusReads, ht, List.filter_cons_of_neg (by simp [ht])]
      exact ih s
    | true =>
      obtain ⟨data, d, h₁, h₂, h₃⟩ := ih (answerBusyStatus s)
      rw [answerStatusReads, ht, if_pos rfl, List.filter_cons_of_pos ht, h₁]
      refine ⟨data ++ [busyStatus (decodeWord s.cmd) s], d, ?_, by simp [h₂], ?_⟩
      · simp only [statusAnswers, List.map_append, List.append_assoc, answerBusyStatus, record]; rfl
      · intro w hw
        rcases List.mem_append.mp hw with hw | hw
        · exact h₃ w hw
        · exact ⟨s.draws, List.mem_singleton.mp hw⟩

/-- A held CMD write starts its command; the STATUS reads behind it are answered, the rest stay held (R112, R54). -/
theorem release_cmd (w : Word) (ts : List Transaction) (s : State) :
    ∃ (data : List Word) (d : Nat),
      release (.write 0x008#22 0xF#4 w) ts s = { accept w s with
        held := ts.filter fun x => !isStatusRead x
        answers := statusAnswers data ++ { txn := .write 0x008#22 0xF#4 w, resp := .okay, data := 0 } :: s.answers
        draws := d } ∧
      data.length = (ts.filter isStatusRead).length ∧
      ∀ v ∈ data, ∃ k, v = busyStatus (decodeWord w) { accept w s with draws := k } := by
  obtain ⟨data, d, h₁, h₂, h₃⟩ := answerStatusReads_spec ts
    { transact (.write 0x008#22 0xF#4 w) { s with held := ts } with held := ts.filter fun x => !isStatusRead x }
  refine ⟨data, d, ?_, h₂, h₃⟩
  rw [release]
  exact h₁

theorem idleStep_issue {s : State} {t : Transaction} {es : List HostEvent} (h : s.held = []) (h' : s.input = .issue t :: es) :
    idleStep s = transact t (withInput es s) := by
  simp only [idleStep, h, h']

theorem idleStep_await {s : State} {es : List HostEvent} (h : s.held = []) (h' : s.input = .await :: es) :
    idleStep s = withInput es s := by
  simp only [idleStep, h, h']

theorem idleStep_poll {s : State} {a : Offset} {m v : Word} {es : List HostEvent} (h : s.held = [])
    (h' : s.input = .poll a m v :: es) :
    idleStep s = pollStep m v (memRead s a).2 es (transact (.read a) s) := by
  simp only [idleStep, h, h']

/-! ### The registers behind the port -/

theorem memWrite_cmd (s : State) (w : Word) : memWrite s 0x008#22 0xF#4 w = (.okay, accept w s) := rfl

theorem memWrite_ctrl (s : State) (v : Word) : memWrite s 0x004#22 0xF#4 v = (.okay, writeCtrl v s) := rfl

theorem memWrite_status (s : State) (v : Word) : memWrite s 0x00C#22 0xF#4 v = (.okay, writeStatus v s) := rfl

theorem memWrite_inLen (s : State) (v : Word) : memWrite s 0x01C#22 0xF#4 v = (.okay, { s with inLen := v }) := rfl

theorem memRead_status (s : State) : memRead s 0x00C#22 = (.okay, statusWord s) := rfl

/-- A CMD write accepts the command (R112). -/
theorem transact_cmd (s : State) (w : Word) :
    transact (.write 0x008#22 0xF#4 w) s = record (.write 0x008#22 0xF#4 w) .okay 0 (accept w s) := rfl

/-! ### Runs -/

/-- A run of `j + k` steps is a run of `j` steps, then of `k`. -/
theorem runSteps_add {s t : State} {j : Nat} (h : runSteps j s = .next t) (k : Nat) :
    runSteps (j + k) s = runSteps k t := by
  induction j generalizing s with
  | zero => cases h; rw [Nat.zero_add]
  | succ j ih =>
    rw [Nat.add_right_comm]
    simp only [runSteps] at h ⊢
    cases hs : step s with
    | next u => rw [hs] at h; exact ih h
    | fault r => rw [hs] at h; cases h
    | refused r => rw [hs] at h; cases h

theorem runSteps_one (s : State) : runSteps 1 s = step s := by
  simp only [runSteps]
  cases step s <;> rfl

theorem runSteps_succ {s t : State} {j : Nat} (h : runSteps j s = .next t) : runSteps (j + 1) s = step t := by
  rw [runSteps_add h, runSteps_one]

theorem runSteps_cons {s t : State} (h : step s = .next t) (k : Nat) : runSteps (k + 1) s = runSteps k t := by
  simp only [runSteps, h]

/-! ### While a command runs (R54) -/

/-- While a command runs and the pin is left alone, only the port moves. -/
theorem busyStep_port (n : Nat) (s : State) (h : ∀ l, HostEvent.rst l ∉ s.input) :
    ∃ es ts as d, busyStep n s = { s with work := n, input := es, held := ts, answers := as, draws := d } ∧
      ∀ l, HostEvent.rst l ∉ es := by
  unfold busyStep
  split
  · exact ⟨_, _, _, _, rfl, h⟩
  · rename_i t es heq
    rw [heq] at h
    split
    · exact ⟨es, _, _, _, rfl, by simpa using h⟩
    · exact ⟨es, _, _, _, rfl, by simpa using h⟩
  · rename_i heq
    split
    · unfold pollStep
      split
      · rw [heq] at h; exact ⟨_, _, _, _, rfl, by simpa using h⟩
      · exact ⟨_, _, _, _, rfl, h⟩
    · exact ⟨_, _, _, _, rfl, h⟩
  · rename_i heq
    split
    · rw [heq] at h; exact ⟨_, _, _, _, rfl, by simpa using h⟩
    · exact ⟨_, _, _, _, rfl, h⟩
  · rename_i heq
    exact absurd (heq ▸ List.mem_cons_self) (h _)

/-- The free running time passes, and only the port has moved. -/
theorem runSteps_busy {n : Nat} {s : State} (h₁ : s.rstN = true) (h₂ : s.recovery = 0) (h₃ : s.phase = .busy)
    (h₄ : s.work = n) (h : ∀ l, HostEvent.rst l ∉ s.input) :
    ∃ s', runSteps n s = .next s' ∧
      s' = { s with work := 0, input := s'.input, held := s'.held, answers := s'.answers, draws := s'.draws } ∧
      ∀ l, HostEvent.rst l ∉ s'.input := by
  induction n generalizing s with
  | zero => exact ⟨s, rfl, by rw [← h₄], h⟩
  | succ n ih =>
    obtain ⟨es, ts, as, d, hb, hi⟩ := busyStep_port n s h
    rw [runSteps_cons (step_busy h₁ h₂ h₃ h₄)]
    rw [hb]
    obtain ⟨s', hs, he, hi'⟩ := ih (s := { s with work := n, input := es, held := ts, answers := as, draws := d })
      h₁ h₂ h₃ rfl hi
    exact ⟨s', hs, he, hi'⟩

end Sys2Proof.Machine
end

