-- ==== Sys2Proof/Laws/Windows.lean ====
section
/-! SUPPORT. What stands at each offset of the aperture, and the words read and written there (R48, R57 to R62). -/

namespace Sys2Proof.Machine

/-! ### The address map -/

theorem toNat_offset {n : Nat} (h : n < 0x400000) : (BitVec.ofNat 22 n).toNat = n := by
  rw [BitVec.toNat_ofNat]; omega

theorem ofNat_toNat_offset (a : Offset) : BitVec.ofNat 22 a.toNat = a := by simp

/-- The admitted sizes (R4, R5). -/
theorem sizes_of_wf {p : Params} (h : p.wf = true) :
    p.ibufSize ≤ 2 ^ 20 ∧ p.obufSize ≤ 2 ^ 20 ∧ p.ibufSize % 4 = 0 ∧ p.obufSize % 4 = 0 := by
  simp [Params.wf, sizeOk] at h; omega

/-- The mapped offsets (R48). -/
def Mapped (p : Params) (a : Nat) : Prop :=
  a < 0x40 ∨ (0x1000 ≤ a ∧ a < 0x1400) ∨ (0x2000 ≤ a ∧ a < 0x3000) ∨
          (0x4000 ≤ a ∧ a < 0x8000) ∨
          (0x100000 ≤ a ∧ a < 0x100000 + p.ibufSize) ∨
          (0x200000 ≤ a ∧ a < 0x200000 + p.obufSize)

theorem regAt_some {k : Nat} (h : k < 16) : ∃ r, regAt k = some r := by
  have : ∀ k : Fin 16, ∃ r, regAt k = some r := by intro k; fin_cases k <;> exact ⟨_, rfl⟩
  exact this ⟨k, h⟩

/-- A region stands exactly at the mapped offsets (R48). -/
theorem regionOf_isSome (p : Params) (a : Offset) (hp : p.ibufSize ≤ 2 ^ 20) :
    (∃ g, regionOf p a = some g) ↔ Mapped p a.toNat := by
  unfold regionOf Mapped
  simp only
  split
  · rename_i h
    obtain ⟨r, hr⟩ := regAt_some (k := a.toNat / 4) (by omega)
    rw [hr]; simp [h]
  all_goals split
  · simp; omega
  · split
    · simp; omega
    · split
      · simp; omega
      · split
        · split <;> · simp; omega
        · split
          · simp; omega
          · split
            · simp; omega
            · split
              · simp; omega
              · split
                · simp; omega
                · split
                  · simp; omega
                  · split
                    · simp; omega
                    · simp; omega

/-- The FREQ window (R57). -/
theorem regionOf_freq (p : Params) (b : Byte) : regionOf p (BitVec.ofNat 22 (0x1000 + 4 * b.toNat)) = some
    (.freq b) := by
  have := b.isLt
  unfold regionOf
  simp only
  rw [toNat_offset (by omega), if_neg (show ¬ _ < 0x40 by omega), if_neg (show ¬ _ < 0x1000 by omega),
      if_pos (show _ < 0x1400 by omega)]
  rw [show (0x1000 + 4 * b.toNat - 0x1000) / 4 = b.toNat by omega]; simp

/-- The NODE window (R58). -/
theorem regionOf_node (p : Params) (j : NodeIdx) : regionOf p (BitVec.ofNat 22 (0x2000 + 8 * j.toNat)) = some
    (.nodeWeight j) ∧ regionOf p (BitVec.ofNat 22 (0x2000 + 8 * j.toNat + 4)) = some (.nodeFields j) := by
  have := j.isLt
  unfold regionOf
  simp only
  constructor
  · rw [toNat_offset (by omega), if_neg (show ¬ _ < 0x40 by omega), if_neg (show ¬ _ < 0x1000 by omega),
        if_neg (show ¬ _ < 0x1400 by omega), if_neg (show ¬ _ < 0x2000 by omega), if_pos (show _ < 0x3000 by omega),
        if_pos (show _ % 8 = 0 by omega)]
    rw [show (0x2000 + 8 * j.toNat - 0x2000) / 8 = j.toNat by omega]; simp
  · rw [toNat_offset (by omega), if_neg (show ¬ _ < 0x40 by omega), if_neg (show ¬ _ < 0x1000 by omega),
        if_neg (show ¬ _ < 0x1400 by omega), if_neg (show ¬ _ < 0x2000 by omega), if_pos (show _ < 0x3000 by omega),
        if_neg (show ¬ _ % 8 = 0 by omega)]
    rw [show (0x2000 + 8 * j.toNat + 4 - 0x2000) / 8 = j.toNat by omega]; simp

/-- The CODE window (R59). -/
theorem regionOf_code (p : Params) (b : Byte) {w : Nat} (hw : w < 16) : regionOf p
    (BitVec.ofNat 22 (0x4000 + 64 * b.toNat + 4 * w)) = some (.code b w) := by
  have := b.isLt
  unfold regionOf
  simp only
  rw [toNat_offset (by omega), if_neg (show ¬ _ < 0x40 by omega), if_neg (show ¬ _ < 0x1000 by omega),
      if_neg (show ¬ _ < 0x1400 by omega), if_neg (show ¬ _ < 0x2000 by omega), if_neg (show ¬ _ < 0x3000 by omega),
      if_neg (show ¬ _ < 0x4000 by omega), if_pos (show _ < 0x8000 by omega)]
  rw [show (0x4000 + 64 * b.toNat + 4 * w - 0x4000) / 64 =
      b.toNat by omega, show (0x4000 + 64 * b.toNat + 4 * w - 0x4000) % 64 / 4 = w by omega]; simp

/-- The IBUF window (R60). -/
theorem regionOf_ibuf {p : Params} {i : Nat} (h : i < p.ibufSize) (hs : p.ibufSize ≤ 2 ^ 20) : regionOf p
    (BitVec.ofNat 22 (0x100000 + i)) = some (.ibuf i) := by
  unfold regionOf
  simp only
  rw [toNat_offset (by omega), if_neg (show ¬ _ < 0x40 by omega), if_neg (show ¬ _ < 0x1000 by omega),
      if_neg (show ¬ _ < 0x1400 by omega), if_neg (show ¬ _ < 0x2000 by omega), if_neg (show ¬ _ < 0x3000 by omega),
      if_neg (show ¬ _ < 0x4000 by omega), if_neg (show ¬ _ < 0x8000 by omega), if_neg (show ¬ _ < 0x100000 by omega),
      if_pos (show _ < 0x100000 + p.ibufSize by omega)]
  simp

/-- The OBUF window (R61). -/
theorem regionOf_obuf {p : Params} {i : Nat} (h : i < p.obufSize) (hs : p.obufSize ≤ 2 ^ 20)
    (hs' : p.ibufSize ≤ 2 ^ 20) : regionOf p (BitVec.ofNat 22 (0x200000 + i)) = some (.obuf i) := by
  unfold regionOf
  simp only
  rw [toNat_offset (by omega), if_neg (show ¬ _ < 0x40 by omega), if_neg (show ¬ _ < 0x1000 by omega),
      if_neg (show ¬ _ < 0x1400 by omega), if_neg (show ¬ _ < 0x2000 by omega), if_neg (show ¬ _ < 0x3000 by omega),
      if_neg (show ¬ _ < 0x4000 by omega), if_neg (show ¬ _ < 0x8000 by omega), if_neg (show ¬ _ < 0x100000 by omega),
      if_neg (show ¬ _ < 0x100000 + p.ibufSize by omega), if_neg (show ¬ _ < 0x200000 by omega),
      if_pos (show _ < 0x200000 + p.obufSize by omega)]
  simp

theorem regionOf_inFreq (p : Params) {a : Offset} (h : 0x1000 ≤ a.toNat) (h' : a.toNat < 0x1400)
    (h4 : a.toNat % 4 = 0) : ∃ b, regionOf p a = some (.freq b) := by
  refine ⟨BitVec.ofNat 8 ((a.toNat - 0x1000) / 4), ?_⟩
  have := regionOf_freq p (BitVec.ofNat 8 ((a.toNat - 0x1000) / 4))
  rw [BitVec.toNat_ofNat, Nat.mod_eq_of_lt (by omega), show 0x1000 + 4 * ((a.toNat - 0x1000) / 4) =
      a.toNat by omega, ofNat_toNat_offset] at this
  exact this

theorem regionOf_inNode (p : Params) {a : Offset} (h : 0x2000 ≤ a.toNat) (h' : a.toNat < 0x3000)
    (h4 : a.toNat % 4 = 0) : ∃ j, (a.toNat % 8 = 0 ∧ regionOf p a = some (.nodeWeight j)) ∨
    (a.toNat % 8 = 4 ∧ regionOf p a = some (.nodeFields j)) := by
  refine ⟨BitVec.ofNat 9 ((a.toNat - 0x2000) / 8), ?_⟩
  have := regionOf_node p (BitVec.ofNat 9 ((a.toNat - 0x2000) / 8))
  rw [BitVec.toNat_ofNat, Nat.mod_eq_of_lt (by omega)] at this
  by_cases h8 : a.toNat % 8 = 0
  · left; refine ⟨h8, ?_⟩
    have := this.1
    rw [show 0x2000 + 8 * ((a.toNat - 0x2000) / 8) = a.toNat by omega, ofNat_toNat_offset] at this
    exact this
  · right; refine ⟨by omega, ?_⟩
    have := this.2
    rw [show 0x2000 + 8 * ((a.toNat - 0x2000) / 8) + 4 = a.toNat by omega, ofNat_toNat_offset] at this
    exact this

theorem regionOf_inCode (p : Params) {a : Offset} (h : 0x4000 ≤ a.toNat) (h' : a.toNat < 0x8000)
    (h4 : a.toNat % 4 = 0) : ∃ b, regionOf p a = some (.code b (a.toNat % 64 / 4)) := by
  refine ⟨BitVec.ofNat 8 ((a.toNat - 0x4000) / 64), ?_⟩
  have := regionOf_code p (BitVec.ofNat 8 ((a.toNat - 0x4000) / 64)) (w := a.toNat % 64 / 4) (by omega)
  rw [BitVec.toNat_ofNat, Nat.mod_eq_of_lt (by omega),
      show 0x4000 + 64 * ((a.toNat - 0x4000) / 64) + 4 * (a.toNat % 64 / 4) =
      a.toNat by omega, ofNat_toNat_offset] at this
  exact this

/-- Where an IBUF word can stand (R60). -/
theorem region_ibuf_lt {p : Params} {a : Offset} {i : Nat} (h : regionOf p a = some (.ibuf i)) :
    i < p.ibufSize ∧ a.toNat = 0x100000 + i := by
  unfold regionOf at h
  simp only at h
  split at h
  · cases hr : regAt (a.toNat / 4) with
    | none => rw [hr] at h; cases h
    | some r => rw [hr] at h; cases h
  split at h
  · cases h
  split at h
  · cases h
  split at h
  · cases h
  split at h
  · split at h <;> cases h
  split at h
  · cases h
  split at h
  · cases h
  split at h
  · cases h
  split at h
  · simp only [Option.some.injEq, Region.ibuf.injEq] at h; omega
  split at h
  · cases h
  split at h <;> cases h

/-! ### Accesses -/

/-- A read of a mapped word is answered OKAY with the region's word (R49). -/
theorem memRead_region {s : State} {n : Nat} {g : Region} (h : regionOf s.params (BitVec.ofNat 22 n) = some g)
    (h4 : n % 4 = 0) :
   memRead s (BitVec.ofNat 22 n) = (.okay, readRegion s g) := by
  have hm : misaligned (BitVec.ofNat 22 n) = false := by simp [misaligned, BitVec.toNat_ofNat]; omega
  simp [memRead, hm, h]

/-- A write of a mapped word is answered OKAY and does what the region does (R49). -/
theorem memWrite_region {s : State} {n : Nat} {g : Region} {v : Word}
    (h : regionOf s.params (BitVec.ofNat 22 n) = some g) (h4 : n % 4 = 0) :
   memWrite s (BitVec.ofNat 22 n) 0xF#4 v = (.okay, writeRegion v s g) := by
  have hm : misaligned (BitVec.ofNat 22 n) = false := by simp [misaligned, BitVec.toNat_ofNat]; omega
  simp [memWrite, hm, h]

theorem memRead_at {s : State} {a : Offset} {g : Region} (h : regionOf s.params a = some g) (h4 : a.toNat % 4 = 0) :
   memRead s a = (.okay, readRegion s g) := by
  rw [← ofNat_toNat_offset a] at h ⊢
  exact memRead_region h h4

theorem memWrite_at {s : State} {a : Offset} {g : Region} {v : Word} (h : regionOf s.params a = some g)
    (h4 : a.toNat % 4 = 0) :
   memWrite s a 0xF#4 v = (.okay, writeRegion v s g) := by
  rw [← ofNat_toNat_offset a] at h ⊢
  exact memWrite_region h h4

/-! ### The words -/

/-- The byte lanes of a buffer word (R60, R61). -/
theorem bufferWord_bytes (m : Memory) (i : Nat) :
   (bufferWord m i).extractLsb' 0 8 = m.read i ∧ (bufferWord m i).extractLsb' 8 8 = m.read (i+1) ∧
       (bufferWord m i).extractLsb' 16 8 = m.read (i+2) ∧ (bufferWord m i).extractLsb' 24 8 = m.read (i+3) := by
  unfold bufferWord
  generalize m.read i = a
  generalize m.read (i+1) = b
  generalize m.read (i+2) = c
  generalize m.read (i+3) = d
  refine ⟨?_, ?_, ?_, ?_⟩ <;>
  · apply BitVec.eq_of_getLsbD_eq
    intro k hk
    simp only [BitVec.getLsbD_extractLsb', BitVec.getLsbD_append, hk, decide_true, Bool.true_and]
    repeat' split
    all_goals first | (exfalso; omega) | (congr 1; omega)

/-- A word whose byte lanes are given (R62). -/
theorem wordBytes_bufferWord {m : Memory} {i : Nat} {v : Word} (h0 : m.read i = v.extractLsb' 0 8)
    (h1 : m.read (i+1) = v.extractLsb' 8 8) (h2 : m.read (i+2) = v.extractLsb' 16 8)
    (h3 : m.read (i+3) = v.extractLsb' 24 8) : bufferWord m i = v := by
  unfold bufferWord
  rw [h0, h1, h2, h3]
  apply BitVec.eq_of_getLsbD_eq
  intro k hk
  simp only [BitVec.getLsbD_extractLsb', BitVec.getLsbD_append]
  repeat' split
  all_goals
    rw [decide_eq_true (by omega), Bool.true_and]; congr 1; omega

/-- The fields of word 1 of a NODE entry (R58). -/
theorem nodeWord_fields (e : NodeEntry) :
    (nodeWord e).getLsbD 31 = e.valid ∧ (nodeWord e).getLsbD 30 = e.internal ∧
      (nodeWord e).extractLsb' 26 4 = 0 ∧ (nodeWord e).extractLsb' 17 9 = e.right ∧
      (nodeWord e).extractLsb' 8 9 = e.left ∧ (nodeWord e).extractLsb' 0 8 = e.symbol := by
  have hb := e.symbol.isLt
  have hl := e.left.isLt
  have hr := e.right.isLt
  have hv : e.valid.toNat ≤ 1 := by cases e.valid <;> decide
  have hi : e.internal.toNat ≤ 1 := by cases e.internal <;> decide
  have hn : (nodeWord e).toNat = e.valid.toNat * 2 ^ 31 + e.internal.toNat * 2 ^ 30
      + e.right.toNat * 2 ^ 17 + e.left.toNat * 2 ^ 8 + e.symbol.toNat := by
    simp only [nodeWord, BitVec.toNat_ofNat]
    omega
  have hbit : ∀ (k : Nat) (x : Bool), (nodeWord e).toNat / 2 ^ k % 2 = x.toNat → (nodeWord e).getLsbD k = x := by
    intro k x hx
    rw [← BitVec.testBit_toNat, Nat.testBit_eq_decide_div_mod_eq, hx]
    cases x <;> rfl
  refine ⟨?_, ?_, ?_, ?_, ?_, ?_⟩
  · apply hbit; rw [hn]; omega
  · apply hbit; rw [hn]; omega
  all_goals
    apply BitVec.eq_of_toNat_eq
    rw [BitVec.extractLsb'_toNat, hn, Nat.shiftRight_eq_div_pow]
    try rw [show BitVec.toNat (0 : BitVec 4) = 0 from rfl]
    norm_num
    omega

/-- The fields of word 0 of a CODE entry (R59). -/
theorem codeWord_zero (e : CodeEntry) : (codeWord e 0).getLsbD 0 = e.valid ∧ (codeWord e 0).extractLsb' 8 8 = e.len ∧
    (codeWord e 0).extractLsb' 1 7 = 0 ∧ (codeWord e 0).extractLsb' 16 16 = 0 := by
  obtain ⟨v, l, b⟩ := e
  have hl := l.isLt
  have hv : v.toNat ≤ 1 := by cases v <;> decide
  have hn : (codeWord { valid := v, len := l, bits := b } 0).toNat = v.toNat + l.toNat * 2 ^ 8 := by
    simp only [codeWord, if_true, BitVec.toNat_ofNat]; omega
  refine ⟨?_, ?_, ?_, ?_⟩
  · rw [← BitVec.testBit_toNat, Nat.testBit_eq_decide_div_mod_eq, hn]
    have : (v.toNat + l.toNat * 2 ^ 8) / 2 ^ 0 % 2 = v.toNat := by omega
    rw [this]; cases v <;> rfl
  · apply BitVec.eq_of_toNat_eq
    rw [BitVec.extractLsb'_toNat, hn, Nat.shiftRight_eq_div_pow]
    simp only; omega
  · apply BitVec.eq_of_toNat_eq
    rw [BitVec.extractLsb'_toNat, hn, Nat.shiftRight_eq_div_pow, show BitVec.toNat (0 : BitVec 7) = 0 from rfl]
    omega
  · apply BitVec.eq_of_toNat_eq
    rw [BitVec.extractLsb'_toNat, hn, Nat.shiftRight_eq_div_pow, show BitVec.toNat (0 : BitVec 16) = 0 from rfl]
    omega

/-- The symbols of words 1..8 of a CODE entry (R59). -/
theorem codeWord_symbols (e : CodeEntry) {w : Nat} (h1 : 1 ≤ w) (h8 : w ≤ 8) {t : Nat} (ht : t < 32) :
    (codeWord e w).getLsbD (31 - t) = e.symbolAt (32 * (w - 1) + t) := by
  unfold codeWord CodeEntry.symbolAt
  rw [if_neg (by omega), if_pos h8, BitVec.getLsbD_extractLsb', decide_eq_true (by omega), Bool.true_and]
  congr 1; omega

/-- A word of BITS replaced, bit by bit (R59). -/
theorem getLsbD_splice (bits : BitVec 256) (w : Nat) (v : Word) (i : Nat) (hi : i < 256) :
   (spliceBits bits w v).getLsbD i = if 32 * (8 - w) ≤ i ∧
       i < 32 * (8 - w) + 32 then v.getLsbD (i - 32 * (8 - w)) else bits.getLsbD i := by
  simp only [spliceBits, BitVec.getLsbD_or, BitVec.getLsbD_and, BitVec.getLsbD_not, BitVec.getLsbD_shiftLeft,
      BitVec.getLsbD_setWidth, BitVec.getLsbD_allOnes, hi, decide_true, Bool.true_and]
  by_cases h : i < 32 * (8 - w)
  · simp [h]
  · by_cases h' : i < 32 * (8 - w) + 32
    · have : i - 32 * (8 - w) < 32 := by omega
      have h2 : i - 32 * (8 - w) < 256 := by omega
      simp [h, this, h2]; 
      intro h3; omega
    · have : ¬ i - 32 * (8 - w) < 32 := by omega
      simp [h, this, h']
      rw [BitVec.getLsbD_of_ge v _ (by omega)]; simp

/-- A word of BITS replaced, symbol by symbol (R59). -/
theorem symbolAt_writeCodeWord (e : CodeEntry) {w : Nat} (h1 : 1 ≤ w) (h8 : w ≤ 8) (v : Word) {k : Nat}
    (hk : k < 256) :
   (writeCodeWord e w v).symbolAt k = if k / 32 = w - 1 then v.getLsbD (31 - k % 32) else e.symbolAt k := by
  unfold writeCodeWord CodeEntry.symbolAt
  rw [if_neg (by omega), if_pos h8, getLsbD_splice _ _ _ _ (by omega)]
  by_cases h : k / 32 = w - 1
  · rw [if_pos h, if_pos (by omega)]; congr 1; omega
  · rw [if_neg h, if_neg (by omega)]

/-- A write to words 1..15 leaves VALID and LEN (R59). -/
theorem writeCodeWord_kept (e : CodeEntry) {w : Nat} (h1 : 1 ≤ w) (v : Word) :
    (writeCodeWord e w v).valid = e.valid ∧ (writeCodeWord e w v).len = e.len := by
  unfold writeCodeWord
  rw [if_neg (by omega)]
  split <;> exact ⟨rfl, rfl⟩

theorem setCode_self (c : Codes) (b : Byte) : setCode c b (codeAt c b) = c := by
  apply codes_ext; intro d
  rw [codeAt_setCode]; split
  · rename_i h; rw [h]
  · rfl

/-- The fields of a STATUS word (R22). -/
theorem statusBits_fields (a b c d e : Bool) : (statusBits a b c d e).getLsbD 0 = a ∧
    (statusBits a b c d e).getLsbD 1 = b ∧ (statusBits a b c d e).getLsbD 2 = c ∧
    (statusBits a b c d e).getLsbD 3 = d ∧ (statusBits a b c d e).getLsbD 4 = e ∧
    (statusBits a b c d e).toNat < 32 := by
  revert a b c d e; decide

theorem and_eq_zero_of {v m : Word} (h : ∀ k, k < 32 → m.getLsbD k = true → v.getLsbD k = false) : v &&& m = 0 := by
  apply BitVec.eq_of_getLsbD_eq
  intro k hk
  rw [BitVec.getLsbD_and]
  cases hm : m.getLsbD k with
  | false => simp
  | true => rw [h k hk hm]; simp

theorem getLsbD_of_lt {v : Word} {n k : Nat} (h : v.toNat < 2 ^ n) (hk : n ≤ k) : v.getLsbD k = false := by
  rw [← BitVec.testBit_toNat]
  exact Nat.testBit_lt_two_pow (lt_of_lt_of_le h (Nat.pow_le_pow_right (by omega) hk))

/-- The bits of a small word above its size are 0. -/
theorem and_mask_of_lt {v m : Word} {n : Nat} (h : v.toNat < 2 ^ n) (hm : ∀ k, k < n → m.getLsbD k = false) :
    v &&& m = 0 := by
  apply and_eq_zero_of
  intro k hk hmk
  by_cases hkn : k < n
  · rw [hm k hkn] at hmk; cases hmk
  · exact getLsbD_of_lt h (by omega)

end Sys2Proof.Machine
end

