-- ==== Sys2Proof/Laws/Kept.lean ====
section
/-! SUPPORT. What keeps the invariant: a command's run keeps the tables in agreement, the port's bookkeeping keeps
everything, and so do the writes and the resets, the buffers' canonical form among it (R22, R34, R36, R39, R40). -/

namespace Sys2Proof.Machine

/-! ### The tables -/

/-- What the invariant says of the tables. -/
structure TablesOk (s : State) : Prop where
  nsym : s.nsym.toNat = (presentBytes s.freq).length
  counts : freqTotal s.freq ≤ s.params.ibufSize
  freqValid : s.freqValid = false → s.freq = zeroFreqs
  node : s.node = zeroNodes ∨ ∃ f : Freqs, presentBytes f ≠ [] ∧ freqTotal f ≤ s.params.ibufSize ∧ s.node = treeNodes f
  treeValid : s.treeValid = true →
    presentBytes s.freq ≠ [] ∧ s.node = treeNodes s.freq ∧ s.root = treeRoot s.freq

theorem Invariant.tables {s : State} (h : Invariant s) :
    TablesOk s := ⟨h.nsym, h.counts, h.freqValid, h.node, h.treeValid⟩

theorem stagedWith_tables {s : State} {f : Freqs} (h : presentBytes f ≠ []) (ht : freqTotal f ≤ s.params.ibufSize) :
    TablesOk (stagedWith f s) :=
  ⟨toNat_nsym f, ht, fun h => (by cases h), .inr ⟨f, h, ht, rfl⟩, fun _ => ⟨h, rfl, rfl⟩⟩

/-- Whatever a command's run ends in, the tables agree (R22, R34, R36). -/
theorem runOf_tables (i : Instr) {s : State} (h : TablesOk s) : TablesOk (runOf i s).left := by
  have hout : ∀ {s' : State} {codes} {m : Run State}, TablesOk s' → OutputRun s' codes m → TablesOk m.left := by
    intro s' codes m hs hm
    cases hr : m with
    | ok t => obtain ⟨o, b, p, -, -, rfl⟩ := hm.ends t hr; exact ⟨hs.nsym, hs.counts, hs.freqValid, hs.node,
          hs.treeValid⟩
    | raised r t => obtain ⟨-, o, rfl⟩ := hm.raised r t hr; exact ⟨hs.nsym, hs.counts, hs.freqValid, hs.node,
          hs.treeValid⟩
  have hclear : TablesOk (clearHidden s) := ⟨h.nsym, h.counts, h.freqValid, h.node, h.treeValid⟩
  by_cases hi : i ∈ [Instr.encode, .encpack, .pack, .unpack, .decode, .decompress]
  · exact hout h (runOf_output hi s)
  by_cases hc : i ∈ [Instr.compress, .encodeOnly]
  · rcases runOf_composite hc s with ⟨-, h7⟩ | ⟨-, h7⟩ | ⟨h6, h6', h7⟩
    · rw [h7]; exact hclear
    · rw [h7]
      exact ⟨by simp [Run.left], by simp [Run.left], fun h => (by cases h), h.node, fun h => (by cases h)⟩
    · refine hout ?_ h7
      have hp := presentBytes_histogram (length_message_lt s) (message_ne_nil h6)
      refine stagedWith_tables hp ?_
      rw [(histogram_spec (length_message_lt s)).1, length_message]; exact h6'
  cases i with
  | nop => exact h
  | analyze =>
    by_cases h' : s.inLen.toNat ≤ s.params.ibufSize
    · rw [runOf, runAnalyze_ok h', tabulate_clearHidden]
      have ht := (histogram_spec (length_message_lt s)).1
      rw [length_message] at ht
      generalize histogram (message s) = f at ht ⊢
      exact ⟨toNat_nsym f, by simp only [Run.left, ht]; exact h', fun h => (by cases h), h.node, fun h => (by cases h)⟩
    · rw [runOf, runAnalyze_raised (by omega)]; exact hclear
  | build =>
    by_cases h' : presentBytes s.freq = []
    · rw [runOf, runBuild_raised h']
      exact ⟨h.nsym, h.counts, h.freqValid, h.node, fun h => (by cases h)⟩
    · rw [runOf, runBuild_ok h']
      exact ⟨h.nsym, h.counts, h.freqValid, .inr ⟨s.freq, h', h.counts, rfl⟩, fun _ => ⟨h', rfl, rfl⟩⟩
  | derive =>
    cases h' : s.treeValid
    · rw [runOf, runDerive_raised h']; exact hclear
    · rw [runOf, runDerive_ok h']; exact ⟨h.nsym, h.counts, h.freqValid, h.node, h.treeValid⟩
  | reserved w => exact h
  | encode => simp at hi
  | encpack => simp at hi
  | pack => simp at hi
  | unpack => simp at hi
  | decode => simp at hi
  | decompress => simp at hi
  | compress => simp at hc
  | encodeOnly => simp at hc

/-! ### The results of a run -/

theorem draws_wrote {s t : State} (h : Wrote s t) : t.draws = s.draws ∧ t.err = s.err ∧ t.errCode = s.errCode := by
  rw [h]; exact ⟨rfl, rfl, rfl⟩

/-- An output command that reached its end kept OBUF canonical, and its result registers are in range (R27, R29,
    R40). -/
theorem runOf_out_ok {i : Instr} (hi : isOutput i = true) {s t : State} (h : runOf i s = .ok t) :
  ∃ o : Out, o.Sound s.params s.obuf ∧ t.obuf = o.obuf ∧ t.outLen = BitVec.ofNat 32 o.hidden.outIdx ∧
      t.pad.toNat ≤ 8 := by
  have key : ∀ {codes} {s' : State}, s'.params = s.params → s'.obuf = s.obuf → OutputRun s' codes (runOf i s) →
      ∃ o : Out, o.Sound s.params s.obuf ∧ t.obuf = o.obuf ∧ t.outLen = BitVec.ofNat 32 o.hidden.outIdx ∧
      t.pad.toNat ≤ 8 := by
    intro codes s' h1 h2 hr
    obtain ⟨o, b, p, hs, hp, rfl⟩ := hr.ends t h
    rw [h1, h2] at hs
    exact ⟨o, hs, rfl, rfl, hp⟩
  by_cases h1 : i ∈ [Instr.encode, .encpack, .pack, .unpack, .decode, .decompress]
  · exact key rfl rfl (runOf_output h1 s)
  · have h2 : i ∈ [Instr.compress, .encodeOnly] := by cases i <;> simp [isOutput] at hi h1 ⊢
    rcases runOf_composite h2 s with ⟨-, h3⟩ | ⟨-, h3⟩ | ⟨-, -, h3⟩
    · rw [h3] at h; cases h
    · rw [h3] at h; cases h
    · exact key (s' := staged s) rfl rfl h3

/-- No command raises code 0 or code 2 (R83). -/
theorem mayRaise_real (i : Instr) :
    ErrCode.degenerateTree ∉ mayRaise i ∧ ErrCode.none ∉ mayRaise i := by cases i <;> simp [mayRaise]

/-! ### The port and the resets -/

/-- The pin, the recovery, the bus and the model's counters are no part of the invariant. -/
theorem Invariant.port {s : State} (h : Invariant s) (rst : Bool) (rec : Nat) (es : List HostEvent)
    (ts : List Transaction) (as : List Answer) (n d : Nat) :
    Invariant { s with
      rstN := rst, recovery := rec, input := es, held := ts, answers := as, work := n, draws := d } :=
  ⟨h.params, h.ibuf, h.obuf, h.hidden, h.busyQuiet, h.errRecord, h.emptyRecord, h.noDegenerate, h.outLen, h.pad,
    h.nsym, h.counts, h.freqValid, h.node, h.treeValid⟩



/-- A soft reset keeps the invariant (R129). -/
theorem resetBlock_inv {s : State} (h : Invariant s) : Invariant (resetBlock s) := by
  refine ⟨h.params, h.ibuf, h.obuf, rfl, ?_, ?_, ?_, ?_, ?_, ?_, ?_, ?_, ?_, ?_, ?_⟩
  · intro h; cases h
  · exact ⟨fun _ => rfl, fun _ => rfl⟩
  · exact fun _ => ⟨rfl, rfl⟩
  · intro h; cases h
  · exact Nat.zero_le _
  · exact Nat.zero_le _
  · rw [resetBlock_freq, presentBytes_zeroFreqs]; rfl
  · rw [resetBlock_freq, freqTotal_zeroFreqs]; exact Nat.zero_le _
  · exact fun _ => resetBlock_freq s
  · exact .inl (resetBlock_node s)
  · intro h; cases h

/-- DONE and IE falling keeps the invariant (R128). -/
theorem settle_inv {s : State} {left : Nat} (h : Invariant s) : Invariant (settle left s) :=
  ⟨h.params, h.ibuf, h.obuf, h.hidden, fun hb => ⟨by rw [settle_done, (h.busyQuiet hb).1]; rfl, (h.busyQuiet hb).2⟩,
    h.errRecord, h.emptyRecord, h.noDegenerate, h.outLen, h.pad, h.nsym, h.counts, h.freqValid, h.node, h.treeValid⟩

/-- A hardware reset keeps the invariant (R128). -/
theorem hardReset_inv {s : State} (h : Invariant s) : Invariant (hardReset s) := by
  have h' := resetBlock_inv h
  exact settle_inv ⟨h'.params, rfl, rfl, rfl, fun hb => (by cases hb), h'.errRecord, h'.emptyRecord, h'.noDegenerate,
    h'.outLen, h'.pad, h'.nsym, h'.counts, h'.freqValid, h'.node, h'.treeValid⟩

/-- A write while IDLE keeps the invariant (R53, R57 to R61). -/
theorem writeRegion_inv {s : State} {a : Offset} {g : Region} {v : Word} (h : Invariant s)
    (hg : regionOf s.params a = some g) (h4 : a.toNat % 4 = 0) (hp : s.phase = .idle) : Invariant
    (writeRegion v s g) := by
  have hsz := sizes_of_wf h.params
  cases g with
  | reg r =>
    cases r with
    | ctrl =>
      change Invariant (writeCtrl v s)
      unfold writeCtrl; split
      · exact resetBlock_inv h
      · exact ⟨h.params, h.ibuf, h.obuf, h.hidden, h.busyQuiet, h.errRecord, h.emptyRecord, h.noDegenerate, h.outLen,
            h.pad, h.nsym, h.counts, h.freqValid, h.node, h.treeValid⟩
    | cmd =>
      exact ⟨h.params, h.ibuf, h.obuf, rfl, fun _ => ⟨rfl, rfl⟩, ⟨fun _ => rfl, fun _ => rfl⟩, fun _ => ⟨rfl, rfl⟩,
          fun h => (by cases h), h.outLen, h.pad, h.nsym, h.counts, h.freqValid, h.node, h.treeValid⟩
    | status =>
      change Invariant (writeStatus v s)
      unfold writeStatus; split
      · refine ⟨h.params, h.ibuf, h.obuf, h.hidden, ?_, h.errRecord, h.emptyRecord, h.noDegenerate, h.outLen, h.pad,
            h.nsym, h.counts, h.freqValid, h.node, h.treeValid⟩
        intro hb; change s.phase = _ at hb; rw [hp] at hb; cases hb
      · exact h
    | inLen => exact ⟨h.params, h.ibuf, h.obuf, h.hidden, h.busyQuiet, h.errRecord, h.emptyRecord, h.noDegenerate,
          h.outLen, h.pad, h.nsym, h.counts, h.freqValid, h.node, h.treeValid⟩
    | id => exact h
    | errCode => exact h
    | errIndex => exact h
    | errValue => exact h
    | outLen => exact h
    | bitLen => exact h
    | pad => exact h
    | nsym => exact h
    | root => exact h
    | maxLen => exact h
    | ibufSize => exact h
    | obufSize => exact h
  | code b w => exact ⟨h.params, h.ibuf, h.obuf, h.hidden, h.busyQuiet, h.errRecord, h.emptyRecord, h.noDegenerate,
        h.outLen, h.pad, h.nsym, h.counts, h.freqValid, h.node, h.treeValid⟩
  | ibuf i =>
    have := region_ibuf_lt hg
    refine ⟨h.params, ?_, h.obuf, h.hidden, h.busyQuiet, h.errRecord, h.emptyRecord, h.noDegenerate, h.outLen, h.pad,
        h.nsym, h.counts, h.freqValid, h.node, h.treeValid⟩
    exact Memory.wf_writeAll _ h.ibuf (by change i + (wordBytes v).length ≤ s.params.ibufSize; simp [wordBytes]; omega)
  | freq b => exact h
  | nodeWeight j => exact h
  | nodeFields j => exact h
  | obuf i => exact h

/-- A transaction while IDLE keeps the invariant. -/
theorem transact_inv {s : State} {x : Transaction} (h : Invariant s) (hp : s.phase = .idle) : Invariant
    (transact x s) := by
  cases x with
  | read a => exact Invariant.port h _ _ _ _ _ _ _
  | write a k v =>
    change Invariant (record _ _ _ (memWrite s a k v).2)
    have : Invariant (memWrite s a k v).2 := by
      unfold memWrite
      split
      · exact h
      split
      · exact h
      rename_i hm
      split
      · exact h
      · rename_i g hg
        exact writeRegion_inv h hg (by simpa [misaligned] using hm) hp
    exact Invariant.port this _ _ _ _ _ _ _

/-! ### A STATUS read while a command runs -/

/-- What a STATUS read shows is one of the admitted values (R22). -/
theorem admitted_mem (b : Bool) (ws : List Bool) (n : Nat) : admitted b ws n ∈ b :: ws := by
  unfold admitted
  have : Config.freePick n % (ws.length + 1) < (b :: ws).length := by
    rw [List.length_cons]; exact Nat.mod_lt _ (by omega)
  rw [List.getD_eq_getElem _ _ this]
  exact List.getElem_mem _

theorem any_present (f : Freqs) : (allBytes.any fun b => freqAt f b != 0) = !decide (presentBytes f = []) := by
  rw [Bool.eq_iff_iff]
  simp [presentBytes]

end Sys2Proof.Machine
end

