-- ==== Sys2Proof/Laws/Hold.lean ====
section
/-! SUPPORT. What taking one transaction does to the port: only the CMD write starts a command, nothing touches the
held transactions, and a held transaction that is released keeps the invariant and the hold (R49, R54, R112). -/

namespace Sys2Proof.Machine

/-- CMD stands at one offset only (R48). -/
theorem region_cmd {p : Params} {a : Offset} (h : regionOf p a = some (.reg .cmd)) (h4 : a.toNat % 4 = 0) :
    a = 0x008#22 := by
  unfold regionOf at h
  simp only at h
  split at h
  · have hk : ∀ k : Fin 16, (regAt k).map Region.reg = some (.reg .cmd) → k = 2 := by decide
    have := congrArg Fin.val (hk ⟨a.toNat / 4, by omega⟩ h)
    exact BitVec.eq_of_toNat_eq (by simp at this ⊢; omega)
  all_goals repeat' (split at h)
  all_goals cases h

/-- What a write leaves of the port (R53, R57 to R61): only the CMD write leaves IDLE. -/
theorem writeRegion_port (v : Word) (s : State) (g : Region) :
    (writeRegion v s g).held = s.held ∧ (writeRegion v s g).answers = s.answers ∧
      (s.recovery = 0 → (writeRegion v s g).recovery = 0) ∧
      (g ≠ .reg .cmd → s.phase = .idle → (writeRegion v s g).phase = .idle) := by
  cases g with
  | reg r =>
    cases r with
    | ctrl =>
      change (writeCtrl v s).held = _ ∧ (writeCtrl v s).answers = _ ∧ (_ → (writeCtrl v s).recovery = 0) ∧
        (_ → _ → (writeCtrl v s).phase = .idle)
      unfold writeCtrl
      split
      · exact ⟨rfl, rfl, fun _ => rfl, fun _ _ => rfl⟩
      · exact ⟨rfl, rfl, id, fun _ => id⟩
    | cmd => exact ⟨rfl, rfl, id, fun h => absurd rfl h⟩
    | status =>
      change (writeStatus v s).held = _ ∧ (writeStatus v s).answers = _ ∧ (_ → (writeStatus v s).recovery = 0) ∧
        (_ → _ → (writeStatus v s).phase = .idle)
      unfold writeStatus
      split <;> exact ⟨rfl, rfl, id, fun _ => id⟩
    | _ => exact ⟨rfl, rfl, id, fun _ => id⟩
  | _ => exact ⟨rfl, rfl, id, fun _ => id⟩

/-- What an access that writes leaves of the port: only the CMD write with full strobes leaves IDLE. -/
theorem memWrite_port (s : State) (a : Offset) (k : BitVec 4) (v : Word) :
    (memWrite s a k v).2.held = s.held ∧ (memWrite s a k v).2.answers = s.answers ∧
      (s.recovery = 0 → (memWrite s a k v).2.recovery = 0) ∧
      (¬ (a = 0x008#22 ∧ k = 0xF#4) → s.phase = .idle → (memWrite s a k v).2.phase = .idle) := by
  unfold memWrite
  split
  · exact ⟨rfl, rfl, id, fun _ => id⟩
  rename_i hk
  split
  · exact ⟨rfl, rfl, id, fun _ => id⟩
  rename_i hm
  split
  · exact ⟨rfl, rfl, id, fun _ => id⟩
  rename_i g hg
  obtain ⟨h₁, h₂, h₃, h₄⟩ := writeRegion_port v s g
  refine ⟨h₁, h₂, h₃, fun hx => h₄ ?_⟩
  rintro rfl
  exact hx ⟨region_cmd hg (by simpa [misaligned] using hm), by simpa using hk⟩

/-- A write takes its effect, and the answer is put before the earlier ones (R49). -/
theorem transact_write (a : Offset) (k : BitVec 4) (v : Word) (s : State) :
    transact (.write a k v) s = { (memWrite s a k v).2 with
      answers := { txn := .write a k v, resp := (memWrite s a k v).1, data := 0 } :: s.answers } := by
  rw [← (memWrite_port s a k v).2.1]; rfl

/-- What a transaction leaves of the port: only the CMD write with full strobes leaves IDLE. -/
theorem transact_port (x : Transaction) (s : State) :
    (transact x s).held = s.held ∧ (s.recovery = 0 → (transact x s).recovery = 0) ∧
      ((∀ w, x ≠ .write 0x008#22 0xF#4 w) → s.phase = .idle → (transact x s).phase = .idle) := by
  cases x with
  | read a => exact ⟨rfl, id, fun _ => id⟩
  | write a k v =>
    obtain ⟨h₁, -, h₃, h₄⟩ := memWrite_port s a k v
    exact ⟨h₁, h₃, fun hx => h₄ fun h => hx v (by rw [h.1, h.2])⟩

/-- A held transaction that is no CMD write is released alone (R54). -/
theorem release_alone {x : Transaction} {ts : List Transaction} {s : State} (h : ∀ w, x ≠ .write 0x008#22 0xF#4 w)
    (hp : s.phase = .idle) : release x ts s = transact x { s with held := ts } :=
  release_idle ((transact_port x { s with held := ts }).2.2 h hp)

/-- The release of a held transaction keeps the invariant. -/
theorem release_inv {x : Transaction} {ts : List Transaction} {s : State} (h : Invariant s) (hp : s.phase = .idle) :
    Invariant (release x ts s) := by
  have ht : Invariant (transact x { s with held := ts }) := transact_inv (Invariant.port h _ _ _ _ _ _ _) hp
  unfold release
  simp only
  split
  · exact ht
  · obtain ⟨data, d, h₁, -, -⟩ := answerStatusReads_spec ts
      { transact x { s with held := ts } with held := ts.filter fun y => !isStatusRead y }
    rw [h₁]
    exact Invariant.port ht _ _ _ _ _ _ _

/-- After the release of a held transaction no STATUS read is held behind a command (R54). -/
theorem release_quiet {x : Transaction} {ts : List Transaction} {s : State} (hr : s.recovery = 0) :
    HeldQuiet (release x ts s) := by
  intro _ hb
  unfold release at hb ⊢
  simp only at hb ⊢
  split at hb
  · rename_i hi; rw [hi] at hb; cases hb
  · obtain ⟨data, d, h₁, -, -⟩ := answerStatusReads_spec ts
      { transact x { s with held := ts } with held := ts.filter fun y => !isStatusRead y }
    rw [h₁]
    refine ⟨(transact_port x { s with held := ts }).2.1 hr, fun y hy => ?_⟩
    simpa using (List.mem_filter.mp hy).2

/-- With nothing held, a transaction leaves nothing held (R54). -/
theorem transact_quiet {x : Transaction} {s : State} (hr : s.recovery = 0) (hh : s.held = []) :
    HeldQuiet (transact x s) := by
  obtain ⟨h₁, h₃, -⟩ := transact_port x s
  exact fun _ _ => ⟨h₃ hr, by rw [h₁, hh]; simp⟩

end Sys2Proof.Machine
end

