-- ==== Sys2Proof/Laws/Loading.lean ====
section
/-! SUPPORT. What the lines of a host script do (R76, R77): a write and the wait for its answer, the words of LOADIN
and SETCODE, the polls of RUN. -/

namespace Sys2Proof.Machine

/-- A write that leaves the block IDLE, then the wait for its answer (R76): two steps. -/
theorem runSteps_wr {s : State} {off : Offset} {v : Word} {es : List HostEvent} (h1 : s.rstN = true)
    (h2 : s.recovery = 0) (h3 : s.phase = .idle) (h4 : s.held = [])
    (h5 : s.input = scriptWr off v ++ es) {u : State}
      (hu : memWrite (withInput (.await :: es) s) off 0xF#4 v = (.okay, u))
    (h6 : u.rstN = true) (h7 : u.recovery = 0) (h8 : u.phase = .idle) (h9 : u.held = [])
      (h10 : u.input = .await :: es) (k : Nat) :
    runSteps (2 + k) s = runSteps k (withInput es (record (.write off 0xF#4 v) .okay 0 u)) := by
  rw [Nat.add_comm, show k + 2 = (k + 1) + 1 from rfl]
  have hs : step s = .next (record (.write off 0xF#4 v) .okay 0 u) := by
    have h5' : s.input = .issue (.write off 0xF#4 v) :: .await :: es := h5
    rw [step_idle h1 h2 h3, idleStep_issue h4 h5', transact, hu]
  rw [runSteps_cons hs]
  exact runSteps_cons (by rw [step_idle (s := record _ _ _ u) h6 h7 h8, idleStep_await (s := record _ _ _ u) h9 h10]) k

/-! ### LOADIN -/

/-- Words written into a byte buffer. -/
def writeWords (m : Memory) (ws : List (Nat × Word)) : Memory :=
  ws.foldl (fun m p => m.writeAll (4 * p.1) (wordBytes p.2)) m

/-- The script that writes them (R77). -/
def ibufScript (ws : List (Nat × Word)) : List HostEvent :=
  ws.flatMap fun p => scriptWr (BitVec.ofNat 22 (0x100000 + 4 * p.1)) p.2

/-- A run of IBUF words written (R77). -/
theorem runSteps_ibufWords (ws : List (Nat × Word)) {s : State} {es : List HostEvent} (h1 : s.rstN = true)
    (h2 : s.recovery = 0) (h3 : s.phase = .idle) (h4 : s.held = []) (hwf : s.params.wf = true)
    (hw : ∀ p ∈ ws, 4 * p.1 < s.params.ibufSize) (h5 : s.input = ibufScript ws ++ es) (k : Nat) :
    ∃ as, runSteps (2 * ws.length + k) s
      = runSteps k { s with ibuf := writeWords s.ibuf ws, input := es, answers := as } := by
  induction ws generalizing s with
  | nil =>
    refine ⟨s.answers, ?_⟩
    rw [List.length_nil, Nat.mul_zero, Nat.zero_add]
    congr 1
    rw [← show s.input = es from h5]
    rfl
  | cons p ws ih =>
    have h5' : s.input = scriptWr (BitVec.ofNat 22 (0x100000 + 4 * p.1)) p.2 ++ (ibufScript ws ++ es) := by
      rw [h5, ibufScript, List.flatMap_cons, List.append_assoc]; rfl
    generalize hrest : ibufScript ws ++ es = rest at h5'
    have hr := regionOf_ibuf (hw p (by simp)) (sizes_of_wf hwf).1
    have hu := memWrite_region (s := withInput (.await :: rest) s) (v := p.2) hr (by omega)
    have hstep := runSteps_wr h1 h2 h3 h4 h5' hu h1 h2 h3 h4 rfl (2 * ws.length + k)
    have hX : withInput rest (record (.write (BitVec.ofNat 22 (0x100000 + 4 * p.1)) 0xF#4 p.2) .okay 0
          (writeRegion p.2 (withInput (.await :: rest) s) (.ibuf (4 * p.1))))
        = { s with
            ibuf := s.ibuf.writeAll (4 * p.1) (wordBytes p.2), input := rest
            answers := { txn := .write (BitVec.ofNat 22 (0x100000 + 4 * p.1)) 0xF#4 p.2, resp := .okay, data := 0 }
              :: s.answers } := rfl
    rw [hX] at hstep
    rw [List.length_cons, show 2 * (ws.length + 1) + k = 2 + (2 * ws.length + k) by omega, hstep]
    rw [writeWords, List.foldl_cons, ← writeWords]
    generalize s.ibuf.writeAll (4 * p.1) (wordBytes p.2) = mem
    exact ih (s := { s with ibuf := mem, input := rest, answers := _ :: s.answers })
      h1 h2 h3 h4 hwf (fun q hq => hw q (List.mem_cons_of_mem _ hq)) hrest.symm

/-- What LOADIN leaves in the buffer (R77). -/
theorem loadin_bytes (m : List Byte) (mem : Memory) (n a : Nat) (ha : a < 4 * n) :
   (writeWords mem ((List.range n).map fun k => (k, loadinWord m k))).read a = m.getD a 0 := by
  induction n with
  | zero => omega
  | succ n ih =>
    rw [List.range_succ, List.map_append, writeWords, List.foldl_append]
    simp only [List.map_cons, List.map_nil, List.foldl_cons, List.foldl_nil]
    by_cases h : a < 4 * n
    · rw [Memory.read_writeAll_outside _ _ _ _ (by omega)]
      exact ih h
    · obtain ⟨j, hj, rfl⟩ : ∃ j, j < 4 ∧ a = 4 * n + j := ⟨a - 4 * n, by omega, by omega⟩
      rw [Memory.read_writeAll_mem _ _ _ _ (by simp [wordBytes]; omega)]
      have hb : ∀ a b c d : Byte, wordBytes (d ++ c ++ b ++ a) = [a, b, c, d] := by
        intro a b c d
        simp only [wordBytes, List.cons.injEq, and_true]
        refine ⟨?_, ?_, ?_, ?_⟩ <;>
        · apply BitVec.eq_of_getLsbD_eq
          intro k hk
          simp only [BitVec.getLsbD_extractLsb', BitVec.getLsbD_append, hk, decide_true, Bool.true_and]
          repeat' split
          all_goals first | (exfalso; omega) | (congr 1; omega)
      simp only [loadinWord, hb]
      rcases j with _ | _ | _ | _ | j <;> first | rfl | omega

/-- LOADIN writes no byte beyond its last word (R77). -/
theorem loadin_beyond (m : List Byte) (mem : Memory) (n a : Nat) (ha : 4 * n ≤ a) :
    (writeWords mem ((List.range n).map fun k => (k, loadinWord m k))).read a = mem.read a := by
  induction n with
  | zero => rfl
  | succ n ih =>
    rw [List.range_succ, List.map_append, writeWords, List.foldl_append]
    simp only [List.map_cons, List.map_nil, List.foldl_cons, List.foldl_nil]
    rw [Memory.read_writeAll_outside _ _ _ _ (.inr (by simp [wordBytes]; omega))]
    exact ih (by omega)

theorem scriptLoadin_eq (m : List Byte) :
    scriptLoadin m = ibufScript ((List.range ((m.length + 3) / 4)).map fun k => (k, loadinWord m k))
      ++ scriptWr 0x01C#22 (BitVec.ofNat 32 m.length) := by
  rw [scriptLoadin, ibufScript, List.flatMap_map]

/-! ### SETCODE -/

/-- Words written into the CODE entry of a byte. -/
def codeWrites (b : Byte) (c : Codes) (ws : List (Nat × Word)) : Codes := ws.foldl
    (fun c p => setCode c b (writeCodeWord (codeAt c b) p.1 p.2)) c

theorem codeAt_codeWrites_other {b d : Byte} (h : d ≠ b) (c : Codes) (ws : List (Nat × Word)) : codeAt
    (codeWrites b c ws) d = codeAt c d := by
  induction ws generalizing c with
  | nil => rfl
  | cons p ws ih => rw [codeWrites, List.foldl_cons]; exact (ih _).trans (codeAt_setCode_other _ _ h)

theorem codeAt_codeWrites (b : Byte) (c : Codes) (ws : List (Nat × Word)) :
    codeAt (codeWrites b c ws) b = ws.foldl (fun e p => writeCodeWord e p.1 p.2) (codeAt c b) := by
  induction ws generalizing c with
  | nil => rfl
  | cons p ws ih =>
    rw [codeWrites, List.foldl_cons, List.foldl_cons]
    have := ih (setCode c b (writeCodeWord (codeAt c b) p.1 p.2))
    rw [codeAt_setCode_same] at this
    exact this

/-- The script that writes them (R77). -/
def codeScript (b : Byte) (ws : List (Nat × Word)) : List HostEvent :=
  ws.flatMap fun p => scriptWr (BitVec.ofNat 22 (0x4000 + 64 * b.toNat + 4 * p.1)) p.2

/-- A run of CODE words written (R77). -/
theorem runSteps_codeWords (b : Byte) (ws : List (Nat × Word)) {s : State} {es : List HostEvent} (h1 : s.rstN = true)
    (h2 : s.recovery = 0) (h3 : s.phase = .idle) (h4 : s.held = []) (hw : ∀ p ∈ ws, p.1 < 16)
    (h5 : s.input = codeScript b ws ++ es) (k : Nat) :
    ∃ as, runSteps (2 * ws.length + k) s
      = runSteps k { s with code := codeWrites b s.code ws, input := es, answers := as } := by
  induction ws generalizing s with
  | nil =>
    refine ⟨s.answers, ?_⟩
    rw [List.length_nil, Nat.mul_zero, Nat.zero_add]
    congr 1
    rw [← show s.input = es from h5]
    rfl
  | cons p ws ih =>
    have h5' : s.input
        = scriptWr (BitVec.ofNat 22 (0x4000 + 64 * b.toNat + 4 * p.1)) p.2 ++ (codeScript b ws ++ es) := by
      rw [h5, codeScript, List.flatMap_cons, List.append_assoc]; rfl
    generalize hrest : codeScript b ws ++ es = rest at h5'
    have hr := regionOf_code s.params b (hw p (by simp))
    have hu := memWrite_region (s := withInput (.await :: rest) s) (v := p.2) hr (by omega)
    have := runSteps_wr h1 h2 h3 h4 h5' hu h1 h2 h3 h4 rfl (2 * ws.length + k)
    rw [List.length_cons, show 2 * (ws.length + 1) + k = 2 + (2 * ws.length + k) by omega, this]
    exact ih (s := { s with
      code := setCode s.code b (writeCodeWord (codeAt s.code b) p.1 p.2), input := rest, answers := _ :: s.answers })
      h1 h2 h3 h4 (fun q hq => hw q (by simp [hq])) hrest.symm

/-- The first `n` words of the symbols of a code (R77). -/
def symbolWords (e : Bits) (n : Nat) : List (Nat × Word) := (List.range n).map fun w => (w + 1, setcodeWord e (w + 1))

/-- The words SETCODE writes (R77). -/
def setcodeWords (e : Bits) : List (Nat × Word) := (0, BitVec.ofNat 32 (e.length * 2 ^ 8 + 1)) :: symbolWords e 8

theorem scriptSetcode_eq (b : Byte) (e : Bits) : scriptSetcode b e = codeScript b (setcodeWords e) := by
  rw [scriptSetcode, codeScript, setcodeWords, symbolWords, List.flatMap_cons, List.flatMap_map]
  rfl

/-- Words written into an entry. -/
def entryWrites (e : CodeEntry) (ws : List (Nat × Word)) : CodeEntry :=
  ws.foldl (fun e p => writeCodeWord e p.1 p.2) e

theorem getLsbD_setcodeWord (e : Bits) (w : Nat) {t : Nat} (ht : t < 32) : (setcodeWord e w).getLsbD
    (31 - t) = e.getD (32 * (w - 1) + t) false := by
  have h := testBit_bitsValue ((List.range 32).map fun t => e.getD (32 * (w - 1) + t) false) t (by simp; omega)
  simp only [List.length_map, List.length_range, List.getElem_map, List.getElem_range, show 32 - 1 - t =
      31 - t by omega] at h
  rw [setcodeWord, BitVec.getLsbD_ofNat, h]
  rw [decide_eq_true (by omega), Bool.true_and]

theorem entryWrites_symbols (e : Bits) (e₁ : CodeEntry) (n : Nat) (hn : n ≤ 8) :
    (entryWrites e₁ (symbolWords e n)).valid = e₁.valid ∧ (entryWrites e₁ (symbolWords e n)).len = e₁.len ∧
      ∀ t, t < 32 * n → (entryWrites e₁ (symbolWords e n)).symbolAt t = e.getD t false := by
  induction n with
  | zero => exact ⟨rfl, rfl, fun t ht => by omega⟩
  | succ n ih =>
    obtain ⟨i1, i2, i3⟩ := ih (by omega)
    have hs : entryWrites e₁ (symbolWords e (n + 1))
        = writeCodeWord (entryWrites e₁ (symbolWords e n)) (n + 1) (setcodeWord e (n + 1)) := by
      rw [symbolWords, List.range_succ, List.map_append, entryWrites, List.foldl_append]; rfl
    obtain ⟨k1, k2⟩ := writeCodeWord_kept (entryWrites e₁ (symbolWords e n)) (w := n + 1) (by omega)
      (setcodeWord e (n + 1))
    rw [hs]
    refine ⟨k1.trans i1, k2.trans i2, fun t ht => ?_⟩
    rw [symbolAt_writeCodeWord _ (by omega) (by omega) _ (by omega)]
    split
    · rw [getLsbD_setcodeWord _ _ (by omega)]; congr 1; omega
    · exact i3 t (by omega)

/-- The entry SETCODE leaves (R77). -/
theorem setcode_entry (e0 : CodeEntry) (e : Bits) (h : e.length ≤ 255) :
    (entryWrites e0 (setcodeWords e)).valid = true ∧ (entryWrites e0 (setcodeWords e)).symbols = e ∧
      ∀ n, e.length ≤ n → n < 256 → (entryWrites e0 (setcodeWords e)).symbolAt n = false := by
  have hn : (BitVec.ofNat 32 (e.length * 2 ^ 8 + 1)).toNat = e.length * 2 ^ 8 + 1 := by rw [BitVec.toNat_ofNat]; omega
  obtain ⟨h1, h2, h3⟩ := entryWrites_symbols e (writeCodeWord e0 0 (BitVec.ofNat 32 (e.length * 2 ^ 8 + 1))) 8 (le_refl _)
  rw [show entryWrites e0 (setcodeWords e)
    = entryWrites (writeCodeWord e0 0 (BitVec.ofNat 32 (e.length * 2 ^ 8 + 1))) (symbolWords e 8) from rfl]
  generalize entryWrites (writeCodeWord e0 0 (BitVec.ofNat 32 (e.length * 2 ^ 8 + 1))) (symbolWords e 8) = r at h1 h2 h3 ⊢
  have hv : r.valid = true := by
    rw [h1]
    change (BitVec.ofNat 32 (e.length * 2 ^ 8 + 1)).getLsbD 0 = true
    rw [← BitVec.testBit_toNat, hn, Nat.testBit_zero]; simp; omega
  have hl : r.len.toNat = e.length := by
    rw [h2]
    change ((BitVec.ofNat 32 (e.length * 2 ^ 8 + 1)).extractLsb' 8 8).toNat = _
    rw [BitVec.extractLsb'_toNat, hn, Nat.shiftRight_eq_div_pow]; omega
  refine ⟨hv, ?_, fun n hn hn' => by rw [h3 n (by omega), List.getD_eq_default _ _ hn]⟩
  unfold CodeEntry.symbols
  rw [hl]
  apply List.ext_getElem
  · simp
  · intro i hi hi'
    simp only [List.getElem_map, List.getElem_range]
    rw [h3 i (by omega), List.getD_eq_getElem _ _ hi']

/-! ### RUN -/

/-- A host polling STATUS while the command runs (R22, R76). -/
theorem busy_polls {es : List HostEvent} (n : Nat) {s : State} (h1 : s.rstN = true) (h2 : s.recovery = 0)
    (h3 : s.phase = .busy) (h4 : s.held = []) (h6 : s.work = n)
    (h5 : s.input = .await :: (scriptPoll 0x00C#22 3#32 2#32 ++ es) ∨ s.input = scriptPoll 0x00C#22 3#32 2#32 ++ es) :
    ∃ inp as d, runSteps n s = .next { s with work := 0, input := inp, answers := as, draws := d } ∧ 
      (inp = .await :: (scriptPoll 0x00C#22 3#32 2#32 ++ es) ∨ inp = scriptPoll 0x00C#22 3#32 2#32 ++ es) := by
  induction n generalizing s with
  | zero => exact ⟨s.input, s.answers, s.draws,
        by rw [show ({ s with work := 0, input := s.input, answers := s.answers, draws := s.draws } : State) = s by rw [← h6]]; rfl, h5⟩
  | succ n ih =>
    have hs := step_busy h1 h2 h3 h6
    rcases h5 with h5 | h5
    · have hb : busyStep n s = { s with work := n, input := scriptPoll 0x00C#22 3#32 2#32 ++ es } := by
        simp only [busyStep, h5, h4, if_true]; simp [withInput]
      rw [hb] at hs
      rw [runSteps_cons hs]
      exact ih (s := { s with work := n, input := scriptPoll 0x00C#22 3#32 2#32 ++ es }) h1 h2 h3 h4 rfl (.inr rfl)
    · have hb : ∃ as d, busyStep n s = { s with work := n, answers := as, draws := d } := by
        have h5' : s.input = .poll 0x00C#22 3#32 2#32 :: es := h5
        simp only [busyStep, h5']
        rw [if_pos (by rfl)]
        have hst : busyStatus (decodeWord s.cmd) s &&& 3#32 ≠ 2#32 := by
          unfold busyStatus
          generalize admitted s.freqValid _ _ = a
          generalize admitted s.treeValid _ _ = b
          revert a b; decide
        rw [pollStep, if_neg hst]
        exact ⟨_, _, rfl⟩
      obtain ⟨as, d, hb⟩ := hb
      rw [hb] at hs
      rw [runSteps_cons hs]
      exact ih (s := { s with work := n, answers := as, draws := d }) h1 h2 h3 h4 rfl (.inr h5)

end Sys2Proof.Machine
end

