-- ==== Sys2Proof/Laws/PerInstr.lean ====
section
/-! SUPPORT. The round trip of the encoding, one lemma per constructor of Instr (R70, R71, R74). -/

namespace Sys2Proof.Laws.RoundTrip

/-- A well-formed instruction's command word decodes to the instruction. -/
def Statement (i : Instr) : Prop := i.wf = true → decodeWord (encode i) = i

theorem nop : Statement .nop := fun _ => rfl
theorem analyze : Statement .analyze := fun _ => rfl
theorem build : Statement .build := fun _ => rfl
theorem derive : Statement .derive := fun _ => rfl
theorem encode : Statement .encode := fun _ => rfl
theorem encpack : Statement .encpack := fun _ => rfl
theorem pack : Statement .pack := fun _ => rfl
theorem unpack : Statement .unpack := fun _ => rfl
theorem decode : Statement .decode := fun _ => rfl
theorem decompress : Statement .decompress := fun _ => rfl
theorem compress : Statement .compress := fun _ => rfl
theorem encodeOnly : Statement .encodeOnly := fun _ => rfl
theorem reserved (w : Word) : Statement (.reserved w) := fun h => Machine.decodeWord_reserved (of_decide_eq_true h)

end Sys2Proof.Laws.RoundTrip
end

