-- ==== Sys2Proof/Tests/Slice0.lean ====
section
/-! SUPPORT. The model's own tests. Expected values come from spec/95_test_vectors.md (the vector's name stands in each
test's docstring) or are worked by hand from the rule named. Then one witness for the hypotheses of each obligation. -/

namespace Sys2Proof.Tests

open Sys2Proof.Machine

-- One theorem at a time: each evaluation in the kernel takes its memory alone.
set_option Elab.async false

/-! ### Small states -/

/-- A test on the state an outcome goes on to. -/
def goesTo (f : State → Bool) : Host.Outcome State Fault Refusal → Bool
  | .next t => f t
  | .fault _ => false
  | .refused _ => false

/-- The state an outcome goes on to. -/
def after : Host.Outcome State Fault Refusal → State
  | .next t => t
  | .fault _ => State.reset
  | .refused _ => State.reset

/-- The reset state with a message loaded. -/
def holding (m : List Byte) : State := loadMessage m State.reset

/-- CODE with these codes and nothing else. -/
def ring (l : List (Byte × Bits)) : Codes := l.foldl (fun c p => setCode c p.1 (CodeEntry.ofCode p.2)) zeroCodes

/-- The codes of vector G1. -/
def ringG1 : Codes := ring [(0x41, [true]), (0x42, [false, true]), (0x43, [false, false])]

/-- The codes of vector V2, not prefix-free. -/
def ringV2 : Codes := ring [(0x41, [true]), (0x42, [true, false])]

/-- Vector G1 without C (S5). -/
def ringNoC : Codes := ring [(0x41, [true]), (0x42, [false, true])]

/-- A state with a codebook and a message. -/
def coding (c : Codes) (m : List Byte) : State := { holding m with code := c }

/-- The same in a block whose OBUF has 4 bytes. -/
def small (s : State) : State := { s with params := { ibufSize := 65536, obufSize := 4 } }

def aabc : List Byte := [0x41, 0x41, 0x42, 0x43]

/-- Text bits of "110100". -/
def text110100 : List Byte := [0x31, 0x31, 0x30, 0x31, 0x30, 0x30]

/-- After ANALYZE and BUILD of a message. -/
def planted (m : List Byte) : State :=
  { State.reset with
    freq := histogram m, nsym := BitVec.ofNat 9 (distinct (histogram m))
    node := treeNodes (histogram m), root := treeRoot (histogram m)
    freqValid := true, treeValid := true }

/-- Whether an outcome is error `e` with ERR_INDEX `x` and ERR_VALUE `y`. -/
def endsIn (e : ErrCode) (x y : Word) : Host.Outcome State Fault Refusal → Bool :=
  goesTo fun t => t.err && t.done && t.errCode == e && t.errIndex == x && t.errValue == y

/-- Whether an outcome is a success with these bytes in an OBUF that was empty, and these results. -/
def writes (bytes : List Byte) (out bit : Word) (pad : BitVec 4) : Host.Outcome State Fault Refusal → Bool :=
  goesTo fun t => !t.err && t.done && t.obuf.cells.map Prod.snd == bytes && t.outLen == out && t.bitLen == bit
    && t.pad == pad

/-! ### WellFormed refuses what the spec does not admit -/

/-- R70: 0x0B is a legal command, so no reserved word. -/
theorem test_wf_reserved_legal : (Instr.reserved 0x0B#32).wf = false := by decide
theorem test_wf_reserved_zero : (Instr.reserved 0#32).wf = false := by decide
/-- R4: sizes are multiples of 4 in 4..2^20. -/
theorem test_wf_size_zero : Params.wf { ibufSize := 0, obufSize := 4 } = false := by decide
theorem test_wf_size_odd : Params.wf { ibufSize := 4, obufSize := 6 } = false := by decide
theorem test_wf_size_large : Params.wf { ibufSize := 1048580, obufSize := 4 } = false := by decide
theorem test_wf_default : Config.defaultParams.wf = true := by decide

/-! ### Words written out from the "word" column of R71 -/

theorem test_decode_nop : decodeTableWord 32 0b00000000000000000000000000000000 = some .nop := by decide
theorem test_decode_analyze : decodeTableWord 32 0b00000000000000000000000000000001 = some .analyze := by decide
theorem test_decode_build : decodeTableWord 32 0b00000000000000000000000000000010 = some .build := by decide
theorem test_decode_derive : decodeTableWord 32 0b00000000000000000000000000000011 = some .derive := by decide
theorem test_decode_encode : decodeTableWord 32 0b00000000000000000000000000000100 = some .encode := by decide
theorem test_decode_encpack : decodeTableWord 32 0b00000000000000000000000000000101 = some .encpack := by decide
theorem test_decode_pack : decodeTableWord 32 0b00000000000000000000000000000110 = some .pack := by decide
theorem test_decode_unpack : decodeTableWord 32 0b00000000000000000000000000000111 = some .unpack := by decide
theorem test_decode_decode : decodeTableWord 32 0b00000000000000000000000000001000 = some .decode := by decide
theorem test_decode_decompress : decodeTableWord 32 0b00000000000000000000000000001001 = some .decompress := by decide
theorem test_decode_compress : decodeTableWord 32 0b00000000000000000000000000001010 = some .compress := by decide
theorem test_decode_encode_only : decodeTableWord 32 0b00000000000000000000000000001011 = some .encodeOnly := by decide
/-- K2. -/
theorem test_decode_reserved :
    decodeTableWord 32 0b00000000000000000000000000001100 = some (.reserved 0x0000000C#32) := by decide
/-- K4: OP = 1 with a reserved bit set is reserved. -/
theorem test_decode_reserved_high : decodeTableWord 32 0x80000001 = some (.reserved 0x80000001#32) := by decide

/-! ### One step of each command -/

/-- K1: STATUS is 0x00000002 after a NOP. -/
theorem test_nop : goesTo (fun t => memRead t 0x00C#22 == (.okay, 2)) (step (State.reset.withFetchWord 32 0)) = true := by
  decide

/-- K4: E(6, 0, 0x80000001), STATUS 0x00000006. -/
theorem test_reserved : goesTo (fun t => memRead t 0x00C#22 == (.okay, 6) && memRead t 0x010#22 == (.okay, 6)
    && memRead t 0x018#22 == (.okay, 0x80000001#32) && memRead t 0x008#22 == (.okay, 0x80000001#32))
    (step (State.reset.withFetchWord 32 0x80000001)) = true := by decide

/-- A1. -/
theorem test_analyze : goesTo (fun t => memRead t 0x001104#22 == (.okay, 2) && memRead t 0x001100#22 == (.okay, 0)
    && memRead t 0x02C#22 == (.okay, 3) && memRead t 0x00C#22 == (.okay, 0xA))
    (step ((holding aabc).withFetchWord 32 1)) = true := by decide +kernel

/-- A5. -/
theorem test_analyze_long : endsIn .lenRange 0 0x00010001#32
    (exec .analyze { State.reset with inLen := 0x00010001#32 }) = true := by decide

/-- T1: the words of nodes 3 and 4, and ROOT. -/
theorem test_build : goesTo (fun t => memRead t 0x00201C#22 == (.okay, 0xC0040100#32)
    && memRead t 0x002024#22 == (.okay, 0xC0060000#32) && memRead t 0x002020#22 == (.okay, 4)
    && memRead t 0x002004#22 == (.okay, 0x80000041#32) && memRead t 0x030#22 == (.okay, 4))
    (exec .build { State.reset with freq := histogram aabc }) = true := by decide +kernel

/-- T7. -/
theorem test_build_empty : endsIn .emptyInput 0 0 (exec .build State.reset) = true := by decide +kernel

/-- G1, B "01". -/
theorem test_derive : goesTo (fun t => memRead t 0x005080#22 == (.okay, 0x00000201#32)
    && memRead t 0x005084#22 == (.okay, 0x40000000#32) && memRead t 0x005040#22 == (.okay, 0x00000101#32)
    && memRead t 0x005044#22 == (.okay, 0x80000000#32) && memRead t 0x034#22 == (.okay, 2))
    (exec .derive (planted aabc)) = true := by decide +kernel

/-- G7. -/
theorem test_derive_no_tree : endsIn .noTree 0 0 (exec .derive State.reset) = true := by decide

/-- N1. -/
theorem test_encode : writes text110100 6 6 0 (exec .encode (coding ringG1 aabc)) = true := by decide +kernel

/-- N4. -/
theorem test_encode_full : endsIn .obufOverflow 3 4 (exec .encode (small (coding ringG1 aabc))) = true := by
  decide +kernel

/-- N6. -/
theorem test_encpack : writes [0x02, 0xD0] 2 6 2 (exec .encpack (coding ringG1 aabc)) = true := by decide +kernel

/-- N13. -/
theorem test_encpack_unknown : endsIn .unknownSymbol 2 0x44 (exec .encpack (coding ringG1 [0x41, 0x42, 0x44])) = true := by
  decide +kernel

/-- N16. -/
theorem test_pack : writes [0xAA, 0x08, 0x00] 3 8 8
    (exec .pack (holding [0x31, 0x30, 0x31, 0x30, 0x31, 0x30, 0x31, 0x30])) = true := by decide +kernel

/-- N20. -/
theorem test_pack_full : endsIn .obufOverflow 24 4 (exec .pack (small (holding (List.replicate 24 0x31)))) = true := by
  decide +kernel

/-- U1. -/
theorem test_unpack : writes text110100 6 6 2 (exec .unpack (holding [0x02, 0xD0])) = true := by decide +kernel

/-- S4, U6. -/
theorem test_unpack_corrupt : endsIn .corruptPadding 0 9 (exec .unpack (holding [0x09, 0x00])) = true := by
  decide +kernel

/-- D1. -/
theorem test_decode : writes aabc 4 6 0 (exec .decode (coding ringG1 text110100)) = true := by decide +kernel

/-- S5, D4. -/
theorem test_decode_incomplete : endsIn .incompleteCode 6 2 (exec .decode (coding ringNoC text110100)) = true := by
  decide +kernel

/-- C2: the filler bits are not checked. -/
theorem test_decompress : writes aabc 4 6 2 (exec .decompress (coding ringG1 [0x02, 0xD3])) = true := by decide +kernel

/-- C7. -/
theorem test_decompress_corrupt : endsIn .corruptPadding 1 9 (exec .decompress (holding [0xD0, 0x09, 0x00])) = true := by
  decide +kernel

/-- M2 (S1). -/
theorem test_compress : writes [0x04, 0x00] 2 4 4 (exec .compress (holding (List.replicate 4 0x41))) = true := by
  decide +kernel

/-- M3 (S3): STATUS 0x0000000E. -/
theorem test_compress_empty : goesTo (fun t => memRead t 0x00C#22 == (.okay, 0xE) && t.errCode == .emptyInput)
    (exec .compress (holding [])) = true := by decide +kernel

/-- M6 (S2). -/
theorem test_encode_only : writes text110100 6 6 0 (exec .encodeOnly (holding aabc)) = true := by decide +kernel

/-- M7. -/
theorem test_encode_only_full : endsIn .obufOverflow 3 4 (exec .encodeOnly (small (holding aabc))) = true := by
  decide +kernel

/-! ### The bus, the interrupt and the resets -/

/-- B1, B2, B4, B6, B7. -/
theorem test_bus_reads : memRead State.reset 0x000#22 = (.okay, 0x48554631#32) ∧
    memRead State.reset 0x038#22 = (.okay, 0x00010000#32) ∧ memRead State.reset 0x03C#22 = (.okay, 0x00100000#32) ∧
    memRead State.reset 0x002#22 = (.slverr, 0) ∧ memRead State.reset 0x040#22 = (.slverr, 0) ∧
    memRead State.reset 0x003000#22 = (.slverr, 0) := by decide

/-- B8, B9: only bit 1 of a STATUS write acts. -/
theorem test_status_write :
    memRead (memWrite { State.reset with done := true, freqValid := true, treeValid := true } 0x00C#22 0xF#4 2#32).2
      0x00C#22 = (.okay, 0x18) ∧
    memRead (memWrite { State.reset with done := true, freqValid := true, treeValid := true } 0x00C#22 0xF#4
      0xFFFFFFFD#32).2 0x00C#22 = (.okay, 0x1A) := by decide

/-- B11, B12. -/
theorem test_ibuf_write : (memWrite State.reset 0x100000#22 0xF#4 0x43424141#32).2.ibuf.cells =
      [(0, 0x41), (1, 0x41), (2, 0x42), (3, 0x43)] ∧
    memRead (memWrite State.reset 0x100000#22 0xF#4 0x43424141#32).2 0x100000#22 = (.okay, 0x43424141#32) := by decide

/-- B15, B16. -/
theorem test_code_write : memRead (memWrite State.reset 0x005040#22 0xF#4 0xFFFFFFFF#32).2 0x005040#22 =
      (.okay, 0x0000FF01#32) ∧
    memRead (memWrite State.reset 0x005064#22 0xF#4 0xFFFFFFFF#32).2 0x005064#22 = (.okay, 0) := by decide +kernel

/-- I2, I3: `irq` rises with IE while DONE stands, and falls at acceptance. -/
theorem test_irq : irq (memWrite { State.reset with done := true } 0x004#22 0xF#4 1#32).2 = true ∧
    irq (memWrite { State.reset with done := true, ie := true } 0x008#22 0xF#4 0#32).2 = false := by
  constructor <;> rfl

/-- R46, R128: after the rise `irq` is 0 when DONE or IE was 0 at the fall, and in any case when recovery ends. -/
theorem test_irq_recovery :
    irq (hardReset { State.reset with done := false, ie := true }) = false ∧
    irq (hardReset { State.reset with done := true, ie := false }) = false ∧
    goesTo (fun t => !irq t && !t.done && !t.ie) (step { State.reset with recovery := 1, done := true, ie := true }) = true := by
  simp [irq, hardReset, settle, goesTo, step, recoveryStep, State.reset]

/-- R49, R54: a read while IDLE and a read that was held are answered with the register's value. -/
theorem test_read_answered :
    goesTo (fun t => t.answers == [{ txn := .read 0x01C#22, resp := .okay, data := 4 }] && t.inLen == 4)
      (step { holding aabc with input := [.issue (.read 0x01C#22)] }) = true ∧
    goesTo (fun t => t.answers == [{ txn := .read 0x002#22, resp := .slverr, data := 0 }] && t.held == [])
      (step { holding aabc with held := [.read 0x002#22] }) = true := by decide

/-- I4: a soft reset keeps IBUF. -/
theorem test_soft_reset : (memWrite (holding aabc) 0x004#22 0xF#4 2#32).2.ibuf = (holding aabc).ibuf ∧
    (memWrite (holding aabc) 0x004#22 0xF#4 2#32).2.inLen = 0 := by constructor <;> rfl

/-- R54: of the transactions that recovery held behind a CMD write, a STATUS read is answered at once when the command
is accepted, and a read of IN_LEN stays held. -/
theorem test_status_behind_cmd : goesTo (fun t => decide (t.phase = .busy) && t.held == [.read 0x01C#22]
    && t.answers.map Answer.txn == [.read 0x00C#22, .write 0x008#22 0xF#4 0#32])
    (step { State.reset with held := [.write 0x008#22 0xF#4 0#32, .read 0x01C#22, .read 0x00C#22] }) = true := by
  decide

/-- R77: the lines of P1 and P4. -/
theorem test_script : scriptRun .compress = [.issue (.write 0x008#22 0xF#4 0xA#32), .await,
      .poll 0x00C#22 3#32 2#32, .issue (.write 0x00C#22 0xF#4 2#32), .await] ∧
    scriptLoadin aabc = [.issue (.write 0x100000#22 0xF#4 0x43424141#32), .await,
      .issue (.write 0x01C#22 0xF#4 4#32), .await] ∧
    (scriptSetcode 0x42 [false, true]).take 4 = [.issue (.write 0x005080#22 0xF#4 0x00000201#32), .await,
      .issue (.write 0x005084#22 0xF#4 0x40000000#32), .await] := by decide +kernel

/-! ### A witness for the hypotheses of each obligation -/

/-! Facts the witnesses share. -/

theorem ringG1_prefixFree : PrefixFree ringG1 := codebookFault_none.mp (by decide +kernel)
theorem ringNoC_prefixFree : PrefixFree ringNoC := codebookFault_none.mp (by decide +kernel)
theorem ringV2_not_prefixFree : ¬ PrefixFree ringV2 :=
  fun h => absurd (codebookFault_none.mpr h) (by decide +kernel)

theorem coded_of_all {c : Codes} {m : List Byte} (h : (m.all fun b => (codeAt c b).valid) = true) : Coded c m :=
  List.all_eq_true.mp h

theorem histogram_total {m : List Byte} (h : m.length ≤ 65536) : freqTotal (histogram m) ≤ 65536 := by
  rw [(histogram_spec (by omega)).1]; exact h

theorem planted_inv {m : List Byte} (h : m.length ≤ 65536) (hm : m ≠ []) : Invariant (planted m) where
  params := (by decide : State.reset.params.wf = true)
  ibuf := (by decide : State.reset.ibuf.wf State.reset.params.ibufSize = true)
  obuf := (by decide : State.reset.obuf.wf State.reset.params.obufSize = true)
  hidden := rfl
  busyQuiet := fun h => by cases h
  errRecord := ⟨fun _ => rfl, fun _ => rfl⟩
  emptyRecord := fun _ => ⟨rfl, rfl⟩
  noDegenerate := fun h => by cases h
  outLen := Nat.zero_le _
  pad := Nat.zero_le _
  nsym := toNat_nsym _
  counts := histogram_total h
  freqValid := fun h => by cases h
  node := .inr ⟨_, presentBytes_histogram (by omega) hm, histogram_total h, rfl⟩
  treeValid := fun _ => ⟨presentBytes_histogram (by omega) hm, rfl, rfl⟩

/-- R70: the smallest reserved word and a legal command are well formed. -/
theorem witness_DecodeEncodeAgree : (Instr.reserved 12#32).wf = true ∧ Instr.encodeOnly.wf = true := by decide

/-- The last legal word and the first reserved one. -/
theorem witness_LegalWords : ((11#32).extractLsb' 4 28 = 0 ∧ ((11#32).extractLsb' 0 4).toNat ≤ 0xB) ∧
    ¬ ((12#32).extractLsb' 4 28 = 0 ∧ ((12#32).extractLsb' 0 4).toNat ≤ 0xB) := by decide

theorem witness_StepRunsDecoded :
    let s := acceptNow 1 State.reset
    s.rstN = true ∧ s.recovery = 0 ∧ s.phase = .busy ∧ s.work = 0 ∧ Instr.analyze.wf = true := ⟨rfl, rfl, rfl, rfl, rfl⟩

theorem witness_CmdWriteAccepts :
    let s := { State.reset with input := [.issue (.write 0x008#22 0xF#4 1#32)] }
    let s' := { State.reset with held := [.write 0x008#22 0xF#4 1#32, .read 0x01C#22, .read 0x00C#22] }
    let t := acceptNow 1 State.reset
    (s.rstN = true ∧ s.recovery = 0 ∧ s.phase = .idle ∧ s.held = [] ∧
      s.input = .issue (.write 0x008#22 0xF#4 1#32) :: []) ∧
    (s'.rstN = true ∧ s'.recovery = 0 ∧ s'.phase = .idle ∧
      s'.held = .write 0x008#22 0xF#4 1#32 :: [.read 0x01C#22, .read 0x00C#22]) ∧
    (t.rstN = true ∧ t.recovery = 0 ∧ t.phase = .busy ∧ t.work = 0 ∧ t.cmd = 1) :=
  ⟨⟨rfl, rfl, rfl, rfl, rfl⟩, ⟨rfl, rfl, rfl, rfl⟩, rfl, rfl, rfl, rfl, rfl⟩

theorem witness_CommandCompletes :
    let s := { accept 1 State.reset with input := [.issue (.read 0x00C#22)] }
    s.rstN = true ∧ s.recovery = 0 ∧ s.phase = .busy ∧ ∀ l, HostEvent.rst l ∉ s.input :=
  ⟨rfl, rfl, rfl, by intro l h; simp at h⟩

/-- R73: IN_LEN = IBUF_SIZE + 1. -/
theorem witness_LengthCheck :
    let s := { State.reset with inLen := 0x00010001#32 }
    s.params.ibufSize < s.inLen.toNat := by decide

/-- Vectors A5 and A6. -/
theorem witness_AnalyzeCounts :
    (let s := { State.reset with inLen := 0x00010001#32 }; s.params.ibufSize < s.inLen.toNat) ∧
    let s := { State.reset with inLen := 0x00010000#32 }
    s.inLen.toNat ≤ s.params.ibufSize := by decide

theorem witness_BuildMakesHuffmanTree : (∀ b, freqAt State.reset.freq b = 0) ∧
    (∃ b, freqAt (histogram aabc) b ≠ 0) ∧ freqTotal (histogram aabc) < 2 ^ 32 := by
  refine ⟨by decide +kernel, ⟨0x41, by decide +kernel⟩, ?_⟩
  have := histogram_total (m := aabc) (by decide)
  omega

theorem witness_BuildMergesLeast :
    let s := planted aabc
    (∃ b, freqAt s.freq b ≠ 0) ∧ freqTotal s.freq < 2 ^ 32 ∧
      (presentBytes s.freq).length ≤ (3 : NodeIdx).toNat ∧ (3 : NodeIdx).toNat < 2 * (presentBytes s.freq).length - 1 ∧
      (4 : NodeIdx).toNat < 2 * (presentBytes s.freq).length - 1 := by
  refine ⟨⟨0x41, by decide +kernel⟩, ?_, by decide +kernel⟩
  have := histogram_total (m := aabc) (by decide)
  exact Nat.lt_of_le_of_lt this (by decide)

/-- No tree (G7), a bare leaf (G4), and a tree of three leaves (G1) with the path "01" of B. -/
theorem witness_DeriveAssignsPaths : State.reset.treeValid = false ∧
    (Invariant (planted [0x41]) ∧ (planted [0x41]).treeValid = true ∧
      (nodeAt (planted [0x41]).node (planted [0x41]).root).internal = false) ∧
    Invariant (planted aabc) ∧ (planted aabc).treeValid = true ∧
      (nodeAt (planted aabc).node (planted aabc).root).internal = true ∧
      throughInternal (planted aabc).node (planted aabc).root [false, true] = true ∧
      (nodeAt (planted aabc).node (follow (planted aabc).node (planted aabc).root [false, true])).internal = false :=
  ⟨rfl, ⟨planted_inv (by decide) (by decide), rfl, by decide +kernel⟩, planted_inv (by decide) (by decide), rfl,
    by decide +kernel⟩

theorem witness_DerivedCodebook : Invariant (planted aabc) ∧ (planted aabc).treeValid = true :=
  ⟨planted_inv (by decide) (by decide), rfl⟩

theorem witness_CodeLengthMonotone : Invariant (planted aabc) ∧ (planted aabc).treeValid = true ∧
    freqAt (planted aabc).freq 0x42 ≠ 0 ∧
    (freqAt (planted aabc).freq 0x42).toNat < (freqAt (planted aabc).freq 0x41).toNat :=
  ⟨planted_inv (by decide) (by decide), rfl, by decide +kernel⟩

/-- Vectors V1 and V2, the input a good trailer. -/
theorem witness_CodebookCheck :
    (let s := coding ringV2 [0x08, 0x00];
      s.inLen.toNat ≤ s.params.ibufSize ∧ ¬ PrefixFree s.code ∧ PaddingOk s) ∧
    let s := coding ringG1 [0x08, 0x00]
    s.inLen.toNat ≤ s.params.ibufSize ∧ PrefixFree s.code ∧ s.errCode = .none :=
  ⟨⟨by decide, ringV2_not_prefixFree, by unfold PaddingOk; decide +kernel⟩, by decide, ringG1_prefixFree, rfl⟩

theorem witness_MatchIsFinal : codebookFault ringG1 = none ∧ (codeAt ringG1 0x42).valid = true ∧
    ringLookup ringG1 [false, true] = some 0x42 ∧ (codeAt ringG1 0x42).symbols = [false] ++ [true] := by decide +kernel

/-- Vector N1. -/
theorem witness_EncodeSucceeds :
    let s := coding ringG1 aabc
    s.inLen.toNat ≤ s.params.ibufSize ∧ PrefixFree s.code ∧ Coded s.code (message s) ∧
      (encodedBits s.code (message s)).length ≤ s.params.obufSize :=
  ⟨by decide, ringG1_prefixFree, coded_of_all (by decide +kernel), by decide +kernel⟩

/-- Vectors N3 and N4. -/
theorem witness_EncodeErrors :
    (let s := coding ringG1 [0x41, 0x42, 0x44];
      s.inLen.toNat ≤ s.params.ibufSize ∧ PrefixFree s.code ∧ message s = [0x41, 0x42] ++ 0x44 :: [] ∧
      Coded s.code [0x41, 0x42] ∧ (encodedBits s.code [0x41, 0x42]).length ≤ s.params.obufSize ∧
      (codeAt s.code 0x44).valid = false) ∧
    let s := small (coding ringG1 aabc)
    s.inLen.toNat ≤ s.params.ibufSize ∧ PrefixFree s.code ∧ message s = [0x41, 0x41, 0x42] ++ 0x43 :: [] ∧
      Coded s.code [0x41, 0x41, 0x42] ∧ (encodedBits s.code [0x41, 0x41, 0x42]).length ≤ s.params.obufSize ∧
      (codeAt s.code 0x43).valid = true ∧
      s.params.obufSize < (encodedBits s.code ([0x41, 0x41, 0x42] ++ [0x43])).length :=
  ⟨⟨by decide, ringG1_prefixFree, by decide +kernel, coded_of_all (by decide +kernel), by decide +kernel⟩,
    by decide, ringG1_prefixFree, by decide +kernel, coded_of_all (by decide +kernel), by decide +kernel⟩

/-- Vector N6. -/
theorem witness_EncpackSucceeds :
    let s := coding ringG1 aabc
    s.inLen.toNat ≤ s.params.ibufSize ∧ PrefixFree s.code ∧ Coded s.code (message s) ∧
      (encodedBits s.code (message s)).length / 8 + 2 ≤ s.params.obufSize :=
  ⟨by decide, ringG1_prefixFree, coded_of_all (by decide +kernel), by decide +kernel⟩

/-- A message of 40 A's: five groups of 8 symbols; with 24 of them three groups and no room for the trailer (cf. N19,
N20). -/
theorem witness_EncpackErrors :
    (let s := coding ringG1 [0x41, 0x42, 0x44];
      s.inLen.toNat ≤ s.params.ibufSize ∧ PrefixFree s.code ∧ message s = [0x41, 0x42] ++ 0x44 :: [] ∧
      Coded s.code [0x41, 0x42] ∧ (encodedBits s.code [0x41, 0x42]).length / 8 ≤ s.params.obufSize ∧
      (codeAt s.code 0x44).valid = false) ∧
    (let s := small (coding ringG1 (List.replicate 40 0x41));
      s.inLen.toNat ≤ s.params.ibufSize ∧ PrefixFree s.code ∧ message s = List.replicate 39 0x41 ++ 0x41 :: [] ∧
      Coded s.code (List.replicate 39 0x41) ∧
      (encodedBits s.code (List.replicate 39 0x41)).length / 8 ≤ s.params.obufSize ∧ (codeAt s.code 0x41).valid = true ∧
      s.params.obufSize < (encodedBits s.code (List.replicate 39 0x41 ++ [0x41])).length / 8) ∧
    let s := small (coding ringG1 (List.replicate 24 0x41))
    s.inLen.toNat ≤ s.params.ibufSize ∧ PrefixFree s.code ∧ Coded s.code (message s) ∧
      (encodedBits s.code (message s)).length / 8 ≤ s.params.obufSize ∧
      s.params.obufSize < (encodedBits s.code (message s)).length / 8 + 2 :=
  ⟨⟨by decide, ringG1_prefixFree, by decide +kernel, coded_of_all (by decide +kernel), by decide +kernel⟩,
    ⟨by decide, ringG1_prefixFree, by decide +kernel, coded_of_all (by decide +kernel), by decide +kernel⟩,
    by decide, ringG1_prefixFree, coded_of_all (by decide +kernel), by decide +kernel⟩

/-- Vector N14. -/
theorem witness_PackSucceeds :
    let s := holding text110100
    s.inLen.toNat ≤ s.params.ibufSize ∧ message s = textBits [true, true, false, true, false, false] ∧
      [true, true, false, true, false, false].length / 8 + 2 ≤ s.params.obufSize := by decide +kernel

/-- Vectors N18, N20, and the fifth group in a buffer of four bytes. -/
theorem witness_PackErrors :
    (let s := holding [0x31, 0x30, 0x32, 0x31];
      s.inLen.toNat ≤ s.params.ibufSize ∧ [true, false].length / 8 ≤ s.params.obufSize ∧
      message s = textBits [true, false] ++ 0x32 :: [0x31]) ∧
    (let s := small (holding (List.replicate 40 0x31));
      s.inLen.toNat ≤ s.params.ibufSize ∧ (List.replicate 39 true).length / 8 ≤ s.params.obufSize ∧
      message s = textBits (List.replicate 39 true ++ [true]) ++ [] ∧
      (List.replicate 39 true).length + 1 = 8 * (s.params.obufSize + 1)) ∧
    let s := small (holding (List.replicate 24 0x31))
    s.inLen.toNat ≤ s.params.ibufSize ∧ (List.replicate 24 true).length / 8 ≤ s.params.obufSize ∧
      message s = textBits (List.replicate 24 true) ∧
      s.params.obufSize < (List.replicate 24 true).length / 8 + 2 := by decide +kernel

/-- Vector U3, the count 0, and the count 8. -/
theorem witness_UnpackSucceeds :
    (let s := holding [0x00, 0xFF];
      s.inLen.toNat ≤ s.params.ibufSize ∧ PaddingOk s ∧ (packedSymbols s).length ≤ s.params.obufSize) ∧
    let s := holding [0x08, 0x00]
    s.inLen.toNat ≤ s.params.ibufSize ∧ PaddingOk s ∧ (packedSymbols s).length ≤ s.params.obufSize := by
  unfold PaddingOk; decide +kernel

/-- Vectors U4, U6, and eight symbols for a buffer of four bytes. -/
theorem witness_UnpackErrors :
    (let s := holding [0x01]; s.inLen.toNat ≤ s.params.ibufSize ∧ s.inLen.toNat < 2) ∧
    (let s := holding [0x09, 0x00];
      s.inLen.toNat ≤ s.params.ibufSize ∧ 2 ≤ s.inLen.toNat ∧ 8 < paddingCount s) ∧
    let s := small (holding [0x00, 0xFF])
    s.inLen.toNat ≤ s.params.ibufSize ∧ PaddingOk s ∧ s.params.obufSize < (packedSymbols s).length := by
  unfold PaddingOk; decide +kernel

/-- Vector D1. -/
theorem witness_DecodeSucceeds :
    let s := coding ringG1 text110100
    s.inLen.toNat ≤ s.params.ibufSize ∧ PrefixFree s.code ∧ Coded s.code aabc ∧
      message s = textBits (encodedBits s.code aabc) ∧ aabc.length ≤ s.params.obufSize :=
  ⟨by decide, ringG1_prefixFree, coded_of_all (by decide +kernel), by decide +kernel⟩

theorem nothing_starts : NoCodeStarts ringNoC [false, false] ∧ NoCodeStarts ringNoC [] ∧
    NoCodeStarts ringNoC (List.replicate 256 false) := by
  unfold NoCodeStarts BitPrefix; decide +kernel

/-- Vectors D4 (S5), D6 (the accumulator overflows), D3, and five A's for a buffer of four bytes. -/
theorem witness_DecodeErrors :
    (let s := coding ringNoC text110100;
      s.inLen.toNat ≤ s.params.ibufSize ∧ PrefixFree s.code ∧ Coded s.code [0x41, 0x41, 0x42] ∧
      [0x41#8, 0x41, 0x42].length ≤ s.params.obufSize ∧ NoCodeStarts s.code [false, false] ∧
      message s = textBits (encodedBits s.code [0x41, 0x41, 0x42] ++ [false, false])) ∧
    (let s := coding ringNoC (List.replicate 256 0x30);
      s.inLen.toNat ≤ s.params.ibufSize ∧ PrefixFree s.code ∧ Coded s.code [] ∧ 0 ≤ s.params.obufSize ∧
      NoCodeStarts s.code (List.replicate 256 false) ∧ 255 < (List.replicate 256 false).length ∧
      message s = textBits (encodedBits s.code [] ++ List.replicate 256 false)) ∧
    (let s := coding ringNoC [0x31, 0x31, 0x78, 0x31];
      s.inLen.toNat ≤ s.params.ibufSize ∧ PrefixFree s.code ∧ Coded s.code [0x41, 0x41] ∧
      [0x41#8, 0x41].length ≤ s.params.obufSize ∧ NoCodeStarts s.code [] ∧
      message s = textBits (encodedBits s.code [0x41, 0x41] ++ []) ++ 0x78 :: [0x31]) ∧
    let s := small (coding ringG1 (List.replicate 5 0x31))
    s.inLen.toNat ≤ s.params.ibufSize ∧ PrefixFree s.code ∧ Coded s.code (List.replicate 5 0x41) ∧
      (List.replicate 5 0x41#8).length = s.params.obufSize + 1 ∧
      message s = textBits (encodedBits s.code (List.replicate 5 0x41)) ++ [] :=
  ⟨⟨by decide, ringNoC_prefixFree, coded_of_all (by decide +kernel), by decide, nothing_starts.1, by decide +kernel⟩,
    ⟨by decide +kernel, ringNoC_prefixFree, coded_of_all rfl, by decide, nothing_starts.2.2, by decide +kernel⟩,
    ⟨by decide, ringNoC_prefixFree, coded_of_all (by decide +kernel), by decide, nothing_starts.2.1, by decide +kernel⟩,
    by decide, ringG1_prefixFree, coded_of_all (by decide +kernel), by decide +kernel⟩

/-- Vector C1. -/
theorem witness_DecompressSucceeds :
    let s := coding ringG1 [0x02, 0xD0]
    s.inLen.toNat ≤ s.params.ibufSize ∧ PaddingOk s ∧ PrefixFree s.code ∧ Coded s.code aabc ∧
      packedSymbols s = encodedBits s.code aabc ∧ aabc.length ≤ s.params.obufSize :=
  ⟨by decide, by unfold PaddingOk; decide +kernel, ringG1_prefixFree, coded_of_all (by decide +kernel), by decide +kernel⟩

/-- Vector C5, and five A's for a buffer of four bytes. -/
theorem witness_DecompressErrors :
    (let s := coding ringNoC [0x02, 0xD0];
      s.inLen.toNat ≤ s.params.ibufSize ∧ PaddingOk s ∧ PrefixFree s.code ∧ Coded s.code [0x41, 0x41, 0x42] ∧
      [0x41#8, 0x41, 0x42].length ≤ s.params.obufSize ∧ NoCodeStarts s.code [false, false] ∧
      packedSymbols s = encodedBits s.code [0x41, 0x41, 0x42] ++ [false, false]) ∧
    let s := small (coding ringG1 [0x02, 0xFD])
    s.inLen.toNat ≤ s.params.ibufSize ∧ PaddingOk s ∧ PrefixFree s.code ∧ Coded s.code (List.replicate 5 0x41) ∧
      (List.replicate 5 0x41#8).length = s.params.obufSize + 1 ∧
      packedSymbols s = encodedBits s.code (List.replicate 5 0x41) ++ [true] :=
  ⟨⟨by decide, by unfold PaddingOk; decide +kernel, ringNoC_prefixFree, coded_of_all (by decide +kernel), by decide,
      nothing_starts.1, by decide +kernel⟩,
    by decide, by unfold PaddingOk; decide +kernel, ringG1_prefixFree, coded_of_all (by decide +kernel), by decide +kernel⟩

theorem witness_CompositeStages :
    (0 < (holding aabc).inLen.toNat ∧ (holding aabc).inLen.toNat ≤ (holding aabc).params.ibufSize) ∧
    State.reset.inLen.toNat = 0 := by decide

theorem next_after {o : Host.Outcome State Fault Refusal} {f : State → Bool} (h : goesTo f o = true) :
    o = .next (after o) ∧ f (after o) = true := by
  cases o with
  | next t => exact ⟨rfl, h⟩
  | fault r => cases h
  | refused r => cases h

/-- COMPRESS and ENCODE_ONLY of "AABC" end without error, their output within IBUF. -/
theorem compress_aabc : goesTo (fun t => !t.err && decide (t.outLen.toNat ≤ 65536)) (exec .compress (holding aabc)) = true := by
  decide +kernel
theorem encodeOnly_aabc :
    goesTo (fun t => !t.err && decide (t.outLen.toNat ≤ 65536)) (exec .encodeOnly (holding aabc)) = true := by
  decide +kernel

/-- The message of vectors T3 and M5. -/
def fibonacci : List Byte :=
  [0x41, 0x42] ++ List.replicate 2 0x43 ++ List.replicate 3 0x44 ++ List.replicate 5 0x45 ++ List.replicate 8 0x46

/-- The room there is; vector M5, where the third F completes the group without room; and the trailer after 24 A's, with
the code `0`, in four bytes (R90, R118). -/
theorem witness_CompressResult :
    (0 < (holding aabc).inLen.toNat ∧ (holding aabc).inLen.toNat ≤ (holding aabc).params.ibufSize ∧
      255 * (holding aabc).inLen.toNat / 8 + 2 ≤ (holding aabc).params.obufSize) ∧
    (let s := small (holding fibonacci);
      let c := (after (exec .compress s)).code;
      let m₁ := fibonacci.take 14;
      0 < s.inLen.toNat ∧ s.inLen.toNat ≤ s.params.ibufSize ∧ message s = m₁ ++ 0x46 :: List.replicate 5 0x46 ∧
      (encodedBits c m₁).length / 8 ≤ s.params.obufSize ∧
      s.params.obufSize < (encodedBits c (m₁ ++ [0x46])).length / 8 ∧
      endsIn .obufOverflow 14 4 (exec .compress s) = true) ∧
    let s := small (holding (List.replicate 24 0x41))
    let c := (after (exec .compress s)).code
    0 < s.inLen.toNat ∧ s.inLen.toNat ≤ s.params.ibufSize ∧
      (encodedBits c (message s)).length / 8 ≤ s.params.obufSize ∧
      s.params.obufSize < (encodedBits c (message s)).length / 8 + 2 ∧
      endsIn .obufOverflow 24 4 (exec .compress s) = true := by decide +kernel

/-- The room there is; and vector M7, where C is the byte without room. -/
theorem witness_EncodeOnlyResult :
    (0 < (holding aabc).inLen.toNat ∧ (holding aabc).inLen.toNat ≤ (holding aabc).params.ibufSize ∧
      255 * (holding aabc).inLen.toNat ≤ (holding aabc).params.obufSize) ∧
    let s := small (holding aabc)
    let c := (after (exec .encodeOnly s)).code
    0 < s.inLen.toNat ∧ s.inLen.toNat ≤ s.params.ibufSize ∧ message s = [0x41, 0x41, 0x42] ++ 0x43 :: [] ∧
      (encodedBits c [0x41, 0x41, 0x42]).length ≤ s.params.obufSize ∧
      s.params.obufSize < (encodedBits c ([0x41, 0x41, 0x42] ++ [0x43])).length ∧
      endsIn .obufOverflow 3 4 (exec .encodeOnly s) = true := by decide +kernel

/-- The block that holds what a state's command wrote as its input (R132 item 7). -/
def fedBack (t : State) : State := { t with params := State.reset.params, ibuf := t.obuf, inLen := t.outLen }

theorem fedBack_spec (t : State) : (fedBack t).params = State.reset.params ∧ (fedBack t).inLen = t.outLen ∧
    message (fedBack t) = outputBytes t ∧ (fedBack t).err = t.err ∧ SameRing t.code (fedBack t).code :=
  ⟨rfl, rfl, rfl, rfl, fun _ => ⟨rfl, fun _ => ⟨rfl, rfl⟩⟩⟩

theorem witness_CompressRoundTrip :
    let s := holding aabc
    let t := after (exec .compress s)
    let u := fedBack t
    s.params.wf = true ∧ 0 < s.inLen.toNat ∧ s.inLen.toNat ≤ s.params.ibufSize ∧
      s.inLen.toNat ≤ s.params.obufSize ∧ s.err = false ∧ exec .compress s = .next t ∧ t.err = false ∧
      t.outLen.toNat ≤ s.params.ibufSize ∧ u.params = s.params ∧ u.inLen = t.outLen ∧ message u = outputBytes t ∧
      SameRing t.code u.code := by
  obtain ⟨h, h'⟩ := next_after compress_aabc
  simp only [Bool.and_eq_true, Bool.not_eq_true', decide_eq_true_eq] at h'
  exact ⟨rfl, by decide, by decide, by decide, rfl, h, h'.1, h'.2, (fedBack_spec _).1, (fedBack_spec _).2.1,
    (fedBack_spec _).2.2.1, (fedBack_spec _).2.2.2.2⟩

theorem witness_EncodeOnlyRoundTrip :
    let s := holding aabc
    let t := after (exec .encodeOnly s)
    let u := fedBack t
    s.params.wf = true ∧ 0 < s.inLen.toNat ∧ s.inLen.toNat ≤ s.params.ibufSize ∧
      s.inLen.toNat ≤ s.params.obufSize ∧ s.err = false ∧ exec .encodeOnly s = .next t ∧ t.err = false ∧
      t.outLen.toNat ≤ s.params.ibufSize ∧ u.params = s.params ∧ u.inLen = t.outLen ∧ message u = outputBytes t ∧
      SameRing t.code u.code := by
  obtain ⟨h, h'⟩ := next_after encodeOnly_aabc
  simp only [Bool.and_eq_true, Bool.not_eq_true', decide_eq_true_eq] at h'
  exact ⟨rfl, by decide, by decide, by decide, rfl, h, h'.1, h'.2, (fedBack_spec _).1, (fedBack_spec _).2.1,
    (fedBack_spec _).2.2.1, (fedBack_spec _).2.2.2.2⟩

theorem encode_aabc : goesTo (fun t => !t.err) (exec .encode (coding ringG1 aabc)) = true := by decide +kernel
theorem pack_encoded : goesTo (fun t => !t.err)
    (exec .pack (fedBack (after (exec .encode (coding ringG1 aabc))))) = true := by decide +kernel

theorem witness_PackOfEncode :
    let s := coding ringG1 aabc
    let t := after (exec .encode s)
    let u := fedBack t
    let v := after (exec .pack u)
    s.params.wf = true ∧ s.err = false ∧ exec .encode s = .next t ∧ t.err = false ∧ u.params = s.params ∧
      u.inLen = t.outLen ∧ message u = outputBytes t ∧ u.err = false ∧ exec .pack u = .next v ∧ v.err = false := by
  obtain ⟨h, h'⟩ := next_after encode_aabc
  obtain ⟨k, k'⟩ := next_after pack_encoded
  simp only [Bool.not_eq_true'] at h' k'
  exact ⟨by decide, rfl, h, h', rfl, rfl, rfl, h', k, k'⟩

theorem unpack_aabc : goesTo (fun t => !t.err) (exec .unpack (coding ringG1 [0x02, 0xD0])) = true := by decide +kernel
theorem decode_unpacked : goesTo (fun t => !t.err)
    (exec .decode { fedBack (after (exec .unpack (coding ringG1 [0x02, 0xD0]))) with code := ringG1 }) = true := by
  decide +kernel

theorem witness_DecodeOfUnpack :
    let s := coding ringG1 [0x02, 0xD0]
    let t := after (exec .unpack s)
    let u := { fedBack t with code := ringG1 }
    let v := after (exec .decode u)
    s.params.wf = true ∧ s.err = false ∧ exec .unpack s = .next t ∧ t.err = false ∧ u.params = s.params ∧
      u.code = s.code ∧ u.inLen = t.outLen ∧ message u = outputBytes t ∧ u.err = false ∧ exec .decode u = .next v ∧
      v.err = false := by
  obtain ⟨h, h'⟩ := next_after unpack_aabc
  obtain ⟨k, k'⟩ := next_after decode_unpacked
  simp only [Bool.not_eq_true'] at h' k'
  exact ⟨by decide, rfl, h, h', rfl, rfl, rfl, rfl, h', k, k'⟩

/-- Vector U5: the error arises. -/
theorem witness_OutputErrorSpoils : isOutput .unpack = true ∧ State.reset.err = false ∧
    goesTo (fun t => t.err) (exec .unpack State.reset) = true := by decide

/-- Vector U1: the success arises. -/
theorem witness_OutputSuccessFrame : isOutput .unpack = true ∧ State.reset.params.wf = true ∧ State.reset.err = false ∧
    goesTo (fun t => !t.err) (exec .unpack (holding [0x02, 0xD0])) = true := by decide +kernel

theorem witness_CommandFrames : isOutput .nop = false ∧ isOutput (.reserved 0xC#32) = false := by decide

theorem witness_DecodeReadsCodeOnly : Instr.decompress ∈ [Instr.decode, .decompress] := by decide

/-- Misaligned; unmapped on either side of windows; mapped at their first and last words; a partial strobe. -/
theorem witness_RefusedAccesses :
    let s := State.reset
    let mapped : Offset → Bool := fun a => decide (
      a.toNat < 0x40 ∨ (0x1000 ≤ a.toNat ∧ a.toNat < 0x1400) ∨ (0x2000 ≤ a.toNat ∧ a.toNat < 0x3000) ∨
        (0x4000 ≤ a.toNat ∧ a.toNat < 0x8000) ∨ (0x100000 ≤ a.toNat ∧ a.toNat < 0x100000 + s.params.ibufSize) ∨
        (0x200000 ≤ a.toNat ∧ a.toNat < 0x200000 + s.params.obufSize))
    s.params.wf = true ∧ (0x002#22 : Offset).toNat % 4 ≠ 0 ∧ ¬ mapped 0x040#22 ∧ ¬ mapped 0x001400#22 ∧
      ¬ mapped 0x003000#22 ∧ ¬ mapped 0x008000#22 ∧ ¬ mapped 0x110000#22 ∧ ¬ mapped 0x300000#22 ∧
      mapped 0x000#22 ∧ mapped 0x03C#22 ∧ mapped 0x0013FC#22 ∧ mapped 0x002FFC#22 ∧ mapped 0x007FFC#22 ∧
      mapped 0x10FFFC#22 ∧ mapped 0x2FFFFC#22 ∧ (0x3#4 : BitVec 4) ≠ 0xF#4 := by decide

/-- A read-only register, the first and last words of the read-only windows, and a reserved word of CODE. -/
theorem witness_ReadOnlyWrites :
    State.reset.params.wf = true ∧
    ([0x000#22, 0x001000#22, 0x0013FC#22, 0x002004#22, 0x002FFC#22, 0x200000#22, 0x2FFFFC#22, 0x005064#22].all
      fun a : Offset => a.toNat % 4 == 0) = true ∧
    (0x002004#22 : Offset).toNat % 8 = 4 ∧ (0x005040#22 : Offset).toNat % 64 = 0 ∧
    9 ≤ (0x005064#22 : Offset).toNat % 64 / 4 := by decide

/-- The first and last words of OBUF. -/
theorem witness_ReadOnlyWindows :
    let s := State.reset
    s.params.wf = true ∧ 4 * 0 < s.params.obufSize ∧ 4 * 0x3FFFF < s.params.obufSize := by decide

/-- The first and last words of IBUF. -/
theorem witness_IbufWindow :
    let s := State.reset
    s.params.wf = true ∧ 4 * 0 < s.params.ibufSize ∧ 4 * 0x3FFF < s.params.ibufSize := by decide

/-- The first and last word of BITS, the first and last reserved word. -/
theorem witness_CodeWindow : (1 ≤ 1 ∧ 1 ≤ 8) ∧ (1 ≤ 8 ∧ 8 ≤ 8) ∧ (9 ≤ 9 ∧ 9 ≤ 15) ∧ 9 ≤ 15 ∧ 15 ≤ 15 := by decide

theorem witness_RegisterReads : State.reset.phase = .idle := rfl

theorem witness_RegisterWrites : (0x00000001#32 : Word).getLsbD 1 = false := by decide

theorem witness_SoftReset : State.reset.phase = .idle ∧ (0x00000002#32 : Word).getLsbD 1 = true := by decide

theorem witness_HardReset :
    ({ State.reset with rstN := false } : State).rstN = false ∧
    (let s := { acceptNow 1 State.reset with work := 3, input := [.rst false] };
      s.rstN = true ∧ s.recovery = 0 ∧ s.phase = .busy ∧ s.work = 2 + 1 ∧ s.input = .rst false :: []) ∧
    (let s := { State.reset with input := [.rst false] };
      s.rstN = true ∧ s.recovery = 0 ∧ s.phase = .idle ∧ s.held = [] ∧ s.input = .rst false :: []) ∧
    (let s := { State.reset with rstN := false, input := [.rst true] };
      s.rstN = false ∧ s.held = [] ∧ s.input = .rst true :: []) ∧
    (let s := { State.reset with recovery := 2, input := [.issue (.read 0x00C#22)] };
      s.rstN = true ∧ s.recovery = 1 + 1 ∧ s.input = .issue (.read 0x00C#22) :: []) ∧
    let s := { State.reset with recovery := 1, done := true, ie := true }
    s.rstN = true ∧ s.recovery = 0 + 1 :=
  ⟨rfl, ⟨rfl, rfl, rfl, rfl, rfl⟩, ⟨rfl, rfl, rfl, rfl, rfl⟩, ⟨rfl, rfl, rfl⟩, ⟨rfl, rfl, rfl⟩, rfl, rfl⟩

/-- A read, a write and a poll while IDLE, and nothing to do. Vectors B17 and B18, and a poll, while a command runs. A
held read and a held partial write of CMD once the block is IDLE. A quiet block in whose next step a command starts with a
STATUS read held behind it. -/
theorem witness_HoldWhileBusy :
    (∀ es ∈ [[], [HostEvent.issue (.read 0x01C#22)], [.issue (.write 0x01C#22 0xF#4 4#32)], [.poll 0x00C#22 3#32 2#32]],
      let s := { State.reset with input := es };
      s.rstN = true ∧ s.recovery = 0 ∧ s.phase = .idle ∧ s.held = [] ∧ s.input = es) ∧
    (∀ e ∈ [HostEvent.issue (.read 0x020#22), .issue (.read 0x00C#22), .poll 0x00C#22 3#32 2#32],
      let s := { acceptNow 1 State.reset with work := 3, input := [e] };
      s.rstN = true ∧ s.recovery = 0 ∧ s.phase = .busy ∧ s.work = 2 + 1 ∧ s.input = e :: []) ∧
    Transaction.read 0x020#22 ≠ .read 0x00C#22 ∧
    (∀ x ∈ [Transaction.read 0x020#22, .write 0x008#22 0x3#4 1#32], let s := { State.reset with held := [x] };
      s.rstN = true ∧ s.recovery = 0 ∧ s.phase = .idle ∧ s.held = x :: []) ∧
    ¬ ((0x008#22 : Offset) = 0x008#22 ∧ (0x3#4 : BitVec 4) = 0xF#4) ∧
    let s := { State.reset with held := [.write 0x008#22 0xF#4 0#32, .read 0x00C#22] }
    HeldQuiet s ∧ ∃ t, step s = .next t ∧ t.phase = .busy :=
  ⟨fun _ _ => ⟨rfl, rfl, rfl, rfl, rfl⟩, fun _ _ => ⟨rfl, rfl, rfl, rfl, rfl⟩, by decide,
    fun _ _ => ⟨rfl, rfl, rfl, rfl⟩, by decide, (fun _ h => by cases h), _, rfl, rfl⟩

/-- I1 to I3. -/
theorem witness_IrqFollowsDone :
    State.reset.rstN = true ∧ (0x00000002#32 : Word).getLsbD 1 = true ∧
    (0x00000001#32 : Word).getLsbD 1 = false := by decide

/-- From a block with a tree, a step to a next state. -/
theorem witness_InvariantKept : Invariant (planted aabc) ∧ step (planted aabc) = .next (planted aabc) :=
  ⟨planted_inv (by decide) (by decide), rfl⟩

/-- Vector P4's message; three bytes, so that one byte of the last word is missing; codes of 2 and of 255 symbols. -/
theorem witness_ScriptLoads :
    (∀ m ∈ [aabc, [0x41, 0x41, 0x42]], let s := { State.reset with input := scriptLoadin m ++ [] };
      s.rstN = true ∧ s.recovery = 0 ∧ s.phase = .idle ∧ s.held = [] ∧ s.params.wf = true ∧
      m.length ≤ s.params.ibufSize ∧ s.input = scriptLoadin m ++ []) ∧
    ([0x41, 0x41, 0x42] : List Byte).length ≤ 3 ∧ 3 < 4 * ((([0x41, 0x41, 0x42] : List Byte).length + 3) / 4) ∧
    ∀ e ∈ [[false, true], List.replicate 255 true],
      let s := { State.reset with input := scriptSetcode 0x42 e ++ [] }
      s.rstN = true ∧ s.recovery = 0 ∧ s.phase = .idle ∧ s.held = [] ∧ s.params.wf = true ∧
        e.length ≤ 255 ∧ s.input = scriptSetcode 0x42 e ++ [] := by
  have hwf : State.reset.params.wf = true := by decide
  refine ⟨fun m hm => ⟨rfl, rfl, rfl, rfl, hwf, ?_, rfl⟩, by decide, by decide, fun e he =>
    ⟨rfl, rfl, rfl, rfl, hwf, ?_, rfl⟩⟩
  · revert m; decide
  · simp only [List.mem_cons, List.not_mem_nil, or_false] at he
    rcases he with rfl | rfl
    · decide
    · exact (List.length_replicate (n := 255) (a := true)).le

theorem witness_ScriptRun :
    let s := { State.reset with input := scriptRun .compress ++ [] }
    s.rstN = true ∧ s.recovery = 0 ∧ s.phase = .idle ∧ s.held = [] ∧ Instr.compress.wf = true ∧
      s.input = scriptRun .compress ++ [] := ⟨rfl, rfl, rfl, rfl, rfl, rfl⟩

end Sys2Proof.Tests
end

section
/-! The statements about the state (10_state.md): what a command's completion leaves and what every step keeps of the
invariant (R22 to R45, R110), the registers behind the port (R19 to R33) and the interrupt output (R46). -/

namespace Sys2Proof.Machine

/-! ### What a run leaves alone (R72) -/

theorem runOf_ok_wrote {i : Instr} {s t : State} (hr : runOf i s = .ok t) : Wrote s t := by
  have hw := runOf_wrote i s
  rwa [hr] at hw

theorem Wrote.params {s t : State} (h : Wrote s t) : t.params = s.params := by rw [h]

theorem Wrote.ibuf {s t : State} (h : Wrote s t) : t.ibuf = s.ibuf := by rw [h]

theorem Wrote.ie {s t : State} (h : Wrote s t) : t.ie = s.ie := by rw [h]

theorem Wrote.rstN {s t : State} (h : Wrote s t) : t.rstN = s.rstN := by rw [h]

/-- A run touches no part of the error record: only a completion does (R114). -/
theorem Wrote.record {s t : State} (h : Wrote s t) :
    t.err = s.err ∧ t.errCode = s.errCode ∧ t.errIndex = s.errIndex ∧ t.errValue = s.errValue := by
  rw [h]; exact ⟨rfl, rfl, rfl, rfl⟩

/-- Only output commands touch OBUF and the result registers (R27 to R29, R40). -/
theorem runOf_plain {i : Instr} (hi : isOutput i = false) (s : State) :
    (runOf i s).left.obuf = s.obuf ∧ (runOf i s).left.outLen = s.outLen ∧
      (runOf i s).left.bitLen = s.bitLen ∧ (runOf i s).left.pad = s.pad := by
  cases i with
  | nop => exact ⟨rfl, rfl, rfl, rfl⟩
  | reserved w => exact ⟨rfl, rfl, rfl, rfl⟩
  | analyze =>
    by_cases h : s.inLen.toNat ≤ s.params.ibufSize
    · rw [runOf, runAnalyze_ok h]; exact ⟨rfl, rfl, rfl, rfl⟩
    · rw [runOf, runAnalyze_raised (by omega)]; exact ⟨rfl, rfl, rfl, rfl⟩
  | build =>
    by_cases h : presentBytes s.freq = []
    · rw [runOf, runBuild_raised h]; exact ⟨rfl, rfl, rfl, rfl⟩
    · rw [runOf, runBuild_ok h]; exact ⟨rfl, rfl, rfl, rfl⟩
  | derive =>
    cases h : s.treeValid
    · rw [runOf, runDerive_raised h]; exact ⟨rfl, rfl, rfl, rfl⟩
    · rw [runOf, runDerive_ok h]; exact ⟨rfl, rfl, rfl, rfl⟩
  | _ => cases hi

/-! ### The parts of the invariant at a completion -/

/-- What the invariant says of OBUF and the result registers (R27, R29, R40). -/
structure ResultsOk (s : State) : Prop where
  obuf : s.obuf.wf s.params.obufSize = true
  outLen : s.outLen.toNat ≤ s.params.obufSize
  pad : s.pad.toNat ≤ 8

/-- What the invariant says of the error record (R22, R23, R83, R116). -/
structure RecordOk (s : State) : Prop where
  errRecord : s.err = false ↔ s.errCode = .none
  emptyRecord : s.errCode = .none → s.errIndex = 0 ∧ s.errValue = 0
  noDegenerate : s.errCode ≠ .degenerateTree

theorem Invariant.results {s : State} (h : Invariant s) : ResultsOk s := ⟨h.obuf, h.outLen, h.pad⟩

/-- An IDLE block without hidden state meets the invariant when its buffers, results, error record and tables do. -/
theorem Invariant.of_idle {s : State} (hp : s.params.wf = true) (hi : s.ibuf.wf s.params.ibufSize = true)
    (hh : s.hidden = Hidden.empty) (hidle : s.phase = .idle) (hres : ResultsOk s) (hrec : RecordOk s)
    (htab : TablesOk s) : Invariant s :=
  ⟨hp, hi, hres.obuf, hh, fun hb => (by rw [hidle] at hb; cases hb), hrec.errRecord, hrec.emptyRecord,
    hrec.noDegenerate, hres.outLen, hres.pad, htab.nsym, htab.counts, htab.freqValid, htab.node, htab.treeValid⟩

/-- The output index of a sound output fits OUT_LEN: OBUF_SIZE is at most 2^20 (R5, R27). -/
theorem Out.Sound.toNat_outIdx {p : Params} {m : Memory} {o : Out} (ho : o.Sound p m) (hp : p.wf = true) :
    (BitVec.ofNat 32 o.hidden.outIdx).toNat = o.hidden.outIdx := by
  have hle := ho.bound
  have hsz := sizes_of_wf hp
  rw [BitVec.toNat_ofNat]
  omega

/-- The run of a command that is no output command leaves the results in range. -/
theorem runOf_plain_results {i : Instr} {s : State} (hi : isOutput i = false) (h : ResultsOk s) :
    ResultsOk (runOf i s).left := by
  obtain ⟨hobuf, hout, -, hpad⟩ := runOf_plain hi s
  refine ⟨?_, ?_, ?_⟩
  · rw [hobuf, (runOf_wrote i s).params]; exact h.obuf
  · rw [hout, (runOf_wrote i s).params]; exact h.outLen
  · rw [hpad]; exact h.pad

/-- A run that reaches its end leaves the results in range. -/
theorem runOf_ok_results {i : Instr} {s t : State} (h : ResultsOk s) (hp : s.params.wf = true)
    (hr : runOf i s = .ok t) : ResultsOk t := by
  cases hi : isOutput i with
  | false =>
    have ht := runOf_plain_results hi h
    rwa [hr] at ht
  | true =>
    obtain ⟨o, ho, hobuf, hout, hpad⟩ := runOf_out_ok hi hr
    have hpar := (runOf_ok_wrote hr).params
    refine ⟨?_, ?_, hpad⟩
    · rw [hpar, hobuf]; exact ho.canonical h.obuf
    · rw [hpar, hout, ho.toNat_outIdx hp]; exact ho.bound

/-- The completion in error leaves the results in range: an output command's are spoiled, any other's are as they
were (R114). -/
theorem raiseError_results {i : Instr} {s t : State} {r : Raised} (h : ResultsOk s)
    (hr : runOf i s = .raised r t) : ResultsOk (raiseError (isOutput i) r t) := by
  cases hi : isOutput i with
  | false =>
    have ht := runOf_plain_results hi h
    rw [hr] at ht
    exact ⟨ht.obuf, ht.outLen, ht.pad⟩
  | true => exact ⟨rfl, Nat.zero_le _, Nat.zero_le _⟩

/-- A completion in error records a code that is neither 0 nor 2 (R83, R114). -/
theorem raiseError_record {i : Instr} {r : Raised} (hr : r.code ∈ mayRaise i) (output : Bool) (t : State) :
    RecordOk (raiseError output r t) := by
  obtain ⟨hdeg, hnone⟩ := mayRaise_real i
  have hcode : r.code ≠ .none := fun hc => hnone (hc ▸ hr)
  exact ⟨⟨fun h => (by cases h), fun h => absurd h hcode⟩, fun h => absurd h hcode, fun hc => hdeg (hc ▸ hr)⟩

/-- Neither completion touches the tables (R113, R114). -/
theorem TablesOk.raiseError {t : State} (h : TablesOk t) (output : Bool) (r : Raised) :
    TablesOk (raiseError output r t) := by
  cases output <;> exact ⟨h.nsym, h.counts, h.freqValid, h.node, h.treeValid⟩

/-- The fields a completion in error leaves, whatever the kind of the command (R114). -/
theorem raiseError_kept (output : Bool) (r : Raised) (t : State) :
    (raiseError output r t).params = t.params ∧ (raiseError output r t).ibuf = t.ibuf ∧
      (raiseError output r t).ie = t.ie ∧ (raiseError output r t).rstN = t.rstN ∧
      (raiseError output r t).freqValid = t.freqValid ∧ (raiseError output r t).treeValid = t.treeValid := by
  cases output <;> exact ⟨rfl, rfl, rfl, rfl, rfl, rfl⟩

/-! ### The invariant along one step -/

/-- Every command keeps the invariant (R113, R114). -/
theorem exec_inv {i : Instr} {s t : State} (h : Invariant s) (hx : exec i s = .next t) : Invariant t := by
  have htab := runOf_tables i h.tables
  rcases exec_cases i s with ⟨u, hr, hw, he⟩ | ⟨r, u, hr, hw, hcode, he⟩
  · obtain rfl : completeOk u = t := by simpa [he] using hx
    rw [hr] at htab
    obtain ⟨hobuf, hout, hpad⟩ := runOf_ok_results h.results h.params hr
    obtain ⟨herr, hcode, hindex, hvalue⟩ := hw.record
    refine .of_idle ?_ ?_ rfl rfl ⟨hobuf, hout, hpad⟩ ⟨?_, ?_, ?_⟩
      ⟨htab.nsym, htab.counts, htab.freqValid, htab.node, htab.treeValid⟩
    · rw [completeOk_params, hw.params]; exact h.params
    · rw [completeOk_ibuf, completeOk_params, hw.ibuf, hw.params]; exact h.ibuf
    · rw [completeOk_err, completeOk_errCode, herr, hcode]; exact h.errRecord
    · rw [completeOk_errCode, completeOk_errIndex, completeOk_errValue, hcode, hindex, hvalue]; exact h.emptyRecord
    · rw [completeOk_errCode, hcode]; exact h.noDegenerate
  · obtain rfl : raiseError (isOutput i) r u = t := by simpa [he] using hx
    rw [hr] at htab
    obtain ⟨hpar, hibuf, -⟩ := raiseError_kept (isOutput i) r u
    refine .of_idle ?_ ?_ rfl rfl (raiseError_results h.results hr) (raiseError_record hcode _ _)
      (htab.raiseError _ _)
    · rw [hpar, hw.params]; exact h.params
    · rw [hibuf, hpar, hw.ibuf, hw.params]; exact h.ibuf

/-- A step while IDLE keeps the invariant (R49, R54). -/
theorem idleStep_inv {s : State} (h : Invariant s) (hp : s.phase = .idle) : Invariant (idleStep s) := by
  unfold idleStep
  split
  · exact release_inv h hp
  split
  · exact h
  · exact transact_inv (h.port _ _ _ _ _ _ _) hp
  · have ht := fun a => transact_inv (x := .read a) h hp
    unfold pollStep
    split
    · exact (ht _).port _ _ _ _ _ _ _
    · exact ht _
  · exact h.port _ _ _ _ _ _ _
  · exact h.port _ _ _ _ _ _ _

/-- What a step of a running command moves (R54): the bus, the pin and the model's counters. -/
theorem busyStep_moves (n : Nat) (s : State) : ∃ pin es ts as d,
    busyStep n s = { s with rstN := pin, input := es, held := ts, answers := as, work := n, draws := d } := by
  unfold busyStep
  simp only
  split
  · exact ⟨_, _, _, _, _, rfl⟩
  · split <;> exact ⟨_, _, _, _, _, rfl⟩
  · unfold pollStep
    split
    · split <;> exact ⟨_, _, _, _, _, rfl⟩
    · exact ⟨_, _, _, _, _, rfl⟩
  · split <;> exact ⟨_, _, _, _, _, rfl⟩
  · exact ⟨_, _, _, _, _, rfl⟩

theorem busyStep_inv {s : State} (n : Nat) (h : Invariant s) : Invariant (busyStep n s) := by
  obtain ⟨pin, es, ts, as, d, hs⟩ := busyStep_moves n s
  rw [hs]
  exact h.port _ s.recovery _ _ _ _ _

/-- A step of reset recovery keeps the invariant (R128): DONE and IE can only fall. -/
theorem recoveryStep_inv {s : State} (n : Nat) (h : Invariant s) : Invariant (recoveryStep n s) := by
  have hs : Invariant (settle n { s with recovery := n }) := settle_inv (h.port _ _ _ _ _ _ _)
  unfold recoveryStep
  simp only
  split
  · exact hs
  · exact hs.port _ _ _ _ _ _ _
  · exact hs
  · split
    · exact hs.port _ _ _ _ _ _ _
    · exact hs
  · exact hs.port _ _ _ _ _ _ _

/-- A step under reset that answers a next state keeps the invariant (R128). -/
theorem lowStep_inv {s t : State} (h : Invariant s) (hs : lowStep s = .next t) : Invariant t := by
  unfold lowStep at hs
  split at hs
  · cases hs; exact h
  · cases hs; exact h.port _ _ _ _ _ _ _
  · cases hs; exact h.port _ _ _ _ _ _ _
  · cases hs
    split
    · exact h.port _ _ _ _ _ _ _
    · exact h
  · cases hs; exact h.port _ _ _ _ _ _ _
  · split at hs
    · cases hs; exact hardReset_inv (h.port _ _ _ _ _ _ _)
    · cases hs

/-! ### What the output commands do not read (R38) -/

/-- A change that no output command sees and both completions pass on goes through the whole command (R113, R114). -/
theorem Aside.exec_next {φ : State → State} (h : Aside φ) {i : Instr}
    (hi : i ∈ [Instr.encode, .encpack, .pack, .unpack, .decode, .decompress])
    (hok : ∀ s, completeOk (φ s) = φ (completeOk s))
    (hraise : ∀ b r s, raiseError b r (φ s) = φ (raiseError b r s)) (s : State) :
    ∃ t, exec i s = .next t ∧ exec i (φ s) = .next (φ t) := by
  rw [exec_eq, exec_eq, h.runOf hi]
  cases Machine.runOf i s with
  | ok t => exact ⟨_, rfl, congrArg _ (hok t)⟩
  | raised r t => exact ⟨_, rfl, congrArg _ (hraise _ r t)⟩

/-- FREQ, NODE, ROOT, NSYM, MAXLEN and the two flags replaced: all tables but CODE. -/
def withTree (f : Freqs) (n : Nodes) (r : NodeIdx) (k : BitVec 9) (l : Byte) (fv tv : Bool) (s : State) : State :=
  { s with freq := f, node := n, root := r, nsym := k, maxLen := l, freqValid := fv, treeValid := tv }

theorem aside_tree (f : Freqs) (n : Nodes) (r : NodeIdx) (k : BitVec 9) (l : Byte) (fv tv : Bool) :
    Aside (withTree f n r k l fv tv) :=
  ⟨fun _ => rfl, fun _ => rfl, fun _ => rfl, fun _ => rfl, fun _ => rfl, fun _ => rfl, fun _ => rfl, fun _ _ => rfl,
    fun _ _ _ _ => rfl⟩

/-! ### STATUS while a command runs (R22) -/

theorem lenOk_iff {s : State} : lenOk s = true ↔ s.inLen.toNat ≤ s.params.ibufSize := decide_eq_true_iff

/-- The flags a single output command's run leaves. -/
theorem OutputRun.flags {s : State} {codes : List ErrCode} {m : Run State} (h : OutputRun s codes m) :
    m.left.freqValid = s.freqValid ∧ m.left.treeValid = s.treeValid := by
  cases hr : m with
  | ok t => obtain ⟨o, b, p, -, -, rfl⟩ := h.ends t hr; exact ⟨rfl, rfl⟩
  | raised r t => obtain ⟨-, o, rfl⟩ := h.raised r t hr; exact ⟨rfl, rfl⟩

/-- The flags a command's run leaves are among those it found or writes (R22, R78, R80, R104, R105). -/
theorem runOf_flags (i : Instr) (s : State) :
    (runOf i s).left.freqValid ∈ s.freqValid :: freqValidWrites i s ∧
      (runOf i s).left.treeValid ∈ s.treeValid :: treeValidWrites i s := by
  have hout : ∀ i ∈ [Instr.encode, .encpack, .pack, .unpack, .decode, .decompress],
      (runOf i s).left.freqValid ∈ s.freqValid :: freqValidWrites i s ∧
        (runOf i s).left.treeValid ∈ s.treeValid :: treeValidWrites i s := by
    intro i hi
    obtain ⟨hf, ht⟩ := (runOf_output hi s).flags
    rw [hf, ht]
    exact ⟨List.mem_cons_self, List.mem_cons_self⟩
  have hcomp : ∀ i ∈ [Instr.compress, .encodeOnly],
      (runOf i s).left.freqValid ∈ s.freqValid :: (if lenOk s then [true] else []) ∧
        (runOf i s).left.treeValid ∈
          s.treeValid :: (if lenOk s then (if s.inLen.toNat = 0 then [false] else [false, true]) else []) := by
    intro i hi
    rcases runOf_composite hi s with ⟨-, h⟩ | ⟨h0, h⟩ | ⟨h0, h1, h⟩
    · rw [h]; exact ⟨List.mem_cons_self, List.mem_cons_self⟩
    · have hlen : lenOk s = true := lenOk_iff.mpr (by omega)
      rw [h, if_pos hlen, if_pos hlen, if_pos h0]
      simp [Run.left]
    · obtain ⟨hf, ht⟩ := h.flags
      have hlen : lenOk s = true := lenOk_iff.mpr h1
      rw [hf, ht, if_pos hlen, if_pos hlen, if_neg (by omega)]
      simp [staged, stagedWith]
  cases i with
  | nop => exact ⟨List.mem_cons_self, List.mem_cons_self⟩
  | reserved w => exact ⟨List.mem_cons_self, List.mem_cons_self⟩
  | analyze =>
    by_cases h : s.inLen.toNat ≤ s.params.ibufSize
    · rw [runOf, runAnalyze_ok h, freqValidWrites, treeValidWrites, lenOk_iff.mpr h]
      simp [Run.left, tabulate]
    · rw [runOf, runAnalyze_raised (by omega)]
      exact ⟨List.mem_cons_self, List.mem_cons_self⟩
  | build =>
    rw [treeValidWrites, any_present]
    by_cases h : presentBytes s.freq = []
    · rw [runOf, runBuild_raised h]; simp [Run.left, h]
    · rw [runOf, runBuild_ok h]; simp [Run.left, h, plantTree]
  | derive =>
    cases h : s.treeValid
    · rw [runOf, runDerive_raised h]; simp [Run.left, h]
    · rw [runOf, runDerive_ok h]; simp [Run.left, h, writeCodebook]
  | compress => exact hcomp _ (by simp)
  | encodeOnly => exact hcomp _ (by simp)
  | encode => exact hout _ (by simp)
  | encpack => exact hout _ (by simp)
  | pack => exact hout _ (by simp)
  | unpack => exact hout _ (by simp)
  | decode => exact hout _ (by simp)
  | decompress => exact hout _ (by simp)

/-- The flags a command leaves are those its run left, since no completion touches them (R113, R114). -/
theorem exec_flags (i : Instr) (s : State) : ∃ t, exec i s = .next t ∧
    t.freqValid ∈ s.freqValid :: freqValidWrites i s ∧ t.treeValid ∈ s.treeValid :: treeValidWrites i s := by
  obtain ⟨hf, ht⟩ := runOf_flags i s
  rcases exec_cases i s with ⟨u, hr, -, he⟩ | ⟨r, u, hr, -, -, he⟩
  · rw [hr] at hf ht
    exact ⟨_, he, hf, ht⟩
  · rw [hr] at hf ht
    obtain ⟨-, -, -, -, hfu, htu⟩ := raiseError_kept (isOutput i) r u
    refine ⟨_, he, ?_, ?_⟩
    · rw [hfu]; exact hf
    · rw [htu]; exact ht

/-- The two open bits of a STATUS read while BUSY are admitted, and no bit stands above them (R22). -/
theorem busyStatus_flags (i : Instr) (s : State) : (busyStatus i s).toNat < 32 ∧
    (busyStatus i s).getLsbD 3 ∈ s.freqValid :: freqValidWrites i s ∧
    (busyStatus i s).getLsbD 4 ∈ s.treeValid :: treeValidWrites i s := by
  obtain ⟨-, -, -, hfv, htv, hlt⟩ := statusBits_fields true false false
    (admitted s.freqValid (freqValidWrites i s) s.draws)
    (admitted s.treeValid (treeValidWrites i s) (s.draws + 1))
  refine ⟨hlt, ?_, ?_⟩
  · rw [busyStatus, hfv]; exact admitted_mem _ _ _
  · rw [busyStatus, htv]; exact admitted_mem _ _ _

/-! ### The registers behind the port (R19 to R33) -/

theorem memRead_ctrl (s : State) : memRead s 0x004#22 = (.okay, if s.ie then 1 else 0) := by
  rw [memRead_at (g := .reg .ctrl) rfl rfl, readRegion, readReg]
  cases s.ie <;> rfl

theorem writeCtrl_ie {v : Word} (h : v.getLsbD 1 = false) (s : State) :
    writeCtrl v s = { s with ie := v.getLsbD 0 } := by
  rw [writeCtrl, h]; rfl

theorem writeCtrl_reset {v : Word} (h : v.getLsbD 1 = true) (s : State) : writeCtrl v s = softReset s := by
  rw [writeCtrl, h]; rfl

theorem writeStatus_eq (v : Word) (s : State) : writeStatus v s = { s with done := s.done && !v.getLsbD 1 } := by
  unfold writeStatus
  cases v.getLsbD 1 with
  | false => simp
  | true => simp [acknowledge]

/-! ### The interrupt output (R46, R121) -/

theorem irq_of_rstN {s : State} (h : s.rstN = true) : irq s = (s.done && s.ie) := by rw [irq, h, Bool.true_and]

theorem irq_of_done_false {s : State} (h : s.done = false) : irq s = false := by
  rw [irq, h, Bool.false_and, Bool.and_false]

/-- Every completion raises `irq` exactly when IE = 1 (R113, R114, R121). -/
theorem exec_irq (i : Instr) {s : State} (h : s.rstN = true) : ∃ t, exec i s = .next t ∧ irq t = s.ie := by
  rcases exec_cases i s with ⟨u, -, hw, he⟩ | ⟨r, u, -, hw, -, he⟩
  · refine ⟨_, he, ?_⟩
    rw [irq, completeOk_rstN, completeOk_done, completeOk_ie, hw.rstN, hw.ie, h]; rfl
  · obtain ⟨-, -, hie, hrst, -, -⟩ := raiseError_kept (isOutput i) r u
    refine ⟨_, he, ?_⟩
    rw [irq, hie, hrst, hw.rstN, hw.ie, h]; rfl

end Sys2Proof.Machine

namespace Sys2Proof.Settled

open Sys2Proof.Machine

/-- Settles O58: under reset, in reset recovery, while IDLE, while a command runs and at its completion. -/
theorem invariantKept : Obligations.InvariantKept := by
  intro s t h hs
  cases hrst : s.rstN with
  | false => rw [step_low hrst] at hs; exact lowStep_inv h hs
  | true =>
    cases hrec : s.recovery with
    | succ n => rw [step_recovery hrst hrec] at hs; cases hs; exact recoveryStep_inv n h
    | zero =>
      cases hph : s.phase with
      | idle => rw [step_idle hrst hrec hph] at hs; cases hs; exact idleStep_inv h hph
      | busy =>
        cases hw : s.work with
        | succ n => rw [step_busy hrst hrec hph hw] at hs; cases hs; exact busyStep_inv n h
        | zero => rw [step_command hrst hrec hph hw] at hs; exact exec_inv h hs

/-- Settles O40: a run that reaches its end is sound at its output index, which OUT_LEN then shows. -/
theorem outputSuccessFrame : Obligations.OutputSuccessFrame := by
  intro i s hi hp _
  rcases exec_cases i s with ⟨u, hr, -, he⟩ | ⟨r, u, -, -, -, he⟩
  · refine ⟨_, he, fun _ => ?_⟩
    obtain ⟨o, ho, hobuf, hout, hpad⟩ := runOf_out_ok hi hr
    rw [completeOk_outLen, completeOk_pad, completeOk_obuf, hout, hobuf, ho.toNat_outIdx hp]
    exact ⟨ho.bound, hpad, ho.beyond⟩
  · exact ⟨_, he, fun herr => by cases herr⟩

/-- Settles O43: the tree is aside of every single output command. -/
theorem decodeReadsCodeOnly : Obligations.DecodeReadsCodeOnly := by
  intro i s f n r k l fv tv hi
  refine (aside_tree f n r k l fv tv).exec_next ?_ (fun _ => rfl) (fun b _ _ => by cases b <;> rfl) s
  exact List.mem_of_mem_drop (i := 4) hi

/-- Settles O42: NOP and the reserved words only complete, and every other command clears the hidden state first. -/
theorem hiddenIndependence : Obligations.HiddenIndependence := by
  intro i s h
  cases i with
  | nop | reserved w => rfl
  | _ => rfl

/-- Settles O54: what a read shows is admitted, and so is what the command leaves. -/
theorem busyStatus : Obligations.BusyStatus := by
  intro i s
  obtain ⟨hbusy, hdone, herr⟩ := busyStatus_low i s
  obtain ⟨hlt, hfv, htv⟩ := busyStatus_flags i s
  exact ⟨hbusy, hdone, herr, hlt, hfv, htv, exec_flags i s⟩

/-- Settles O49: each offset reads its register, and STATUS is the word of its five bits. -/
theorem registerReads : Obligations.RegisterReads := by
  refine ⟨fun s hs => ⟨rfl, memRead_ctrl s, rfl, ?_, rfl, rfl, rfl, rfl, rfl, rfl, rfl, rfl, rfl, rfl, rfl, rfl⟩,
    rfl, rfl, rfl, rfl, rfl, rfl, rfl, rfl, rfl, rfl, rfl, rfl⟩
  have hbusy : decide (s.phase = .busy) = false := by rw [hs]; rfl
  obtain ⟨h0, h1, h2, h3, h4, hlt⟩ :=
    statusBits_fields (decide (s.phase = .busy)) s.done s.err s.freqValid s.treeValid
  exact ⟨statusWord s, memRead_status s, h0.trans hbusy, h1, h2, h3, h4, hlt⟩

/-- Settles O50: the three registers a host writes beside CMD. -/
theorem registerWrites : Obligations.RegisterWrites := by
  intro s v
  refine ⟨fun h => ?_, memWrite_inLen s v, ?_⟩
  · rw [memWrite_ctrl, writeCtrl_ie h]
  · rw [memWrite_status, writeStatus_eq]

/-- Settles O55: an acceptance, an acknowledge and a soft reset clear DONE, a CTRL write sets IE. -/
theorem irqFollowsDone : Obligations.IrqFollowsDone := by
  refine ⟨fun s => irq_of_rstN, fun i s => exec_irq i, fun s v => ⟨?_, fun h => ?_, fun h => ?_, fun h => ?_⟩⟩
  · rw [memWrite_cmd]; exact irq_of_done_false (accept_done v s)
  · rw [memWrite_status, writeStatus_eq, h]; exact irq_of_done_false (Bool.and_false _)
  · rw [memWrite_ctrl, writeCtrl_reset h]; exact irq_of_done_false rfl
  · rw [memWrite_ctrl, writeCtrl_ie h]; rfl

end Sys2Proof.Settled
end

section
/-! The statements about the register aperture (20_memory.md): which accesses are refused (R50 to R52), which writes
are ignored (R53), the words of the five windows (R57 to R61), and which transactions are answered at once and which
are held (R49, R54). -/

namespace Sys2Proof.Machine

/-! ### Refused and answered accesses (R48, R50 to R52) -/

theorem regionOf_eq_none {p : Params} {a : Offset} (hp : p.ibufSize ≤ 2 ^ 20) :
    regionOf p a = none ↔ ¬ Mapped p a.toNat := by
  rw [← regionOf_isSome p a hp]
  cases regionOf p a <;> simp

theorem misaligned_iff {a : Offset} : misaligned a = true ↔ a.toNat % 4 ≠ 0 := by simp [misaligned]

/-- A misaligned or unmapped read (R51, R52). -/
theorem memRead_refused {s : State} {a : Offset} (h : a.toNat % 4 ≠ 0 ∨ regionOf s.params a = none) :
    memRead s a = (.slverr, 0) := by
  rcases h with h | h
  · rw [memRead, if_pos (misaligned_iff.mpr h)]
  · rw [memRead, h, ite_self]

/-- A misaligned or unmapped write (R51, R52), whatever its strobes. -/
theorem memWrite_refused {s : State} {a : Offset} (k : BitVec 4) (v : Word)
    (h : a.toNat % 4 ≠ 0 ∨ regionOf s.params a = none) : memWrite s a k v = (.slverr, s) := by
  rcases h with h | h
  · rw [memWrite, if_pos (misaligned_iff.mpr h), ite_self]
  · rw [memWrite, h, ite_self, ite_self]

/-- A write whose strobes are not all set (R50). -/
theorem memWrite_partial (s : State) (a : Offset) {k : BitVec 4} (v : Word) (h : k ≠ 0xF#4) :
    memWrite s a k v = (.slverr, s) := by
  rw [memWrite, if_pos (bne_iff_ne.mpr h)]

/-! ### The writes that are ignored (R53) -/

/-- What ignores a write: the read-only registers and windows, and the reserved words of CODE (R53). -/
def IgnoresWrites : Region → Prop
  | .reg r => r ∉ [Reg.ctrl, .cmd, .status, .inLen]
  | .code _ w => 9 ≤ w
  | .ibuf _ => False
  | .freq _ | .nodeWeight _ | .nodeFields _ | .obuf _ => True

theorem writeCodeWord_reserved (e : CodeEntry) {w : Nat} (h : 9 ≤ w) (v : Word) : writeCodeWord e w v = e := by
  rw [writeCodeWord, if_neg (by omega), if_neg (by omega)]

theorem writeRegion_ignored {g : Region} (h : IgnoresWrites g) (v : Word) (s : State) : writeRegion v s g = s := by
  cases g with
  | reg r =>
    cases r with
    | ctrl | cmd | status | inLen => simp [IgnoresWrites] at h
    | _ => rfl
  | code b w => rw [writeRegion, writeCodeWord_reserved _ h, setCode_self]
  | ibuf i => exact h.elim
  | _ => rfl

/-- A full write of an aligned word that ignores it (R53). -/
theorem memWrite_ignored {s : State} {a : Offset} {g : Region} (hg : regionOf s.params a = some g)
    (h4 : a.toNat % 4 = 0) (h : IgnoresWrites g) (v : Word) : memWrite s a 0xF#4 v = (.okay, s) := by
  rw [memWrite_at hg h4, writeRegion_ignored h]

/-- The offsets of the read-only registers (10_state.md section 2). -/
def readOnlyRegs : List Offset :=
  [0x000#22, 0x010#22, 0x014#22, 0x018#22, 0x020#22, 0x024#22, 0x028#22, 0x02C#22, 0x030#22, 0x034#22, 0x038#22,
    0x03C#22]

/-- The offsets whose words R53 makes read-only or reserved. -/
def ReadOnly (p : Params) (a : Offset) : Prop :=
  a ∈ readOnlyRegs ∨ (0x1000 ≤ a.toNat ∧ a.toNat < 0x1400) ∨ (0x2000 ≤ a.toNat ∧ a.toNat < 0x3000) ∨
    (0x200000 ≤ a.toNat ∧ a.toNat < 0x200000 + p.obufSize) ∨
    (0x4000 ≤ a.toNat ∧ a.toNat < 0x8000 ∧ 9 ≤ a.toNat % 64 / 4)

theorem regionOf_readOnlyRegs (p : Params) {a : Offset} (h : a ∈ readOnlyRegs) :
    ∃ r, regionOf p a = some (.reg r) ∧ IgnoresWrites (.reg r) := by
  simp only [readOnlyRegs, List.mem_cons, List.not_mem_nil, or_false] at h
  rcases h with rfl | rfl | rfl | rfl | rfl | rfl | rfl | rfl | rfl | rfl | rfl | rfl <;>
    exact ⟨_, rfl, by simp [IgnoresWrites]⟩

theorem regionOf_inObuf {p : Params} {a : Offset} (hp : p.wf = true) (h : 0x200000 ≤ a.toNat)
    (h' : a.toNat < 0x200000 + p.obufSize) : ∃ i, regionOf p a = some (.obuf i) := by
  obtain ⟨hib, hob, -, -⟩ := sizes_of_wf hp
  obtain ⟨i, hi⟩ := Nat.exists_eq_add_of_le h
  refine ⟨i, ?_⟩
  rw [← ofNat_toNat_offset a, hi]
  exact regionOf_obuf (by omega) hob hib

theorem regionOf_readOnly {p : Params} {a : Offset} (hp : p.wf = true) (h4 : a.toNat % 4 = 0) (h : ReadOnly p a) :
    ∃ g, regionOf p a = some g ∧ IgnoresWrites g := by
  rcases h with h | ⟨hl, hu⟩ | ⟨hl, hu⟩ | ⟨hl, hu⟩ | ⟨hl, hu, hw⟩
  · obtain ⟨r, hr, hi⟩ := regionOf_readOnlyRegs p h
    exact ⟨_, hr, hi⟩
  · obtain ⟨b, hb⟩ := regionOf_inFreq p hl hu h4
    exact ⟨_, hb, trivial⟩
  · obtain ⟨j, ⟨-, hj⟩ | ⟨-, hj⟩⟩ := regionOf_inNode p hl hu h4
    · exact ⟨_, hj, trivial⟩
    · exact ⟨_, hj, trivial⟩
  · obtain ⟨i, hi⟩ := regionOf_inObuf hp hl hu
    exact ⟨_, hi, trivial⟩
  · obtain ⟨b, hb⟩ := regionOf_inCode p hl hu h4
    exact ⟨_, hb, hw⟩

/-! ### The reserved bits (R53) -/

/-- A register narrower than the bus word reads 0 above its width. -/
theorem setWidth_and_mask {n : Nat} (x : BitVec n) (hn : n ≤ 32) {m : Word}
    (hm : ∀ k, k < n → m.getLsbD k = false) : x.setWidth 32 &&& m = 0 := by
  refine and_mask_of_lt (n := n) ?_ hm
  rw [BitVec.toNat_setWidth_of_le hn]
  exact x.isLt

theorem errCode_and_mask (c : ErrCode) : BitVec.ofNat 32 c.number &&& 0xFFFFFF00#32 = 0 := by
  cases c <;> rfl

/-- A bit of a field that is 0. -/
theorem getLsbD_of_field_zero {v : Word} {i n k : Nat} (h : v.extractLsb' i n = 0) (hi : i ≤ k) (hk : k < i + n) :
    v.getLsbD k = false := by
  have hb := congrArg (BitVec.getLsbD · (k - i)) h
  simpa [BitVec.getLsbD_extractLsb', show k - i < n by omega, show i + (k - i) = k by omega] using hb

/-- Bits 29:26 of word 1 of a NODE entry are reserved (R58). -/
theorem nodeWord_and_mask (e : NodeEntry) : nodeWord e &&& 0x3C000000#32 = 0 := by
  obtain ⟨-, -, hz, -⟩ := nodeWord_fields e
  refine and_eq_zero_of fun k hk hm => ?_
  have hrange : ∀ k, k < 32 → (0x3C000000#32 : Word).getLsbD k = true → 26 ≤ k ∧ k < 26 + 4 := by decide
  obtain ⟨hl, hu⟩ := hrange k hk hm
  exact getLsbD_of_field_zero hz hl hu

/-- Bits 31:16 and 7:1 of word 0 of a CODE entry are reserved (R59). -/
theorem codeWord_and_mask (e : CodeEntry) : codeWord e 0 &&& 0xFFFF00FE#32 = 0 := by
  obtain ⟨-, -, hlow, hhigh⟩ := codeWord_zero e
  refine and_eq_zero_of fun k hk hm => ?_
  have hrange : ∀ k, k < 32 → (0xFFFF00FE#32 : Word).getLsbD k = true →
      (1 ≤ k ∧ k < 1 + 7) ∨ (16 ≤ k ∧ k < 16 + 16) := by decide
  rcases hrange k hk hm with ⟨hl, hu⟩ | ⟨hl, hu⟩
  · exact getLsbD_of_field_zero hlow hl hu
  · exact getLsbD_of_field_zero hhigh hl hu

theorem codeWord_reserved (e : CodeEntry) {w : Nat} (h : 9 ≤ w) : codeWord e w = 0 := by
  rw [codeWord, if_neg (by omega), if_neg (by omega)]

/-! ### The words of the windows (R57 to R61) -/

theorem memRead_ibuf {s : State} {k : Nat} (hp : s.params.wf = true) (hk : 4 * k < s.params.ibufSize) :
    memRead s (BitVec.ofNat 22 (0x100000 + 4 * k)) = (.okay, bufferWord s.ibuf (4 * k)) :=
  memRead_region (regionOf_ibuf hk (sizes_of_wf hp).1) (by omega)

theorem memWrite_ibuf {s : State} {k : Nat} (hp : s.params.wf = true) (hk : 4 * k < s.params.ibufSize) (v : Word) :
    memWrite s (BitVec.ofNat 22 (0x100000 + 4 * k)) 0xF#4 v =
      (.okay, { s with ibuf := s.ibuf.writeAll (4 * k) (wordBytes v) }) :=
  memWrite_region (regionOf_ibuf hk (sizes_of_wf hp).1) (by omega)

/-- The bytes of a word, after it is written to a buffer (R60, R62). -/
theorem Memory.read_writeWord (m : Memory) (i : Nat) (v : Word) :
    (m.writeAll i (wordBytes v)).read i = v.extractLsb' 0 8 ∧
      (m.writeAll i (wordBytes v)).read (i + 1) = v.extractLsb' 8 8 ∧
      (m.writeAll i (wordBytes v)).read (i + 2) = v.extractLsb' 16 8 ∧
      (m.writeAll i (wordBytes v)).read (i + 3) = v.extractLsb' 24 8 := by
  have h := fun k (hk : k < 4) => Memory.read_writeAll_mem (wordBytes v) m i k hk
  exact ⟨h 0 (by decide), h 1 (by decide), h 2 (by decide), h 3 (by decide)⟩

theorem memRead_code (s : State) (b : Byte) {w : Nat} (hw : w < 16) :
    memRead s (BitVec.ofNat 22 (0x4000 + 64 * b.toNat + 4 * w)) = (.okay, codeWord (codeAt s.code b) w) :=
  memRead_region (regionOf_code s.params b hw) (by omega)

theorem memWrite_code (s : State) (b : Byte) {w : Nat} (hw : w < 16) (v : Word) :
    memWrite s (BitVec.ofNat 22 (0x4000 + 64 * b.toNat + 4 * w)) 0xF#4 v =
      (.okay, { s with code := setCode s.code b (writeCodeWord (codeAt s.code b) w v) }) :=
  memWrite_region (regionOf_code s.params b hw) (by omega)

/-- A write of word `w` of an entry changes that entry by `writeCodeWord`, and no other entry and no other part of the
state (R59). -/
theorem memWrite_code_spec (s : State) (b : Byte) {w : Nat} (hw : w < 16) (v : Word) :
    ∃ t : State, memWrite s (BitVec.ofNat 22 (0x4000 + 64 * b.toNat + 4 * w)) 0xF#4 v = (.okay, t) ∧
      t = { s with code := t.code } ∧ codeAt t.code b = writeCodeWord (codeAt s.code b) w v ∧
      ∀ d, d ≠ b → codeAt t.code d = codeAt s.code d :=
  ⟨_, memWrite_code s b hw v, rfl, codeAt_setCode_same _ _ _, fun _ hd => codeAt_setCode_other _ _ hd⟩

/-! ### The hold (R49, R54) -/

theorem isStatusRead_eq_false {x : Transaction} : isStatusRead x = false ↔ x ≠ .read 0x00C#22 := by
  cases x with
  | read a => rw [isStatusRead, decide_eq_false_iff_not, Ne, Transaction.read.injEq, statusOffset]
  | write a k v => simp [isStatusRead]

theorem idleStep_nothing {s : State} (h : s.held = []) (h' : s.input = []) : idleStep s = s := by
  simp only [idleStep, h, h']

/-- A transaction that arrives while a command runs is held (R54). -/
theorem busyStep_hold {s : State} {x : Transaction} {es : List HostEvent} (n : Nat) (h : s.input = .issue x :: es)
    (hx : isStatusRead x = false) :
    busyStep n s = { s with work := n, held := s.held ++ [x], input := es } := by
  simp only [busyStep, h, hx]; rfl

/-- A STATUS read that arrives while a command runs is answered (R22, R54). -/
theorem busyStep_status {s : State} {es : List HostEvent} (n : Nat) (h : s.input = .issue (.read 0x00C#22) :: es) :
    busyStep n s = answerBusyStatus (withInput es { s with work := n }) := by
  simp only [busyStep, h]; rfl

/-- A poll of STATUS while a command runs (R22, R54, R76). -/
theorem busyStep_poll {s : State} {m v : Word} {es : List HostEvent} (n : Nat)
    (h : s.input = .poll 0x00C#22 m v :: es) :
    busyStep n s =
      pollStep m v (busyStatus (decodeWord s.cmd) s) es (answerBusyStatus { s with work := n }) := by
  simp only [busyStep, h]; rfl

theorem HeldQuiet.of_idle {s : State} (h : s.phase = .idle) : HeldQuiet s := by
  intro _ hb; rw [h] at hb; cases hb

theorem HeldQuiet.of_low {s : State} (h : s.rstN = false) : HeldQuiet s := by
  intro hr; rw [h] at hr; cases hr

/-- A step while IDLE leaves no STATUS read held behind a command it starts (R54). -/
theorem idleStep_quiet {s : State} (hr : s.recovery = 0) (hp : s.phase = .idle) : HeldQuiet (idleStep s) := by
  unfold idleStep
  split
  · exact release_quiet hr
  rename_i hh
  split
  · exact .of_idle hp
  · exact transact_quiet hr hh
  · refine .of_idle ?_
    unfold pollStep
    split <;> exact hp
  · exact .of_idle hp
  · exact .of_idle hp

/-- While a command runs, only transactions that are no STATUS reads join the held ones (R54). -/
theorem busyStep_held (n : Nat) (s : State) : (busyStep n s).recovery = s.recovery ∧
    ∀ x ∈ (busyStep n s).held, x ∈ s.held ∨ isStatusRead x = false := by
  unfold busyStep
  simp only
  split
  · exact ⟨rfl, fun _ => .inl⟩
  · split
    · exact ⟨rfl, fun _ => .inl⟩
    · rename_i hx
      refine ⟨rfl, fun y hy => ?_⟩
      rcases List.mem_append.mp hy with hy | hy
      · exact .inl hy
      · rw [List.mem_singleton.mp hy]; exact .inr (by simpa using hx)
  · unfold pollStep
    split
    · split <;> exact ⟨rfl, fun _ => .inl⟩
    · exact ⟨rfl, fun _ => .inl⟩
  · split <;> exact ⟨rfl, fun _ => .inl⟩
  · exact ⟨rfl, fun _ => .inl⟩

/-- A step under reset leaves the pin low, or it resets the block (R128). -/
theorem lowStep_quiet {s t : State} (h : s.rstN = false) (hs : lowStep s = .next t) : HeldQuiet t := by
  unfold lowStep at hs
  split at hs
  · cases hs; exact .of_low h
  · cases hs; exact .of_low h
  · cases hs; exact .of_low h
  · cases hs; split <;> exact .of_low h
  · cases hs; exact .of_low h
  · split at hs
    · cases hs; exact .of_idle rfl
    · cases hs

/-- Every step leaves no STATUS read held while a command runs (R54, R128). -/
theorem step_quiet {s t : State} (h : HeldQuiet s) (hs : step s = .next t) : HeldQuiet t := by
  cases hrst : s.rstN with
  | false => rw [step_low hrst] at hs; exact lowStep_quiet hrst hs
  | true =>
    cases hph : s.phase with
    | idle =>
      cases hrec : s.recovery with
      | zero => rw [step_idle hrst hrec hph] at hs; cases hs; exact idleStep_quiet hrec hph
      | succ n =>
        rw [step_recovery hrst hrec] at hs; cases hs
        obtain ⟨_, _, _, _, _, _, hn, -⟩ := recoveryStep_spec n s
        rw [hn]; exact .of_idle hph
    | busy =>
      obtain ⟨hrec, hheld⟩ := h hrst hph
      cases hw : s.work with
      | zero =>
        rw [step_command hrst hrec hph hw] at hs
        obtain ⟨u, hu, hidle, -⟩ := exec_idle (decodeWord s.cmd) s
        rw [hu] at hs; cases hs; exact .of_idle hidle
      | succ n =>
        rw [step_busy hrst hrec hph hw] at hs; cases hs
        obtain ⟨hr, hx⟩ := busyStep_held n s
        exact fun _ _ => ⟨hr.trans hrec, fun x hm => (hx x hm).elim (hheld x) id⟩

end Sys2Proof.Machine

namespace Sys2Proof.Settled

open Sys2Proof.Machine

/-- Settles O44: an aligned offset is unmapped exactly where no region stands. -/
theorem refusedAccesses : Obligations.RefusedAccesses := by
  intro s a hp
  have hib := (sizes_of_wf hp).1
  refine ⟨fun h => ?_, fun h => ?_, fun k v => memWrite_partial s a v⟩
  · have hr : a.toNat % 4 ≠ 0 ∨ regionOf s.params a = none := h.imp_right (regionOf_eq_none hib).mpr
    exact ⟨memRead_refused hr, fun k v => memWrite_refused k v hr⟩
  · obtain ⟨h4, hm⟩ := not_or.mp h
    obtain ⟨g, hg⟩ := (regionOf_isSome s.params a hib).mpr (not_not.mp hm)
    rw [memRead_at hg (not_not.mp h4)]
    exact ⟨rfl, fun v => by rw [memWrite_at hg (not_not.mp h4)]⟩

/-- Settles O45: the regions that ignore a write, and the width of each register and field. -/
theorem readOnlyWrites : Obligations.ReadOnlyWrites := by
  intro s a v hp h4
  refine ⟨fun h => ?_, ?_, ?_, ?_, errCode_and_mask s.errCode, setWidth_and_mask s.pad (by decide) (by decide),
    setWidth_and_mask s.nsym (by decide) (by decide), setWidth_and_mask s.root (by decide) (by decide),
    setWidth_and_mask s.maxLen (by decide) (by decide), fun hl hu h8 => ?_, fun hl hu h64 => ?_, fun hl hu hw => ?_⟩
  · obtain ⟨g, hg, hi⟩ := regionOf_readOnly hp h4 h
    exact memWrite_ignored hg h4 hi v
  · rw [memWrite_status, writeStatus_eq]
  · rw [memRead_ctrl]; cases s.ie <;> rfl
  · obtain ⟨-, -, -, -, -, hlt⟩ :=
      statusBits_fields (decide (s.phase = .busy)) s.done s.err s.freqValid s.treeValid
    exact and_mask_of_lt (n := 5) hlt (by decide)
  · obtain ⟨j, ⟨h0, -⟩ | ⟨-, hj⟩⟩ := regionOf_inNode s.params hl hu h4
    · omega
    · rw [memRead_at hj h4]; exact nodeWord_and_mask _
  · obtain ⟨b, hb⟩ := regionOf_inCode s.params hl hu h4
    rw [h64] at hb
    rw [memRead_at hb h4]; exact codeWord_and_mask _
  · obtain ⟨b, hb⟩ := regionOf_inCode s.params hl hu h4
    rw [memRead_at hb h4, readRegion, codeWord_reserved _ hw]

/-- Settles O46: each window's region, its word's fields, and the write it ignores. -/
theorem readOnlyWindows : Obligations.ReadOnlyWindows := by
  intro s hp
  refine ⟨fun b => ?_, fun j => ?_, fun k hk => ?_⟩
  · have hb := regionOf_freq s.params b
    exact ⟨memRead_region hb (by omega), fun v => memWrite_region hb (by omega)⟩
  · obtain ⟨hw, hf⟩ := regionOf_node s.params j
    exact ⟨fun v => ⟨memWrite_region hw (by omega), memWrite_region hf (by omega)⟩, memRead_region hw (by omega),
      _, memRead_region hf (by omega), nodeWord_fields _⟩
  · obtain ⟨hib, hob, -, -⟩ := sizes_of_wf hp
    have hk' := regionOf_obuf hk hob hib
    exact ⟨fun v => memWrite_region hk' (by omega), _, memRead_region hk' (by omega), bufferWord_bytes _ _⟩

/-- Settles O47: the four bytes of the word, read after the write. -/
theorem ibufWindow : Obligations.IbufWindow := by
  intro s k hp hk
  refine ⟨⟨_, memRead_ibuf hp hk, bufferWord_bytes _ _⟩, fun v => ?_⟩
  obtain ⟨h0, h1, h2, h3⟩ := Memory.read_writeWord s.ibuf (4 * k) v
  refine ⟨_, memWrite_ibuf hp hk v, rfl, h0, h1, h2, h3, Memory.read_writeAll_outside (wordBytes v) s.ibuf (4 * k), ?_⟩
  have hr := memRead_ibuf (s := { s with ibuf := s.ibuf.writeAll (4 * k) (wordBytes v) }) hp hk
  rwa [wordBytes_bufferWord h0 h1 h2 h3] at hr

/-- Settles O48: word 0, the reserved words, and the words of BITS. -/
theorem codeWindow : Obligations.CodeWindow := by
  intro s b v
  refine ⟨⟨_, memRead_code s b (w := 0) (by decide), codeWord_zero _⟩, fun w h9 h15 => ⟨?_, ?_⟩,
    memWrite_code_spec s b (w := 0) (by decide) v,
    fun w h1 h8 => ⟨⟨_, memRead_code s b (by omega), fun t ht => codeWord_symbols _ h1 h8 ht⟩, ?_⟩⟩
  · rw [memRead_code s b (by omega), codeWord_reserved _ h9]
  · exact memWrite_ignored (regionOf_code s.params b (by omega)) (by rw [toNat_offset (by omega)]; omega) h9 v
  · obtain ⟨t, ht, hs, hb, hd⟩ := memWrite_code_spec s b (show w < 16 by omega) v
    obtain ⟨hv, hl⟩ := writeCodeWord_kept (codeAt s.code b) h1 v
    rw [← hb] at hv hl
    refine ⟨t, ht, hs, hv, hl, fun k hk => ?_, fun k hk hne => ?_, hd⟩
    · rw [hb, symbolAt_writeCodeWord _ h1 h8 v (by omega), if_pos (by omega)]
      congr 2; omega
    · rw [hb, symbolAt_writeCodeWord _ h1 h8 v hk, if_neg hne]

/-- Settles O53: what a step does with an arriving, a polled and a held transaction, and `step_quiet`. -/
theorem holdWhileBusy : Obligations.HoldWhileBusy := by
  refine ⟨fun s hrst hrec hp hh => ⟨fun hi => ?_, fun es => ⟨fun a hi => ?_, fun a k v hi => ?_, fun a m v hi => ?_⟩⟩,
    fun s n es hrst hrec hp hw => ⟨fun x hi hx => ?_, fun hi => ?_, fun m v hi => ?_⟩,
    fun s ts hrst hrec hp => ⟨fun a hh => ?_, fun a k v hh hx => ?_⟩, fun s t => step_quiet⟩
  · rw [step_idle hrst hrec hp, idleStep_nothing hh hi]
  · rw [step_idle hrst hrec hp, idleStep_issue hh hi]; rfl
  · rw [step_idle hrst hrec hp, idleStep_issue hh hi, transact_write]; rfl
  · rw [step_idle hrst hrec hp, idleStep_poll hh hi, pollStep]
    split <;> rfl
  · rw [step_busy hrst hrec hp hw, busyStep_hold n hi (isStatusRead_eq_false.mpr hx)]
  · rw [step_busy hrst hrec hp hw, busyStep_status n hi]; exact ⟨_, rfl⟩
  · rw [step_busy hrst hrec hp hw, busyStep_poll n hi, pollStep]
    split <;> exact ⟨_, rfl⟩
  · rw [step_idle hrst hrec hp, idleStep_held hh, release_alone (fun w hw => by cases hw) hp]; rfl
  · rw [step_idle hrst hrec hp, idleStep_held hh, release_alone ?_ hp, transact_write]
    rintro w ⟨⟩
    exact hx ⟨rfl, rfl⟩

end Sys2Proof.Settled
end

section
/-! The statements about the encoding (30_encoding.md): the command words (R70, R71, R74), the length check (R73), what
each command leaves (R72), and the lines LOADIN, SETCODE and RUN of a host script (R76, R77). -/

namespace Sys2Proof.Machine

/-! ### The command words (R70, R71, R74) -/

/-- The word of a well-formed instruction stands for it, by the round trip of its constructor. -/
theorem decodeWord_encode {i : Instr} (h : i.wf = true) : decodeWord (encode i) = i := by
  cases i with
  | reserved w => exact Laws.RoundTrip.reserved w h
  | _ => rfl

/-- Every word is the word of the well-formed instruction it decodes to. -/
theorem encode_decodeWord (w : Word) : (decodeWord w).wf = true ∧ encode (decodeWord w) = w := by
  rcases decodeWord_cases w with ⟨-, -, hencode, hwf⟩ | ⟨hw, hres⟩
  · exact ⟨hwf, hencode⟩
  · rw [hres]; exact ⟨decide_eq_true hw, rfl⟩

/-! ### The length check (R73) -/

/-- A run that begins with CheckLen raises there when IN_LEN exceeds IBUF_SIZE. -/
theorem require_lenFault_raised {s : State} (h : s.params.ibufSize < s.inLen.toNat) (f : State → Run State) :
    (require (lenFault s) (clearHidden s)).bind f =
      .raised { code := .lenRange, index := 0, value := s.inLen } (clearHidden s) := by
  rw [lenFault_some h, require_some, Run.bind_raised]

/-- Every output command checks the length first, a composite one in its ANALYZE stage (R73, R104, R105). -/
theorem runOf_output_long {i : Instr} (hi : isOutput i = true) {s : State} (h : s.params.ibufSize < s.inLen.toNat) :
    runOf i s = .raised { code := .lenRange, index := 0, value := s.inLen } (clearHidden s) := by
  cases i with
  | nop | analyze | build | derive | reserved w => cases hi
  | compress => rw [runOf, runCompress, runCodebookStages_long h, Run.bind_raised]
  | encodeOnly => rw [runOf, runEncodeOnly, runCodebookStages_long h, Run.bind_raised]
  | _ => exact require_lenFault_raised h _

/-! ### What the commands leave (R72) -/

/-- The single output commands write no table and no flag. -/
theorem exec_output_tables {i : Instr} (hi : i ∈ [Instr.encode, .encpack, .pack, .unpack, .decode, .decompress])
    (s : State) : ∃ t, exec i s = .next t ∧
      t.freq = s.freq ∧ t.node = s.node ∧ t.code = s.code ∧ t.nsym = s.nsym ∧ t.root = s.root ∧ t.maxLen = s.maxLen ∧ t.freqValid = s.freqValid ∧ t.treeValid = s.treeValid := by
  have hout : isOutput i = true := by revert i; decide
  cases hr : runOf i s with
  | ok t =>
    obtain ⟨o, bitLen, pad, -, -, rfl⟩ := (runOf_output hi s).ends t hr
    exact ⟨_, exec_ok hr, rfl, rfl, rfl, rfl, rfl, rfl, rfl, rfl⟩
  | raised r t =>
    obtain ⟨-, o, rfl⟩ := (runOf_output hi s).raised r t hr
    exact ⟨_, exec_output_raised hout hr, rfl, rfl, rfl, rfl, rfl, rfl, rfl, rfl⟩

/-- A command that is no output command ends in what its run left, but for the completion state and the error record
(R113, R114). -/
theorem exec_plain {i : Instr} (hi : isOutput i = false) (s : State) :
    ∃ code index value err, exec i s = .next { (runOf i s).left with
      errCode := code, errIndex := index, errValue := value, err := err
      done := true, phase := .idle, hidden := Hidden.empty } := by
  cases hr : runOf i s with
  | ok t => exact ⟨_, _, _, _, exec_ok hr⟩
  | raised r t => exact ⟨_, _, _, _, by rw [exec_raised hr, hi]; rfl⟩

theorem runAnalyze_left (s : State) : (runAnalyze s).left.node = s.node ∧ (runAnalyze s).left.root = s.root ∧
    (runAnalyze s).left.code = s.code ∧ (runAnalyze s).left.maxLen = s.maxLen := by
  by_cases h : s.inLen.toNat ≤ s.params.ibufSize
  · rw [runAnalyze_ok h]; exact ⟨rfl, rfl, rfl, rfl⟩
  · rw [runAnalyze_raised (Nat.lt_of_not_le h)]; exact ⟨rfl, rfl, rfl, rfl⟩

theorem runBuild_left (s : State) : (runBuild s).left.freq = s.freq ∧ (runBuild s).left.nsym = s.nsym ∧
    (runBuild s).left.code = s.code ∧ (runBuild s).left.maxLen = s.maxLen ∧
      (runBuild s).left.freqValid = s.freqValid := by
  by_cases h : presentBytes s.freq = []
  · rw [runBuild_raised h]; exact ⟨rfl, rfl, rfl, rfl, rfl⟩
  · rw [runBuild_ok h]; exact ⟨rfl, rfl, rfl, rfl, rfl⟩

theorem runDerive_left (s : State) : (runDerive s).left.freq = s.freq ∧ (runDerive s).left.nsym = s.nsym ∧
    (runDerive s).left.node = s.node ∧ (runDerive s).left.root = s.root ∧
      (runDerive s).left.freqValid = s.freqValid ∧ (runDerive s).left.treeValid = s.treeValid := by
  cases h : s.treeValid with
  | false => rw [runDerive_raised h]; exact ⟨rfl, rfl, rfl, rfl, rfl, h⟩
  | true => rw [runDerive_ok h]; exact ⟨rfl, rfl, rfl, rfl, rfl, h⟩

/-- No command moves the pins, the bus or CMD (R15, R72). -/
theorem exec_keeps_port {i : Instr} {s t : State} (h : exec i s = .next t) :
    t.rstN = s.rstN ∧ t.recovery = s.recovery ∧ t.held = s.held ∧ t.cmd = s.cmd := by
  rcases exec_cases i s with ⟨u, -, hw, he⟩ | ⟨r, u, -, hw, -, he⟩
  · obtain rfl : completeOk u = t := by simpa [he] using h
    rw [hw]; exact ⟨rfl, rfl, rfl, rfl⟩
  · obtain rfl : raiseError (isOutput i) r u = t := by simpa [he] using h
    rw [hw]; cases isOutput i <;> exact ⟨rfl, rfl, rfl, rfl⟩

/-! ### LOADIN and SETCODE (R77) -/

/-- The words LOADIN writes. -/
def loadinWords (m : List Byte) : List (Nat × Word) :=
  (List.range ((m.length + 3) / 4)).map fun k => (k, loadinWord m k)

/-- The lines of LOADIN write the words of the message, then its length. -/
theorem runSteps_loadin {s : State} {m : List Byte} {es : List HostEvent} (h1 : s.rstN = true) (h2 : s.recovery = 0)
    (h3 : s.phase = .idle) (h4 : s.held = []) (hwf : s.params.wf = true) (hm : m.length ≤ s.params.ibufSize)
    (h5 : s.input = scriptLoadin m ++ es) :
    ∃ k as, runSteps k s = .next { s with
      ibuf := writeWords s.ibuf (loadinWords m), inLen := BitVec.ofNat 32 m.length, input := es, answers := as } := by
  rw [scriptLoadin_eq, ← loadinWords, List.append_assoc] at h5
  have hin : ∀ p ∈ loadinWords m, 4 * p.1 < s.params.ibufSize := by
    intro p hp
    obtain ⟨k, hk, rfl⟩ := List.mem_map.mp hp
    have hk := List.mem_range.mp hk
    dsimp only
    omega
  obtain ⟨as, hwords⟩ := runSteps_ibufWords _ h1 h2 h3 h4 hwf hin h5 (2 + 0)
  have hlen := runSteps_wr (s := { s with
      ibuf := writeWords s.ibuf (loadinWords m), answers := as
      input := scriptWr 0x01C#22 (BitVec.ofNat 32 m.length) ++ es })
    h1 h2 h3 h4 rfl (memWrite_inLen _ _) h1 h2 h3 h4 rfl 0
  exact ⟨_, _, hwords.trans hlen⟩

/-- The message in a buffer that holds it from index 0 on, under its length (R39). -/
theorem message_of_bytes {s : State} {m : List Byte} (hlen : s.inLen.toNat = m.length)
    (hread : ∀ a, a < m.length → s.ibuf.read a = m.getD a 0) : message s = m := by
  refine List.ext_getElem (by rw [length_message, hlen]) fun a _ ha => ?_
  simp only [message, List.getElem_map, List.getElem_range]
  rw [hread a ha, List.getD_eq_getElem _ _ ha]

/-- The lines of SETCODE write the words of the code into the byte's entry. -/
theorem runSteps_setcode {s : State} {b : Byte} {e : Bits} {es : List HostEvent} (h1 : s.rstN = true)
    (h2 : s.recovery = 0) (h3 : s.phase = .idle) (h4 : s.held = []) (h5 : s.input = scriptSetcode b e ++ es) :
    ∃ k as, runSteps k s = .next { s with
      code := codeWrites b s.code (setcodeWords e), input := es, answers := as } := by
  rw [scriptSetcode_eq] at h5
  have hin : ∀ p ∈ setcodeWords e, p.1 < 16 := by
    intro p hp
    rcases List.mem_cons.mp hp with rfl | hp
    · exact Nat.succ_pos 15
    · obtain ⟨w, hw, rfl⟩ := List.mem_map.mp hp
      have hw := List.mem_range.mp hw
      dsimp only
      omega
  obtain ⟨as, hwords⟩ := runSteps_codeWords b _ h1 h2 h3 h4 hin h5 0
  exact ⟨_, as, hwords⟩

/-! ### RUN (R77) -/

/-- The poll and the acknowledge of RUN. -/
def runTail (es : List HostEvent) : List HostEvent :=
  .poll 0x00C#22 3#32 2#32 :: (scriptWr 0x00C#22 2#32 ++ es)

theorem scriptRun_eq (i : Instr) (es : List HostEvent) :
    scriptRun i ++ es = .issue (.write 0x008#22 0xF#4 (encode i)) :: .await :: runTail es := rfl

/-- The completing step takes the command's effect, whatever stands at the port (R15, R112). -/
theorem step_command_port {i : Instr} {v u : State} (h1 : v.rstN = true) (h2 : v.recovery = 0) (h3 : v.phase = .busy)
    (hwf : i.wf = true) (hcmd : v.cmd = encode i) (hu : exec i v = .next u) (es : List HostEvent)
    (ts : List Transaction) (as : List Answer) :
    step (withPort es ts as 0 v) = .next (withPort es ts as 0 u) := by
  rw [step_command (s := withPort es ts as 0 v) h1 h2 h3 rfl, show (withPort es ts as 0 v).cmd = encode i from hcmd,
    decodeWord_encode hwf]
  exact exec_port hu es ts as 0

/-- The first line of RUN: the command is accepted, runs for its free time under the host's polls, and takes its effect,
which the port has no part in (R112, R133). -/
theorem runSteps_command {s : State} {i : Instr} {es : List HostEvent} (h1 : s.rstN = true) (h2 : s.recovery = 0)
    (h3 : s.phase = .idle) (h4 : s.held = []) (hwf : i.wf = true) (h5 : s.input = scriptRun i ++ es) :
    ∃ k d inp as u, exec i { accept (encode i) s with draws := d } = .next u ∧
      runSteps k s = .next (withPort inp s.held as 0 u) ∧ (inp = .await :: runTail es ∨ inp = runTail es) := by
  rw [scriptRun_eq] at h5
  have hcmd := (step_idle h1 h2 h3).trans (congrArg _ ((idleStep_issue h4 h5).trans (transact_cmd _ _)))
  obtain ⟨inp, as, d, hpolls, hinp⟩ := busy_polls _ (es := scriptWr 0x00C#22 2#32 ++ es)
    (s := record _ .okay 0 (accept (encode i) (withInput (.await :: runTail es) s))) h1 h2 rfl h4 rfl (.inl rfl)
  obtain ⟨u, hu, -, -⟩ := exec_idle i { accept (encode i) s with draws := d }
  have hend := step_command_port (v := { accept (encode i) s with draws := d }) h1 h2 rfl hwf rfl hu
    inp s.held as
  exact ⟨_, d, inp, as, u, hu, (runSteps_cons hcmd _).trans ((runSteps_succ hpolls).trans hend), hinp⟩

/-- STATUS of a completed command shows DONE and no BUSY (R22, R113). -/
theorem statusWord_done {s : State} (h3 : s.phase = .idle) (hd : s.done = true) : statusWord s &&& 3#32 = 2#32 := by
  rw [statusWord, h3, hd]
  generalize s.err = e
  generalize s.freqValid = f
  generalize s.treeValid = t
  revert e f t; decide

theorem memWrite_acknowledge (s : State) : memWrite s 0x00C#22 0xF#4 2#32 = (.okay, acknowledge s) := rfl

/-- The last lines of RUN on a completed command: the poll matches, and the acknowledge clears DONE (R76, R119). -/
theorem runSteps_acknowledge {s : State} {es : List HostEvent} (h1 : s.rstN = true) (h2 : s.recovery = 0)
    (h3 : s.phase = .idle) (h4 : s.held = []) (hd : s.done = true) (h5 : s.input = runTail es) :
    ∃ as, runSteps 3 s = .next { s with done := false, input := es, answers := as } := by
  obtain ⟨as, hpoll⟩ : ∃ as, step s = .next { s with input := scriptWr 0x00C#22 2#32 ++ es, answers := as } := by
    rw [step_idle h1 h2 h3, idleStep_poll h4 h5, memRead_status, pollStep, if_pos (statusWord_done h3 hd)]
    exact ⟨_, rfl⟩
  have hack := runSteps_wr (s := { s with input := scriptWr 0x00C#22 2#32 ++ es, answers := as })
    h1 h2 h3 h4 rfl (memWrite_acknowledge _) h1 h2 h3 h4 rfl 0
  exact ⟨_, (runSteps_cons hpoll 2).trans hack⟩

/-- The wait before them, where it is still to come, is over at once. -/
theorem runSteps_runTail {s : State} {es : List HostEvent} (h1 : s.rstN = true) (h2 : s.recovery = 0)
    (h3 : s.phase = .idle) (h4 : s.held = []) (hd : s.done = true)
    (h5 : s.input = .await :: runTail es ∨ s.input = runTail es) :
    ∃ k as, runSteps k s = .next { s with done := false, input := es, answers := as } := by
  rcases h5 with h5 | h5
  · have hawait : step s = .next (withInput (runTail es) s) := by
      rw [step_idle h1 h2 h3, idleStep_await h4 h5]
    obtain ⟨as, hrun⟩ := runSteps_acknowledge (s := withInput (runTail es) s) h1 h2 h3 h4 hd rfl
    exact ⟨4, as, (runSteps_cons hawait 3).trans hrun⟩
  · exact ⟨3, runSteps_acknowledge h1 h2 h3 h4 hd h5⟩

end Sys2Proof.Machine

namespace Sys2Proof.Settled

open Sys2Proof.Machine

/-- Settles O1: the round trip from the instruction and the one from the word. -/
theorem decodeEncodeAgree : Obligations.DecodeEncodeAgree :=
  ⟨fun _ => decodeWord_encode, encode_decodeWord⟩

/-- Settles O2: the two fields say that the word's number is below 12, which the decoder splits at. -/
theorem legalWords : Obligations.LegalWords := by
  intro w
  rw [legal_iff]
  rcases decodeWord_cases w with ⟨hlt, hlegal, -, -⟩ | ⟨hge, hres⟩
  · exact ⟨iff_of_true hlt hlegal, fun h => absurd hlt h⟩
  · exact ⟨iff_of_false (Nat.not_lt.mpr hge) fun h => h w hres, fun _ => hres⟩

/-- Settles O11: the check raises first, and the completion of the command's kind records it. -/
theorem lengthCheck : Obligations.LengthCheck := by
  intro s h
  refine ⟨exec_raised (i := .analyze) (runAnalyze_raised h), fun i hi => ?_⟩
  have hout : isOutput i = true := by revert i; decide
  exact exec_output_raised (o := { obuf := s.obuf, hidden := Hidden.empty }) hout (runOf_output_long hout h)

/-- Settles O41: the frame of each run, which its completion passes on. -/
theorem commandFrames : Obligations.CommandFrames := by
  intro s
  refine ⟨fun i hi => exec_output_tables hi s, fun i hi => ?_, ?_, ?_, ?_⟩
  · obtain ⟨_, _, _, _, he⟩ := exec_plain hi s
    obtain ⟨hobuf, hout, hbit, hpad⟩ := runOf_plain hi s
    exact ⟨_, he, hout, hbit, hpad, hobuf, (draws_wrote (runOf_wrote i s)).1⟩
  · obtain ⟨_, _, _, _, he⟩ := exec_plain (i := .analyze) rfl s
    exact ⟨_, he, runAnalyze_left s⟩
  · obtain ⟨_, _, _, _, he⟩ := exec_plain (i := .build) rfl s
    exact ⟨_, he, runBuild_left s⟩
  · obtain ⟨_, _, _, _, he⟩ := exec_plain (i := .derive) rfl s
    exact ⟨_, he, runDerive_left s⟩

/-- Settles O59: the words the two scripts write, read back as the message and as the code. -/
theorem scriptLoads : Obligations.ScriptLoads := by
  intro s es h1 h2 h3 h4 hwf
  refine ⟨fun m hm h5 => ?_, fun b e he h5 => ?_⟩
  · obtain ⟨k, as, hrun⟩ := runSteps_loadin h1 h2 h3 h4 hwf hm h5
    have hread := fun a ha => loadin_bytes m s.ibuf ((m.length + 3) / 4) a ha
    have hsize := (sizes_of_wf hwf).1
    refine ⟨k, _, hrun, rfl, message_of_bytes ?_ fun a ha => hread a (by omega), fun a hm ha => ?_,
      loadin_beyond m s.ibuf _⟩
    · rw [BitVec.toNat_ofNat]; omega
    · exact (hread a ha).trans (List.getD_eq_default _ _ hm)
  · obtain ⟨k, as, hrun⟩ := runSteps_setcode h1 h2 h3 h4 h5
    obtain ⟨hvalid, hsymbols, hbeyond⟩ := setcode_entry (codeAt s.code b) e he
    rw [entryWrites, ← codeAt_codeWrites] at hvalid hsymbols hbeyond
    exact ⟨k, _, hrun, rfl, hvalid, hsymbols, hbeyond, fun d hd => codeAt_codeWrites_other hd _ _⟩

/-- Settles O60: the command runs under the host's polls, and its completion ends them. -/
theorem scriptRun : Obligations.ScriptRun := by
  intro s i es h1 h2 h3 h4 hwf h5
  obtain ⟨k, d, inp, as, u, hu, hrun, hinp⟩ := runSteps_command h1 h2 h3 h4 hwf h5
  obtain ⟨hidle, hdone⟩ : u.phase = .idle ∧ u.done = true := by
    obtain ⟨v, hv, h⟩ := exec_idle i { accept (encode i) s with draws := d }
    cases hu.symm.trans hv; exact h
  obtain ⟨hrst, hrec, -, hcmd⟩ := exec_keeps_port hu
  obtain ⟨j, as', htail⟩ := runSteps_runTail (s := withPort inp s.held as 0 u)
    (hrst.trans h1) (hrec.trans h2) hidle h4 hdone hinp
  refine ⟨k + j, d, _, u, (runSteps_add hrun j).trans htail, hu, ?_, hidle, hcmd⟩
  rw [← h4]; rfl

/-- Settles O3: the words are decoded one by one. -/
theorem sampleWords : Obligations.SampleWords := by
  unfold Obligations.SampleWords; decide

end Sys2Proof.Settled
end

section
/-! PROOFS. ANALYZE leaves the counts of its message (40_analyze.md). -/

namespace Sys2Proof.Machine

/-- ANALYZE of a message that passes its check (R78). -/
theorem exec_analyze {s : State} (h : s.inLen.toNat ≤ s.params.ibufSize) :
    exec .analyze s = .next (succeeded { s with
      freq := histogram (message s), nsym := BitVec.ofNat 9 (distinct (histogram (message s)))
      freqValid := true, treeValid := false }) := by
  rw [exec_ok (i := .analyze) (runAnalyze_ok h), tabulate_clearHidden]; rfl

end Sys2Proof.Machine

namespace Sys2Proof.Settled

open Sys2Proof.Machine

/-- Settles O12: past its check the table is the message's histogram, whose length IN_LEN is below 2^32, so no bin
overflows. -/
theorem analyzeCounts : Obligations.AnalyzeCounts := by
  refine ⟨fun s h => (lengthCheck s h).left, fun s h => ?_⟩
  have hlen := length_message_lt s
  obtain ⟨htotal, hcount⟩ := histogram_spec hlen
  refine ⟨_, _, exec_analyze h, hcount, toNat_nsym _, htotal.trans (length_message s), fun b hb => ?_, fun b hb => ?_⟩
  · rw [hcount]; exact List.count_pos_iff.mpr hb
  · exact not_not.mp (mt (histogram_ne_zero hlen).mp hb)

end Sys2Proof.Settled
end

section
/-! PROOFS. BUILD makes the Huffman tree of its table, merge by merge (41_build.md). -/

namespace Sys2Proof.Machine

theorem presentBytes_eq_nil {f : Freqs} : presentBytes f = [] ↔ ∀ b, freqAt f b = 0 := by
  rw [← not_iff_not, ← ne_eq, ← present_ne, not_forall]

/-- BUILD on an empty table (R80): NODE and ROOT are not written. -/
theorem exec_build_empty {s : State} (h : presentBytes s.freq = []) :
    exec .build s = .next (failed .emptyInput 0 0 { s with treeValid := false }) := by
  rw [exec_raised (i := .build) (runBuild_raised h)]; rfl

end Sys2Proof.Machine

namespace Sys2Proof.Settled

open Sys2Proof.Machine

/-- Settles O13: NODE and ROOT are `treeNodes` and `treeRoot` of the table, and what the merges keep gives R81. -/
theorem buildMakesHuffmanTree : Obligations.BuildMakesHuffmanTree := by
  refine ⟨fun s h => exec_build_empty (presentBytes_eq_nil.mpr h), fun f hf ht => ?_⟩
  have hp := present_ne.mp hf
  refine ⟨treeNodes f, treeRoot f, treeNodes_huffman hp ht, fun s hs => ?_⟩
  subst hs
  exact exec_build hp

/-- Settles O14: the last forest records of every merge that its two nodes were the least ones left in Q. -/
theorem buildMergesLeast : Obligations.BuildMergesLeast := by
  intro s hf _
  have hp := present_ne.mp hf
  have hF := (huffmanForest_forest hp).right
  refine ⟨_, _, exec_build hp, fun k hlo hhi => ?_⟩
  obtain ⟨-, hleft, hright, hne, -, -⟩ := hF.merged k hlo hhi
  obtain ⟨hfreeLeft, hfreeRight, hmin⟩ := hF.least k hlo hhi
  exact ⟨⟨hleft, hfreeLeft⟩, ⟨hright, hfreeRight⟩, hne, hmin⟩

end Sys2Proof.Settled
end

section
/-! PROOFS. The codebook check and the ring (42_derive.md R85, R86), and the codebook DERIVE makes of a tree (R82,
R84). -/

namespace Sys2Proof.Machine

/-! ### The codebook check in a command (R85) -/

/-- A run that begins with CheckLen and CheckCodebook raises what the second finds. -/
theorem require_codebookFault_raised {s : State} (h : s.inLen.toNat ≤ s.params.ibufSize) {r : Raised}
    (hr : codebookFault s.code = some r) (f : State → Run State) :
    ((require (lenFault s) (clearHidden s)).bind fun s => (require (codebookFault s.code) s).bind f) =
      .raised r (clearHidden s) := by
  rw [lenFault_none h, require_none, Run.bind_ok, show (clearHidden s).code = s.code from rfl, hr, require_some,
    Run.bind_raised]

/-- A command whose run raised after its checks alone, with nothing but the hidden state cleared (R114). -/
theorem exec_output_check {i : Instr} (hi : isOutput i = true) {s : State} {r : Raised}
    (h : runOf i s = .raised r (clearHidden s)) : exec i s = .next (failedOutput r.code r.index r.value s) :=
  exec_output_raised (o := { obuf := s.obuf, hidden := Hidden.empty }) hi h

/-- ENCODE, ENCPACK and DECODE stop at the codebook check (R91, R92, R100). -/
theorem exec_codebookFault {s : State} (h : s.inLen.toNat ≤ s.params.ibufSize) {r : Raised}
    (hr : codebookFault s.code = some r) {i : Instr} (hi : i ∈ [Instr.encode, .encpack, .decode]) :
    exec i s = .next (failedOutput r.code r.index r.value s) := by
  have hraised := require_codebookFault_raised h hr
  simp only [List.mem_cons, List.not_mem_nil, or_false] at hi
  rcases hi with rfl | rfl | rfl
  · exact exec_output_check (i := .encode) rfl (hraised _)
  · exact exec_output_check (i := .encpack) rfl (hraised _)
  · exact exec_output_check (i := .decode) rfl (hraised _)

/-- DECOMPRESS with a good trailer stops there too (R101). -/
theorem exec_decompress_codebookFault {s : State} (h : s.inLen.toNat ≤ s.params.ibufSize) (hp : PaddingOk s)
    {r : Raised} (hr : codebookFault s.code = some r) :
    exec .decompress s = .next (failedOutput r.code r.index r.value s) := by
  refine exec_output_check (i := .decompress) rfl ?_
  rw [runOf, runDecompress, lenFault_none h, require_none, Run.bind_ok, paddingFault_clearHidden,
    paddingFault_eq_none.mpr hp, require_none, Run.bind_ok, show (clearHidden s).code = s.code from rfl, hr,
    require_some, Run.bind_raised]

/-- A command that started without an error ends with none, or with the one its run raised (R113, R114). -/
theorem exec_errCode (i : Instr) {s : State} (h : s.errCode = .none) : ∃ t, exec i s = .next t ∧
    (t.errCode = .none ∨ ∃ r u, runOf i s = .raised r u ∧ t.errCode = r.code) := by
  rcases exec_cases i s with ⟨u, -, hw, he⟩ | ⟨r, u, hr, -, -, he⟩
  · exact ⟨_, he, .inl ((congrArg State.errCode hw).trans h)⟩
  · exact ⟨_, he, .inr ⟨r, u, hr, rfl⟩⟩

/-! ### The codebook of a represented tree (R82) -/

/-- DERIVE without a valid tree writes nothing. -/
theorem exec_derive_noTree {s : State} (h : s.treeValid = false) : exec .derive s = .next (failed .noTree 0 0 s) := by
  rw [exec_raised (i := .derive) (runDerive_raised h)]; rfl

theorem CodeEntry.ofCode_false : CodeEntry.ofCode [false] = { valid := true, len := 1, bits := 0 } := by decide

theorem CodeEntry.len_ofCode {s : Bits} (h : s.length ≤ 255) : (CodeEntry.ofCode s).len.toNat = s.length := by
  rw [← CodeEntry.length_symbols, CodeEntry.symbols_ofCode h]

/-- The codebook of a bare leaf. -/
theorem codeAt_deriveCodes_bare {n : Nodes} {r : NodeIdx} (h : (nodeAt n r).internal = false) (b : Byte) :
    codeAt (deriveCodes n r).1 b =
      if b = (nodeAt n r).symbol then { valid := true, len := 1, bits := 0 } else CodeEntry.zero := by
  rw [deriveCodes, if_neg (by simp [h]), assign, codeAt_setCode, CodeEntry.ofCode_false, codeAt_zeroCodes]

section Tree

variable {n : Nodes} {r : NodeIdx} {t : CodeTree} (h : Rep n r t) (hs : t.leaves.length ≤ 256)
include h hs

theorem deriveCodes_internal (hi : (nodeAt n r).internal = true) :
    (deriveCodes n r).1 = assignAll zeroCodes (t.paths []) := by
  rw [deriveCodes_rep h hs]
  cases t with
  | leaf b => rw [h.1] at hi; cases hi
  | node l r => rfl

/-- A leaf gets its path, which fits an entry. -/
theorem codeAt_deriveCodes_leaf (hn : t.leaves.Nodup) (hi : (nodeAt n r).internal = true) {b : Byte} {p : Bits}
    (hp : (b, p) ∈ t.paths []) : p.length ≤ 255 ∧ codeAt (deriveCodes n r).1 b = CodeEntry.ofCode p := by
  have hlen := (CodeTree.mem_paths hp).2
  rw [List.length_nil] at hlen
  refine ⟨by omega, ?_⟩
  rw [deriveCodes_internal h hs hi, codeAt_assignAll (by rw [CodeTree.map_fst_paths]; exact hn) hp]

/-- A byte without a leaf gets the all-zero entry. -/
theorem codeAt_deriveCodes_absent (hi : (nodeAt n r).internal = true) {b : Byte} (hb : b ∉ t.leaves) :
    codeAt (deriveCodes n r).1 b = CodeEntry.zero := by
  rw [deriveCodes_internal h hs hi, codeAt_assignAll_other (by rw [CodeTree.map_fst_paths]; exact hb), codeAt_zeroCodes]

/-- The Kraft sum of the codes is 1, of the one code of a bare leaf 1/2, in units of `2 ^ -256` (R84.3). -/
theorem kraft_deriveCodes (hn : t.leaves.Nodup) :
    (t.leaves.map fun b => 2 ^ (256 - (codeAt (deriveCodes n r).1 b).len.toNat)).sum =
      if t.leaves.length = 1 then 2 ^ 255 else 2 ^ 256 := by
  cases t with
  | leaf b =>
    obtain ⟨hi, rfl⟩ := h
    simp [CodeTree.leaves, codeAt_deriveCodes_bare hi]
  | node l r' =>
    have hl := l.length_leaves_pos
    have hr := r'.length_leaves_pos
    have hlength : (CodeTree.node l r').leaves.length ≠ 1 := by simp only [CodeTree.leaves, List.length_append]; omega
    have hcodes : ∀ p ∈ (CodeTree.node l r').paths [],
        2 ^ (256 - (codeAt (deriveCodes n r).1 p.1).len.toNat) = 2 ^ (256 - p.2.length) := by
      intro p hp
      obtain ⟨hfits, hcode⟩ := codeAt_deriveCodes_leaf h hs hn h.1 hp
      rw [hcode, CodeEntry.len_ofCode hfits]
    rw [if_neg hlength, ← CodeTree.map_fst_paths _ [], List.map_map]
    exact (congrArg List.sum (List.map_congr_left hcodes)).trans
      (CodeTree.kraft _ (by rw [List.length_nil]; omega))

end Tree

/-- MAXLEN is the largest LEN of a valid entry (R82). -/
theorem maxLen_spec {c : Codes} (hc : ∃ b, (codeAt c b).valid = true) :
    (∀ b, (codeAt c b).valid = true → (codeAt c b).len.toNat ≤ (BitVec.ofNat 8 (longestCode c)).toNat) ∧
      ∃ b, (codeAt c b).valid = true ∧ (codeAt c b).len = BitVec.ofNat 8 (longestCode c) := by
  obtain ⟨hbyte, hlongest, b, hb, hlen⟩ := longestCode_spec hc
  have hm : (BitVec.ofNat 8 (longestCode c)).toNat = longestCode c := by rw [BitVec.toNat_ofNat]; omega
  exact ⟨fun d hd => (hlongest d hd).trans_eq hm.symm, b, hb, BitVec.eq_of_toNat_eq (hlen.trans hm.symm)⟩

/-! ### The tree of a table (R81, R84) -/

/-- The tree BUILD makes of a table, with room for each of its leaves in CODE. -/
theorem treeNodes_rep_leaves {f : Freqs} (hf : presentBytes f ≠ []) : ∃ t : CodeTree,
    Rep (treeNodes f) (treeRoot f) t ∧ t.leaves.Perm (presentBytes f) ∧ t.leaves.Nodup ∧ t.leaves.length ≤ 256 := by
  obtain ⟨t, hrep, hperm⟩ := treeNodes_rep hf
  exact ⟨t, hrep, hperm, hperm.nodup_iff.mpr (nodup_presentBytes f),
    hperm.length_eq.trans_le (length_presentBytes_le f)⟩

/-- The nodes at some depth below the root are among those of the forest. -/
theorem Forest.lt_of_atDepth {f : Freqs} {k : Nat} {n : Nodes} {r u : NodeIdx} {d : Nat} (h : Forest f k n [r])
    (hu : AtDepth n r u d) : u.toNat < k := by
  cases hu with
  | root => exact h.below r (List.mem_singleton_self r)
  | child _ hp =>
    obtain ⟨hparent, hbelow⟩ := h.children hp
    exact hbelow.trans hparent

/-- A leaf of a forest carries the count of its byte (R80). -/
theorem Forest.weight_leaf {f : Freqs} {k : Nat} {n : Nodes} {q : List NodeIdx} (h : Forest f k n q) {u : NodeIdx}
    (hu : u.toNat < k) (hl : (nodeAt n u).internal = false) : (nodeAt n u).weight = freqAt f (nodeAt n u).symbol := by
  have hlt : u.toNat < (presentBytes f).length := by
    by_contra hge
    have hint := (h.internal u).mpr ⟨Nat.not_lt.mp hge, hu⟩
    rw [hl] at hint; cases hint
  rw [h.leaf u hlt]; rfl

/-- The length of a byte's code is the depth of a leaf with the byte's count (R82). -/
theorem exists_leaf_at_len {f : Freqs} (hf : presentBytes f ≠ [])
    (hi : (nodeAt (treeNodes f) (treeRoot f)).internal = true) {b : Byte} (hb : freqAt f b ≠ 0) :
    ∃ u, AtDepth (treeNodes f) (treeRoot f) u (codeAt (deriveCodes (treeNodes f) (treeRoot f)).1 b).len.toNat ∧
      (nodeAt (treeNodes f) u).internal = false ∧ (nodeAt (treeNodes f) u).weight = freqAt f b := by
  obtain ⟨t, hrep, hperm, hn, hs⟩ := treeNodes_rep_leaves hf
  have hF := (huffmanForest_forest hf).2
  have hmem : b ∈ (t.paths []).map Prod.fst := by
    rw [CodeTree.map_fst_paths, hperm.mem_iff]; exact mem_presentBytes.mpr hb
  obtain ⟨⟨_, p⟩, hp, rfl⟩ := List.mem_map.mp hmem
  obtain ⟨hfits, hcode⟩ := codeAt_deriveCodes_leaf hrep hs hn hi hp
  obtain ⟨_, rfl, hthrough, hleaf, hsymbol⟩ := hrep.path hp
  have hdepth := AtDepth.root.follow (fun i hint => by
    rw [hF.valid]; exact decide_eq_true ((hF.internal i).mp hint).2) hthrough
  refine ⟨_, ?_, hleaf, ?_⟩
  · rw [hcode, CodeEntry.len_ofCode hfits]; simpa using hdepth
  · rw [hF.weight_leaf (hF.lt_of_atDepth hdepth) hleaf, hsymbol]

/-- Of two bytes of a table the one of lower count has no shorter code (R84.4). -/
theorem len_deriveCodes_mono {f : Freqs} (ht : freqTotal f < 2 ^ 32) {x y : Byte} (hx : freqAt f x ≠ 0)
    (hxy : (freqAt f x).toNat < (freqAt f y).toNat) :
    (codeAt (deriveCodes (treeNodes f) (treeRoot f)).1 y).len.toNat ≤
      (codeAt (deriveCodes (treeNodes f) (treeRoot f)).1 x).len.toNat := by
  have hy : freqAt f y ≠ 0 := by intro h0; rw [h0] at hxy; exact absurd hxy (Nat.not_lt_zero _)
  have hf : presentBytes f ≠ [] := present_ne.mp ⟨x, hx⟩
  have hroot := treeRoot_toNat hf
  have hpos := List.length_pos_iff.mpr hf
  obtain ⟨t, hrep, hperm, -, -⟩ := treeNodes_rep_leaves hf
  cases t with
  | leaf b =>
    have honly : ∀ d, freqAt f d ≠ 0 → d = b := fun d hd => by
      simpa [CodeTree.leaves] using hperm.mem_iff.mpr (mem_presentBytes.mpr hd)
    rw [honly x hx, honly y hy]
  | node l r =>
    obtain ⟨u, hu, hul, huw⟩ := exists_leaf_at_len hf hrep.1 hx
    obtain ⟨v, hv, -, hvw⟩ := exists_leaf_at_len hf hrep.1 hy
    exact (huffmanForest_forest hf).2.leaf_depth ht hu hv (by rw [huw, hvw]; exact hxy) hul (by omega)

end Sys2Proof.Machine

namespace Sys2Proof.Settled

open Sys2Proof.Machine

/-- Settles O16: NODE and ROOT are the tree of the table, whose leaves are the bytes of the table, each once. -/
theorem derivedCodebook : Obligations.DerivedCodebook := by
  intro s hinv htv
  obtain ⟨hp, hnode, hroot⟩ := hinv.treeValid htv
  obtain ⟨t, hrep, hperm, hn, hs⟩ := treeNodes_rep_leaves hp
  have hkraft := kraft_deriveCodes hrep hs hn
  obtain ⟨hfree, hvalid⟩ := deriveCodes_tree hp
  rw [(hperm.map _).sum_eq, hperm.length_eq] at hkraft
  rw [← hnode, ← hroot] at hkraft hfree hvalid
  exact ⟨_, exec_derive htv, hvalid, hfree, hkraft, codebookFault_none.mpr hfree⟩

/-- Settles O17: a code's length is the depth of a leaf that carries the byte's count, and the merges put no leaf of
lower count nearer to ROOT. -/
theorem codeLengthMonotone : Obligations.CodeLengthMonotone := by
  intro s hinv htv
  obtain ⟨-, hnode, hroot⟩ := hinv.treeValid htv
  have hsize := (sizes_of_wf hinv.params).1
  have ht : freqTotal s.freq < 2 ^ 32 := by have := hinv.counts; omega
  refine ⟨_, exec_derive htv, fun x y hx hxy => ?_⟩
  have hmono := len_deriveCodes_mono ht hx hxy
  rw [← hnode, ← hroot] at hmono
  exact hmono

/-- Settles O15: the walk assigns the paths of the tree that NODE represents at ROOT, and these are the paths of nodes
from ROOT to a leaf. -/
theorem deriveAssignsPaths : Obligations.DeriveAssignsPaths := by
  refine ⟨fun s => exec_derive_noTree, fun s hinv htv => ?_⟩
  obtain ⟨hp, hnode, hroot⟩ := hinv.treeValid htv
  obtain ⟨t, hrep, -, hn, hs⟩ := treeNodes_rep_leaves hp
  obtain ⟨-, hvalid⟩ := deriveCodes_tree hp
  obtain ⟨b₀, hb₀⟩ := present_ne.mpr hp
  rw [← hnode, ← hroot] at hrep hvalid
  refine ⟨_, _, exec_derive htv, codeAt_deriveCodes_bare, fun hi => ⟨fun p hthrough hleaf => ?_, fun b hb => ?_⟩,
    maxLen_spec ⟨b₀, (hvalid b₀).mpr hb₀⟩⟩
  · obtain ⟨hfits, hcode⟩ := codeAt_deriveCodes_leaf hrep hs hn hi (hrep.mem_paths hthrough hleaf [])
    rw [hcode]
    exact ⟨rfl, CodeEntry.len_ofCode hfits, fun t ht => symbolAt_ofCode hfits ht⟩
  · refine codeAt_deriveCodes_absent hrep hs hi fun hmem => ?_
    rw [← CodeTree.map_fst_paths t []] at hmem
    obtain ⟨⟨_, q⟩, hq, rfl⟩ := List.mem_map.mp hmem
    obtain ⟨p, -, hthrough, hleaf, hsymbol⟩ := hrep.path hq
    exact hb p hthrough hleaf hsymbol

/-- Settles O18: the check reports the first empty code or clashing pair, and raises RING_INVALID for nothing else. -/
theorem codebookCheck : Obligations.CodebookCheck := by
  intro s h
  refine ⟨fun hbad => ?_, fun hfree hnone i hi => ?_⟩
  · obtain ⟨b₁, b₂, hfirst, hfault⟩ := codebookFault_some hbad
    exact ⟨b₁, b₂, hfirst, fun i hi => exec_codebookFault h hfault hi,
      fun hp => exec_decompress_codebookFault h hp hfault⟩
  · obtain ⟨t, he, hcode⟩ := exec_errCode i hnone
    refine ⟨t, he, ?_⟩
    rcases hcode with hcode | ⟨r, u, hr, hcode⟩
    · rw [hcode]; decide
    · rw [hcode]; exact ring_not_raised hi hfree r u hr

/-- Settles O19: in a codebook that passes the check no other code equals or starts a code. -/
theorem matchIsFinal : Obligations.MatchIsFinal := by
  intro c hc
  have hfree := codebookFault_none.mp hc
  exact ⟨fun _ => ringLookup_code hfree, fun _ _ => ringLookup_some,
    fun _ _ _ hv hst ht => ringLookup_proper hfree hv hst ht⟩

end Sys2Proof.Settled
end

section
/-! PROOFS. ENCODE, ENCPACK and PACK (43_encode_pack.md): the whole next state when the data fit, the first error when
they do not (R91 to R93, R118), and ENCPACK as PACK of ENCODE's output (R94). -/

namespace Sys2Proof.Machine

/-! ### The commands on data that raise nothing -/

/-- An output command whose run reached its end having written `bytes` and the result registers (R40, R113). -/
theorem exec_output_ok {i : Instr} {s : State} {bytes : List Byte} {n bitLen pad : Nat} {hid : Hidden}
    (h : runOf i s = .ok (setResult n bitLen pad { s with obuf := s.obuf.writeAll 0 bytes, hidden := hid }))
    (hn : n = bytes.length) : exec i s = .next (succeededOutput bytes bitLen pad s) := by
  subst hn
  rw [exec_ok h]; rfl

/-! ### The steps along a bit string that fits -/

/-- Every symbol of a bit string that fits OBUF as text bits is emitted (R87, R91). -/
theorem emitText_along {p : Params} (m : Memory) {E : Bits} (hE : E.length ≤ p.obufSize) (D : Bits) (x : Bool) (i : Nat)
    (h : D ++ [x] <+: E) : emitText p x i (textState m false D) = .ok (textState m false (D ++ [x])) := by
  have hlen : D.length + 1 ≤ E.length := by simpa using h.length_le
  exact emitText_step p m D x i (hlen.trans hE)

/-- Every symbol of a bit string whose groups fit OBUF is packed (R87, R88). -/
theorem packBit_along {p : Params} (m : Memory) {E : Bits} (hE : E.length / 8 ≤ p.obufSize) (D : Bits) (x : Bool)
    (i : Nat) (h : D ++ [x] <+: E) : packBit p x i (packState m D) = .ok (packState m (D ++ [x])) := by
  have hlen : D.length + 1 ≤ E.length := by simpa using h.length_le
  exact packBit_step p m D x i (by omega)

theorem Coded.snoc {c : Codes} {m : List Byte} {b : Byte} (hm : Coded c m) (hb : (codeAt c b).valid = true) :
    Coded c (m ++ [b]) := by
  intro d hd
  rcases List.mem_append.mp hd with hd | hd
  · exact hm d hd
  · rwa [List.mem_singleton.mp hd]

theorem isTextBit_eq_false {c : Byte} (h₀ : c ≠ 0x30#8) (h₁ : c ≠ 0x31#8) : isTextBit c = false := by
  simp [isTextBit, h₀, h₁]

/-! ### The first error of the loops (R118) -/

section FirstError

variable {s : State} {m₁ m₂ : List Byte} {b : Byte}

theorem encodeOut_unknown (hmsg : message s = m₁ ++ b :: m₂) (hm : Coded s.code m₁)
    (hfit : (encodedBits s.code m₁).length ≤ s.params.obufSize) (hb : (codeAt s.code b).valid = false) :
    (encodeOut (clearHidden s) { obuf := s.obuf, hidden := Hidden.empty }).Fails
      { code := .unknownSymbol, index := BitVec.ofNat 32 m₁.length, value := b.setWidth 32 } := by
  have h := forBytes_unknown (emitText_along s.obuf hfit) 0 (m₂ := m₂) (D := []) hm hb (List.prefix_refl _)
  rwa [← hmsg, Nat.zero_add] at h

/-- The symbol that does not fit stands where the emitted symbols reach OBUF_SIZE. -/
theorem encodeOut_overflow (hmsg : message s = m₁ ++ b :: m₂) (hm : Coded s.code m₁)
    (hfit : (encodedBits s.code m₁).length ≤ s.params.obufSize) (hb : (codeAt s.code b).valid = true)
    (hover : s.params.obufSize < (encodedBits s.code (m₁ ++ [b])).length) :
    (encodeOut (clearHidden s) { obuf := s.obuf, hidden := Hidden.empty }).Fails
      { code := .obufOverflow, index := BitVec.ofNat 32 m₁.length, value := BitVec.ofNat 32 s.params.obufSize } := by
  rw [encodedBits_append] at hover
  obtain ⟨E, x, rest, hlen, hpre, hsplit⟩ := exists_split hfit hover
  rw [← encodedBits_append] at hsplit
  have h := forBytes_encode_fails (emitText_along s.obuf hlen.le) (i := 0) (m₂ := m₂) (D := []) (hm.snoc hb) hpre hsplit
    (emitText_fails s.params s.obuf x _ hlen)
  rwa [← hmsg, Nat.zero_add] at h

theorem encpackOut_unknown (hmsg : message s = m₁ ++ b :: m₂) (hm : Coded s.code m₁)
    (hfit : (encodedBits s.code m₁).length / 8 ≤ s.params.obufSize) (hb : (codeAt s.code b).valid = false) :
    (encpackOut (clearHidden s) { obuf := s.obuf, hidden := Hidden.empty }).Fails
      { code := .unknownSymbol, index := BitVec.ofNat 32 m₁.length, value := b.setWidth 32 } := by
  have h := forBytes_unknown (packBit_along s.obuf hfit) 0 (m₂ := m₂) (D := []) hm hb (List.prefix_refl _)
  rw [← hmsg, Nat.zero_add] at h
  exact h.bind

/-- The symbol that completes a group which does not fit is number `8 * OBUF_SIZE + 7`. -/
theorem encpackOut_overflow (hmsg : message s = m₁ ++ b :: m₂) (hm : Coded s.code m₁)
    (hfit : (encodedBits s.code m₁).length / 8 ≤ s.params.obufSize) (hb : (codeAt s.code b).valid = true)
    (hover : s.params.obufSize < (encodedBits s.code (m₁ ++ [b])).length / 8) :
    (encpackOut (clearHidden s) { obuf := s.obuf, hidden := Hidden.empty }).Fails
      { code := .obufOverflow, index := BitVec.ofNat 32 m₁.length, value := BitVec.ofNat 32 s.params.obufSize } := by
  rw [encodedBits_append] at hover
  obtain ⟨E, x, rest, hlen, hpre, hsplit⟩ := exists_split (n := 8 * s.params.obufSize + 7)
    (A := encodedBits s.code m₁) (B := encodedBits s.code [b]) (by omega) (by omega)
  rw [← encodedBits_append] at hsplit
  have h := forBytes_encode_fails (packBit_along s.obuf (show E.length / 8 ≤ s.params.obufSize by omega)) (i := 0)
    (m₂ := m₂) (D := []) (hm.snoc hb) hpre hsplit (packBit_fails s.params s.obuf x _ (by omega))
  rw [← hmsg, Nat.zero_add] at h
  exact h.bind

theorem encpackOut_trailer (hm : Coded s.code (message s))
    (hfit : (encodedBits s.code (message s)).length / 8 ≤ s.params.obufSize)
    (hover : s.params.obufSize < (encodedBits s.code (message s)).length / 8 + 2) :
    (encpackOut (clearHidden s) { obuf := s.obuf, hidden := Hidden.empty }).Fails
      { code := .obufOverflow, index := s.inLen, value := BitVec.ofNat 32 s.params.obufSize } := by
  have h := packFinish_fails s.params s.obuf _ s.inLen.toNat hfit hover
  rw [BitVec.ofNat_toNat, BitVec.setWidth_eq] at h
  exact Run.Fails.bind_ok
    (forBytes_encode_ok (packBit_along s.obuf hfit) 0 (message s) [] hm (List.prefix_refl _)) h

variable {e : Bits}

theorem packOut_badBitchar {c : Byte} {m : List Byte} (hmsg : message s = textBits e ++ c :: m)
    (hfit : e.length / 8 ≤ s.params.obufSize) (hc : isTextBit c = false) :
    (packOut (clearHidden s) { obuf := s.obuf, hidden := Hidden.empty }).Fails
      { code := .badBitchar, index := BitVec.ofNat 32 e.length, value := c.setWidth 32 } := by
  have h := forBytes_badBitchar (packBit_along s.obuf hfit) 0 (m := m) (D := []) hc (List.prefix_refl _)
  rw [← hmsg, Nat.zero_add] at h
  exact h.bind

theorem packOut_overflow {x : Bool} {m : List Byte} (hmsg : message s = textBits (e ++ [x]) ++ m)
    (hlen : e.length + 1 = 8 * (s.params.obufSize + 1)) :
    (packOut (clearHidden s) { obuf := s.obuf, hidden := Hidden.empty }).Fails
      { code := .obufOverflow, index := BitVec.ofNat 32 e.length, value := BitVec.ofNat 32 s.params.obufSize } := by
  have h := forBytes_text_fails (packBit_along s.obuf (show e.length / 8 ≤ s.params.obufSize by omega)) (i := 0) (m := m)
    (List.nil_append e) (packBit_fails s.params s.obuf x _ hlen)
  rw [← hmsg, Nat.zero_add] at h
  exact h.bind

theorem packOut_trailer (hmsg : message s = textBits e) (hfit : e.length / 8 ≤ s.params.obufSize)
    (hover : s.params.obufSize < e.length / 8 + 2) :
    (packOut (clearHidden s) { obuf := s.obuf, hidden := Hidden.empty }).Fails
      { code := .obufOverflow, index := s.inLen, value := BitVec.ofNat 32 s.params.obufSize } := by
  have hloop := forBytes_text_ok (packBit_along s.obuf hfit) 0 (textBits e) [] (isTextBit_of_mem_textBits e) (by simp)
  rw [map_textSymbol_textBits, ← hmsg] at hloop
  have h := packFinish_fails s.params s.obuf _ s.inLen.toNat hfit hover
  rw [BitVec.ofNat_toNat, BitVec.setWidth_eq] at h
  exact Run.Fails.bind_ok hloop h

end FirstError

end Sys2Proof.Machine

namespace Sys2Proof.Settled

open Sys2Proof.Machine

/-- Settles O20: every symbol of the message's codes is emitted as a text bit. -/
theorem encodeSucceeds : Obligations.EncodeSucceeds := by
  intro s hlen hfree hm hfit
  obtain ⟨hid, h⟩ := runEncode_ok hlen hfree hm hfit
  exact exec_output_ok (i := .encode) h (length_textBits _).symm

/-- Settles O21: the loop goes on through the first part of the message and raises at the byte after it. -/
theorem encodeErrors : Obligations.EncodeErrors := by
  intro s m₁ m₂ b hlen hfree hmsg hm hfit
  exact ⟨fun hb => exec_encode_fails hlen hfree (encodeOut_unknown hmsg hm hfit hb),
    fun hb hover => exec_encode_fails hlen hfree (encodeOut_overflow hmsg hm hfit hb hover)⟩

/-- Settles O22: the groups leave the packer as they fill up, and the trailer follows them. -/
theorem encpackSucceeds : Obligations.EncpackSucceeds := by
  intro s hlen hfree hm hfit
  obtain ⟨hid, h⟩ := runEncpack_ok hlen hfree hm hfit
  exact exec_output_ok (i := .encpack) h (length_packedBytes _).symm

/-- Settles O23: the loop raises at the first byte that fails, and the trailer is reached only past the last one. -/
theorem encpackErrors : Obligations.EncpackErrors := by
  intro s hlen hfree
  refine ⟨fun m₁ m₂ b hmsg hm hfit => ⟨fun hb => ?_, fun hb hover => ?_⟩, fun hm hfit hover => ?_⟩
  · exact exec_encpack_fails hlen hfree (encpackOut_unknown hmsg hm hfit hb)
  · exact exec_encpack_fails hlen hfree (encpackOut_overflow hmsg hm hfit hb hover)
  · exact exec_encpack_fails hlen hfree (encpackOut_trailer hm hfit hover)

/-- Settles O24: the text bits are the symbols the packer takes. -/
theorem packSucceeds : Obligations.PackSucceeds := by
  intro s e hlen hmsg hfit
  obtain ⟨hid, h⟩ := runPack_ok hlen hmsg hfit
  exact exec_output_ok (i := .pack) h (length_packedBytes _).symm

/-- Settles O25: the loop raises at the first byte that fails, and the trailer is reached only past the last one. -/
theorem packErrors : Obligations.PackErrors := by
  intro s e hlen hfit
  refine ⟨fun c m hmsg h₀ h₁ => ?_, fun x m hmsg hx => ?_, fun hmsg hover => ?_⟩
  · exact exec_pack_fails hlen (packOut_badBitchar hmsg hfit (isTextBit_eq_false h₀ h₁))
  · exact exec_pack_fails hlen (packOut_overflow hmsg hx)
  · exact exec_pack_fails hlen (packOut_trailer hmsg hfit hover)

end Sys2Proof.Settled

namespace Sys2Proof.Machine

/-! ### From a success back to its data (R94) -/

section Inverse

variable {s t : State}

/-- A command that did not end in an error did not answer the state of one. -/
theorem exec_ne_failedOutput {i : Instr} (hx : exec i s = .next t) (ht : t.err = false) {e : ErrCode} {x y : Word}
    {u : State} : exec i s ≠ .next (failedOutput e x y u) := by
  intro h
  obtain rfl := Host.Outcome.next.inj (hx.symm.trans h)
  cases ht

/-- An output command that succeeds has passed CheckLen (R73). -/
theorem inLen_le_of_exec {i : Instr} (hi : isOutput i = true) (hx : exec i s = .next t) (ht : t.err = false) :
    s.inLen.toNat ≤ s.params.ibufSize := by
  by_contra h
  exact exec_ne_failedOutput hx ht (exec_output_check hi (runOf_output_long hi (Nat.lt_of_not_le h)))

/-- ENCODE, ENCPACK and DECODE that succeed have passed CheckCodebook (R85). -/
theorem prefixFree_of_exec {i : Instr} (hi : i ∈ [Instr.encode, .encpack, .decode])
    (hlen : s.inLen.toNat ≤ s.params.ibufSize) (hx : exec i s = .next t) (ht : t.err = false) : PrefixFree s.code := by
  by_contra h
  obtain ⟨_, _, -, hfault⟩ := codebookFault_some h
  exact exec_ne_failedOutput hx ht (exec_codebookFault hlen hfault hi)

/-- ENCODE that succeeds has written the text bits of a coded message that fits (R91). -/
theorem encode_success (hx : exec .encode s = .next t) (ht : t.err = false) :
    s.inLen.toNat ≤ s.params.ibufSize ∧ PrefixFree s.code ∧ Coded s.code (message s) ∧
      (encodedBits s.code (message s)).length ≤ s.params.obufSize ∧
      t = succeededOutput (textBits (encodedBits s.code (message s))) (encodedBits s.code (message s)).length 0 s := by
  have hlen := inLen_le_of_exec rfl hx ht
  have hfree := prefixFree_of_exec (by simp) hlen hx ht
  rcases first_failure s.code s.params.obufSize id (Nat.zero_le _) (message s) with
    ⟨hm, hfit⟩ | ⟨m₁, b, m₂, hmsg, hm, hfit, hfirst⟩
  · exact ⟨hlen, hfree, hm, hfit,
      Host.Outcome.next.inj (hx.symm.trans (Settled.encodeSucceeds s hlen hfree hm hfit))⟩
  · obtain ⟨hunknown, hoverflow⟩ := Settled.encodeErrors s m₁ m₂ b hlen hfree hmsg hm hfit
    rcases hfirst with hb | ⟨hb, hover⟩
    · exact absurd (hunknown hb) (exec_ne_failedOutput hx ht)
    · exact absurd (hoverflow hb hover) (exec_ne_failedOutput hx ht)

/-- PACK of text bits that succeeds has written their PackedBytes, which fit if the groups do (R93). -/
theorem pack_success {e : Bits} (hmsg : message s = textBits e) (hgroups : e.length / 8 ≤ s.params.obufSize)
    (hx : exec .pack s = .next t) (ht : t.err = false) :
    e.length / 8 + 2 ≤ s.params.obufSize ∧ t = succeededOutput (packedBytes e) e.length (packPadding e.length) s := by
  have hlen := inLen_le_of_exec rfl hx ht
  have hfit : e.length / 8 + 2 ≤ s.params.obufSize := by
    by_contra h
    obtain ⟨-, -, htrailer⟩ := Settled.packErrors s e hlen hgroups
    exact exec_ne_failedOutput hx ht (htrailer hmsg (Nat.lt_of_not_le h))
  exact ⟨hfit, Host.Outcome.next.inj (hx.symm.trans (Settled.packSucceeds s e hlen hmsg hfit))⟩

end Inverse

end Sys2Proof.Machine

namespace Sys2Proof.Settled

open Sys2Proof.Machine

/-- Settles O37: ENCODE's success makes the message coded and PACK's makes the PackedBytes of its codes fit, so ENCPACK
succeeds with the same bytes. -/
theorem packOfEncode : Obligations.PackOfEncode := by
  intro s t u v hwf herr hencode ht hparams _ hmsg _ hpack hv
  obtain ⟨hlen, hfree, hm, hfit, rfl⟩ := encode_success hencode ht
  have hsize := (sizes_of_wf hwf).2.1
  have hcodes := length_packedBytes (encodedBits s.code (message s))
  rw [outputBytes_succeeded (by rw [length_textBits]; omega)] at hmsg
  obtain ⟨hroom, rfl⟩ := pack_success hmsg (by rw [hparams]; omega) hpack hv
  refine ⟨_, encpackSucceeds s hlen hfree hm (hparams ▸ hroom), herr, rfl, rfl, rfl, ?_⟩
  rw [outputBytes_succeeded (by omega), outputBytes_succeeded (by omega)]

end Sys2Proof.Settled
end

section
/-! PROOFS. UNPACK, DECODE and DECOMPRESS (44_unpack_decode.md): the whole next state when the data fit, the first error
when they do not (R95 to R101, R118), and DECOMPRESS as DECODE of UNPACK's output (R102). -/

namespace Sys2Proof.Machine

/-! ### CheckPadding in a command (R95) -/

theorem paddingFault_short {s : State} (h : s.inLen.toNat < 2) :
    paddingFault s = some { code := .corruptPadding, index := 0, value := s.inLen } := if_pos h

theorem paddingFault_count {s : State} (h : 2 ≤ s.inLen.toNat) (hp : 8 < paddingCount s) :
    paddingFault s = some { code := .corruptPadding, index := s.inLen - 2
                            value := (s.ibuf.read (s.inLen.toNat - 2)).setWidth 32 } := by
  rw [paddingFault, if_neg (by omega), if_pos hp, paddingCount, BitVec.ofNat_toNat]

/-- UNPACK and DECOMPRESS stop at the padding check (R99, R101). -/
theorem exec_paddingFault {s : State} (h : s.inLen.toNat ≤ s.params.ibufSize) {r : Raised}
    (hr : paddingFault s = some r) {i : Instr} (hi : i ∈ [Instr.unpack, .decompress]) :
    exec i s = .next (failedOutput r.code r.index r.value s) := by
  have hraised (f : State → Run State) :
      ((require (lenFault s) (clearHidden s)).bind fun s => (require (paddingFault s) s).bind f) =
        .raised r (clearHidden s) := by
    rw [lenFault_none h, require_none, Run.bind_ok, paddingFault_clearHidden, hr, require_some, Run.bind_raised]
  simp only [List.mem_cons, List.not_mem_nil, or_false] at hi
  rcases hi with rfl | rfl
  · exact exec_output_check (i := .unpack) rfl (hraised _)
  · exact exec_output_check (i := .decompress) rfl (hraised _)

/-! ### The symbols of the PackedBytes (R96) -/

theorem length_packedSymbols (s : State) :
    (packedSymbols s).length = 8 * (s.inLen.toNat - 2) + (8 - paddingCount s) := by
  rw [packedSymbols, finalSymbols, List.length_append, length_flatMap_bits8, length_dataBytes, List.length_take,
    length_bits8, Nat.min_eq_left (Nat.sub_le _ _)]

/-- The delivery of the PackedBytes in IBUF at the symbol number `E.length`, which fails at its own IBUF index. -/
theorem packedInput_fails {f : Bool → Nat → Out → Run Out} {st : Bits → Out} {E rest : Bits} {x : Bool} {r : Raised}
    {s : State} (h : packedSymbols s = E ++ x :: rest)
    (hf : ∀ D x i ys, D ++ [x] <+: E → f x i ((st D).withInBits ys) = .ok ((st (D ++ [x])).withInBits ys))
    (hx : ∀ ys, (f x (symbolIndex s E.length) ((st E).withInBits ys)).Fails r) :
    (packedInput f s ((st []).withInBits [])).Fails r := by
  refine forPackedBits_fails hf h ?_
  rwa [length_dataBytes]

/-- The first symbol whose text bit does not fit. -/
theorem packedInput_text_overflow {s : State} (h : s.params.obufSize < (packedSymbols s).length) :
    (packedInput (emitTextCounted s.params) s { obuf := s.obuf, hidden := Hidden.empty }).Fails
      { code := .obufOverflow, index := BitVec.ofNat 32 (symbolIndex s s.params.obufSize)
        value := BitVec.ofNat 32 s.params.obufSize } := by
  obtain ⟨E, x, rest, hlen, -, hsplit⟩ := exists_split (A := []) (Nat.zero_le _) h
  refine packedInput_fails (st := textState s.obuf true) hsplit (fun D y i ys hD => ?_) fun ys => ?_
  · have hroom : D.length + 1 ≤ E.length := by simpa using hD.length_le
    exact emitTextCounted_step _ _ D y i ys (hroom.trans hlen.le)
  · rw [hlen]
    exact emitTextCounted_fails _ _ x _ ys hlen

/-! ### The decoder's input (R97, R98, R100, R101) -/

@[simp] theorem tailState_nil (c : Codes) (mem : Memory) (counted : Bool) (k : Nat) :
    tailState c mem counted k [] = { obuf := mem, hidden := Hidden.empty } := by
  rw [tailState, if_pos (by simp)]
  cases counted <;> rfl

section DecoderInput

variable {s : State} {m : List Byte} {e : Bits}

/-- DECODE's loop over the codes of a message and a tail that starts no code. -/
theorem decodeOut_tail (hc : PrefixFree s.code) (hm : Coded s.code m) (hs : m.length ≤ s.params.obufSize)
    (he : NoCodeStarts s.code e) (hmsg : message s = textBits (encodedBits s.code m ++ e)) :
    decodeOut (clearHidden s) { obuf := s.obuf, hidden := Hidden.empty } =
      .ok (tailState s.code s.obuf false (encodedBits s.code m).length (encodedBits s.code m ++ e)) := by
  have h := forBytes_text_ok (fun D x i hD => decodeBit_tail hc hm he hs s.obuf i hD) 0
    (textBits (encodedBits s.code m ++ e)) [] (isTextBit_of_mem_textBits _) (by simp)
  rwa [map_textSymbol_textBits, List.nil_append, tailState_nil, ← hmsg] at h

/-- A byte that is no text bit, also where the accumulator has overflowed before it. -/
theorem decodeOut_badBitchar (hc : PrefixFree s.code) (hm : Coded s.code m) (hs : m.length ≤ s.params.obufSize)
    (he : NoCodeStarts s.code e) {b : Byte} (hb : isTextBit b = false) {rest : List Byte}
    (hmsg : message s = textBits (encodedBits s.code m ++ e) ++ b :: rest) :
    (decodeOut (clearHidden s) { obuf := s.obuf, hidden := Hidden.empty }).Fails
      { code := .badBitchar, index := BitVec.ofNat 32 ((encodedBits s.code m).length + e.length)
        value := b.setWidth 32 } := by
  have h := forBytes_badBitchar (fun D x i hD => decodeBit_tail hc hm he hs s.obuf i hD) 0 (m := rest)
    (e := encodedBits s.code m ++ e) (D := []) hb (List.prefix_refl _)
  rwa [tailState_nil, ← hmsg, Nat.zero_add, List.length_append] at h

/-- The last symbol of the codes of a message one byte longer than OBUF. -/
theorem decodeOut_overflow (hc : PrefixFree s.code) (hm : Coded s.code m) (hs : m.length = s.params.obufSize + 1)
    {rest : List Byte} (hmsg : message s = textBits (encodedBits s.code m) ++ rest) :
    (decodeOut (clearHidden s) { obuf := s.obuf, hidden := Hidden.empty }).Fails
      { code := .obufOverflow, index := BitVec.ofNat 32 ((encodedBits s.code m).length - 1)
        value := BitVec.ofNat 32 s.params.obufSize } := by
  obtain ⟨E, x, b, bs, acc, hE, hbs, hmatched, hacc, hring, halong⟩ := last_symbol hc hm hs
  rw [hE] at hmsg
  rw [hE, List.length_append, List.length_singleton, Nat.add_sub_cancel]
  have h := forBytes_text_fails (i := 0) (m := rest) (st := decodeState s.code s.obuf false)
    (fun D y i hD => decodeBit_step s.params s.code s.obuf D y i (halong D y hD).1 (halong D y hD).2)
    (List.nil_append E) (decodeBit_fails hmatched hacc hring hbs false _ 0 [])
  rwa [← hmsg, Nat.zero_add] at h

/-- DECOMPRESS's loop over the codes of a message and a tail that starts no code. -/
theorem packedInput_tail (hc : PrefixFree s.code) (hm : Coded s.code m) (hs : m.length ≤ s.params.obufSize)
    (he : NoCodeStarts s.code e) (hsym : packedSymbols s = encodedBits s.code m ++ e) :
    packedInput (decodeBitCounted s.params s.code) s { obuf := s.obuf, hidden := Hidden.empty } =
      .ok ((tailState s.code s.obuf true (encodedBits s.code m).length (encodedBits s.code m ++ e)).withInBits []) := by
  have h := forPackedBits_ok (fun D x i ys hD => decodeBitCounted_tail hc hm he hs s.obuf i ys hD) (dataBytes s)
    (finalSymbols s (paddingCount s)) (s.inLen.toNat - 1) [] (by rw [← hsym]; exact List.prefix_refl _)
  rwa [show [] ++ (_ ++ _) = _ from hsym, tailState_nil] at h

/-- The symbol of the PackedBytes that completes the byte which does not fit. -/
theorem packedInput_decode_overflow (hc : PrefixFree s.code) (hm : Coded s.code m)
    (hs : m.length = s.params.obufSize + 1) {rest : Bits} (hsym : packedSymbols s = encodedBits s.code m ++ rest) :
    (packedInput (decodeBitCounted s.params s.code) s { obuf := s.obuf, hidden := Hidden.empty }).Fails
      { code := .obufOverflow, index := BitVec.ofNat 32 (symbolIndex s ((encodedBits s.code m).length - 1))
        value := BitVec.ofNat 32 s.params.obufSize } := by
  obtain ⟨E, x, b, bs, acc, hE, hbs, hmatched, hacc, hring, halong⟩ := last_symbol hc hm hs
  rw [hE, List.append_assoc] at hsym
  rw [hE, List.length_append, List.length_singleton, Nat.add_sub_cancel]
  refine packedInput_fails (st := decodeState s.code s.obuf true) hsym (fun D y i ys hD => ?_) fun ys => ?_
  · exact decodeBitCounted_step s.params s.code s.obuf D y i ys (halong D y hD).1 (halong D y hD).2
  · exact decodeBit_fails hmatched hacc hring hbs true _ _ ys

end DecoderInput

end Sys2Proof.Machine

namespace Sys2Proof.Settled

open Sys2Proof.Machine

/-- Settles O26: every symbol of the PackedBytes is emitted as a text bit. -/
theorem unpackSucceeds : Obligations.UnpackSucceeds := by
  intro s hlen hp hfit
  obtain ⟨hid, h⟩ := runUnpack_ok hlen (paddingFault_eq_none.mpr hp) hfit
  exact ⟨exec_output_ok (i := .unpack) h (length_textBits _).symm, length_packedSymbols s⟩

/-- Settles O27: both commands stop at the padding check, and UNPACK past it at the symbol number OBUF_SIZE. -/
theorem unpackErrors : Obligations.UnpackErrors := by
  intro s hlen
  refine ⟨fun i hi => ⟨fun h => ?_, fun h hp => ?_⟩, fun hp hover => ?_⟩
  · exact exec_paddingFault hlen (paddingFault_short h) hi
  · exact exec_paddingFault hlen (paddingFault_count h hp) hi
  · exact exec_unpack_fails hlen hp (packedInput_text_overflow hover)

/-- Settles O28: along the codes of a message the decoder emits the message. -/
theorem decodeSucceeds : Obligations.DecodeSucceeds := by
  intro s m hlen hfree hm hmsg hfit
  obtain ⟨hid, h⟩ := runDecode_ok hlen hfree hm hmsg hfit
  exact exec_output_ok (i := .decode) h rfl

/-- Settles O29: the tail is left in the accumulator or overflows it, and the loop raises at the first byte that
fails. -/
theorem decodeErrors : Obligations.DecodeErrors := by
  intro s m e hlen hfree hm
  refine ⟨fun hfit he hne hmsg => ?_, fun c rest hfit he hmsg h₀ h₁ => ?_, fun rest hover hmsg => ?_⟩
  · exact exec_decode_incomplete hlen hfree (decodeOut_tail hfree hm hfit he hmsg)
      (decodeFault_tail hfree hm he s.obuf false s.inLen hne)
  · exact exec_decode_fails hlen hfree (decodeOut_badBitchar hfree hm hfit he (isTextBit_eq_false h₀ h₁) hmsg)
  · exact exec_decode_fails hlen hfree (decodeOut_overflow hfree hm hover hmsg)

/-- Settles O30: the symbols of the PackedBytes are what the decoder takes. -/
theorem decompressSucceeds : Obligations.DecompressSucceeds := by
  intro s m hlen hp hfree hm hsym hfit
  obtain ⟨hid, h⟩ := runDecompress_ok hlen (paddingFault_eq_none.mpr hp) hfree hm hsym hfit
  exact exec_output_ok (i := .decompress) h rfl

/-- Settles O31: as DECODE on the symbols of the PackedBytes. -/
theorem decompressErrors : Obligations.DecompressErrors := by
  intro s m e hlen hp hfree hm
  refine ⟨fun hfit he hne hsym => ?_, fun rest hover hsym => ?_⟩
  · exact exec_decompress_incomplete hlen hp hfree (packedInput_tail hfree hm hfit he hsym)
      (decodeFault_tail hfree hm he s.obuf true s.inLen hne)
  · exact exec_decompress_fails hlen hp hfree (packedInput_decode_overflow hfree hm hover hsym)

end Sys2Proof.Settled

namespace Sys2Proof.Machine

/-! ### From a success back to its data (R102) -/

section UnpackDecode

variable {s t : State}

/-- UNPACK that succeeds has written the text bits of PackedBytes with a good trailer (R99). -/
theorem unpack_success (hx : exec .unpack s = .next t) (ht : t.err = false) :
    s.inLen.toNat ≤ s.params.ibufSize ∧ PaddingOk s ∧ (packedSymbols s).length ≤ s.params.obufSize ∧
      t = succeededOutput (textBits (packedSymbols s)) (packedSymbols s).length (paddingCount s) s := by
  have hlen := inLen_le_of_exec rfl hx ht
  obtain ⟨-, hoverflow⟩ := Settled.unpackErrors s hlen
  have hp : PaddingOk s := by
    rw [← paddingFault_eq_none, Option.eq_none_iff_forall_ne_some]
    exact fun r hr => exec_ne_failedOutput hx ht (exec_paddingFault hlen hr (by simp))
  have hfit : (packedSymbols s).length ≤ s.params.obufSize := by
    by_contra h
    exact exec_ne_failedOutput hx ht (hoverflow hp (Nat.lt_of_not_le h))
  exact ⟨hlen, hp, hfit, Host.Outcome.next.inj (hx.symm.trans (Settled.unpackSucceeds s hlen hp hfit).1)⟩

/-- DECODE of text bits that succeeds has written the message whose codes they are (R100). -/
theorem decode_success {e : Bits} (hmsg : message s = textBits e) (hx : exec .decode s = .next t) (ht : t.err = false) :
    ∃ m, PrefixFree s.code ∧ Coded s.code m ∧ e = encodedBits s.code m ∧ m.length ≤ s.params.obufSize ∧
      t = succeededOutput m s.inLen.toNat 0 s := by
  have hlen := inLen_le_of_exec rfl hx ht
  have hfree := prefixFree_of_exec (by simp) hlen hx ht
  obtain ⟨m, tail, hm, htail, rfl⟩ := codes_and_rest hfree e
  have hfit : m.length ≤ s.params.obufSize := by
    by_contra h
    have hm' : Coded s.code (m.take (s.params.obufSize + 1)) := fun b hb => hm b (List.mem_of_mem_take hb)
    obtain ⟨-, -, hoverflow⟩ := Settled.decodeErrors s _ [] hlen hfree hm'
    refine exec_ne_failedOutput hx ht
      (hoverflow (textBits (encodedBits s.code (m.drop (s.params.obufSize + 1)) ++ tail)) ?_ ?_)
    · rw [List.length_take]; omega
    · rw [hmsg, ← textBits_append, ← List.append_assoc, ← encodedBits_append, List.take_append_drop]
  have hnil : tail = [] := by
    by_contra hne
    obtain ⟨hincomplete, -⟩ := Settled.decodeErrors s m tail hlen hfree hm
    exact exec_ne_failedOutput hx ht (hincomplete hfit htail hne hmsg)
  rw [hnil, List.append_nil] at hmsg ⊢
  exact ⟨m, hfree, hm, rfl, hfit,
    Host.Outcome.next.inj (hx.symm.trans (Settled.decodeSucceeds s m hlen hfree hm hmsg hfit))⟩

end UnpackDecode

end Sys2Proof.Machine

namespace Sys2Proof.Settled

open Sys2Proof.Machine

/-- Settles O38: UNPACK's success gives the symbols of the PackedBytes and DECODE's the message whose codes they are, so
DECOMPRESS succeeds with that message. -/
theorem decodeOfUnpack : Obligations.DecodeOfUnpack := by
  intro s t u v hwf herr hunpack ht hparams hcode _ hmsg _ hdecode hv
  obtain ⟨hlen, hp, hroom, rfl⟩ := unpack_success hunpack ht
  have hsize := (sizes_of_wf hwf).2.1
  rw [outputBytes_succeeded (by rw [length_textBits]; omega)] at hmsg
  obtain ⟨m, hfree, hm, hsym, hfit, rfl⟩ := decode_success hmsg hdecode hv
  rw [hcode] at hfree hm hsym
  rw [hparams] at hfit
  refine ⟨_, decompressSucceeds s m hlen hp hfree hm hsym hfit, herr, rfl, ?_⟩
  rw [outputBytes_succeeded (by omega), outputBytes_succeeded (by omega)]

end Sys2Proof.Settled
end

section
/-! PROOFS. NOP, the reserved command words and the composite commands (45_composite.md): a composite command is its
last stage on what the codebook stages left (R104, R105, R107), and the decoders give the message back (R111). -/

namespace Sys2Proof.Machine

/-! ### The reserved command words (R106) -/

/-- The two ways a word is reserved (R70, R74). -/
theorem reserved_fields {w : Word} (h : w.extractLsb' 4 28 ≠ 0 ∨ 0xC ≤ (w.extractLsb' 0 4).toNat) : 12 ≤ w.toNat := by
  by_contra hlt
  obtain ⟨hhigh, hlow⟩ := (legal_iff w).mpr (Nat.lt_of_not_le hlt)
  rcases h with h | h
  · exact h hhigh
  · omega

theorem exec_reserved (w : Word) (s : State) : exec (.reserved w) s = .next (failed .badCommand 0 w s) := rfl

/-! ### The stages one after the other (R104, R105, R107) -/

/-- ANALYZE, BUILD and DERIVE as commands do not fail on a message, and leave what the stages leave. -/
theorem exec_stages {s : State} (hpos : 0 < s.inLen.toNat) (hlen : s.inLen.toNat ≤ s.params.ibufSize) :
    ∃ s₁ s₂, exec .analyze s = .next s₁ ∧ exec .build s₁ = .next s₂ ∧
      exec .derive s₂ = .next (succeeded (staged s)) := by
  have hp := presentBytes_histogram (length_message_lt s) (message_ne_nil hpos)
  have hanalyze := exec_analyze hlen
  rw [staged]
  generalize histogram (message s) = f at hp hanalyze
  exact ⟨_, _, hanalyze, exec_build hp, exec_derive rfl⟩

/-- The last stage starts alike after a completion and inside a composite command (R45). -/
theorem exec_succeeded {i : Instr} (hi : i ∈ [Instr.encode, .encpack, .pack, .unpack, .decode, .decompress])
    (s : State) : exec i (succeeded s) = exec i s := exec_entered hi s Hidden.empty true .idle

/-- An empty message ends both composite commands in their BUILD stage (R104). -/
theorem exec_composite_empty {s : State} (h : s.inLen.toNat = 0) {i : Instr} (hi : i ∈ [Instr.compress, .encodeOnly]) :
    exec i s = .next (failedOutput .emptyInput 0 0
      { s with freq := zeroFreqs, nsym := 0, freqValid := true, treeValid := false }) := by
  have hout : isOutput i = true := by revert i; decide
  rcases runOf_composite hi s with ⟨hlong, -⟩ | ⟨-, hrun⟩ | ⟨hpos, -⟩
  · omega
  · rw [exec_raised hrun, hout]; rfl
  · omega

/-! ### What a composite command leaves (R104, R105) -/

section Composite

variable {s t : State}

/-- No message has more than 255 symbols a byte (R8, R104). -/
theorem length_encodedBits_message (c : Codes) (s : State) :
    (encodedBits c (message s)).length ≤ 255 * s.inLen.toNat := by
  rw [← length_message s]; exact length_encodedBits_le c (message s)

theorem exec_compress_fits (hpos : 0 < s.inLen.toNat) (hlen : s.inLen.toNat ≤ s.params.ibufSize)
    (hfit : (encodedBits (staged s).code (message s)).length / 8 + 2 ≤ s.params.obufSize) :
    exec .compress s = .next (succeededOutput (packedBytes (encodedBits (staged s).code (message s)))
      (encodedBits (staged s).code (message s)).length
      (packPadding (encodedBits (staged s).code (message s)).length) (staged s)) := by
  obtain ⟨hfree, hm⟩ := staged_code hpos
  exact (exec_compress hpos hlen).trans (Settled.encpackSucceeds (staged s) hlen hfree hm hfit)

theorem exec_encodeOnly_fits (hpos : 0 < s.inLen.toNat) (hlen : s.inLen.toNat ≤ s.params.ibufSize)
    (hfit : (encodedBits (staged s).code (message s)).length ≤ s.params.obufSize) :
    exec .encodeOnly s = .next (succeededOutput (textBits (encodedBits (staged s).code (message s)))
      (encodedBits (staged s).code (message s)).length 0 (staged s)) := by
  obtain ⟨hfree, hm⟩ := staged_code hpos
  exact (exec_encodeOnly hpos hlen).trans (Settled.encodeSucceeds (staged s) hlen hfree hm hfit)

/-- Where a message is split at a byte `b`, the bytes before `b` and `b` itself have codes after the stages. -/
theorem staged_coded_split (hpos : 0 < s.inLen.toNat) {m₁ m₂ : List Byte} {b : Byte}
    (hmsg : message s = m₁ ++ b :: m₂) : Coded (staged s).code m₁ ∧ (codeAt (staged s).code b).valid = true := by
  obtain ⟨-, hm⟩ := staged_code hpos
  rw [hmsg] at hm
  exact ⟨fun d hd => hm d (List.mem_append_left _ hd), hm b (by simp)⟩

/-- ENCPACK that succeeds has written the PackedBytes of a coded message, which fit (R92). -/
theorem encpack_success (hx : exec .encpack s = .next t) (ht : t.err = false) :
    PrefixFree s.code ∧ Coded s.code (message s) ∧
      (encodedBits s.code (message s)).length / 8 + 2 ≤ s.params.obufSize ∧
      t = succeededOutput (packedBytes (encodedBits s.code (message s))) (encodedBits s.code (message s)).length
        (packPadding (encodedBits s.code (message s)).length) s := by
  have hlen := inLen_le_of_exec rfl hx ht
  have hfree := prefixFree_of_exec (by simp) hlen hx ht
  obtain ⟨hbyte, htrailer⟩ := Settled.encpackErrors s hlen hfree
  rcases first_failure s.code s.params.obufSize (· / 8) (Nat.zero_le _) (message s) with
    ⟨hm, hgroups⟩ | ⟨m₁, b, m₂, hmsg, hm, hgroups, hfirst⟩
  · have hfit : (encodedBits s.code (message s)).length / 8 + 2 ≤ s.params.obufSize := by
      by_contra h
      exact exec_ne_failedOutput hx ht (htrailer hm hgroups (Nat.lt_of_not_le h))
    exact ⟨hfree, hm, hfit, Host.Outcome.next.inj (hx.symm.trans (Settled.encpackSucceeds s hlen hfree hm hfit))⟩
  · obtain ⟨hunknown, hoverflow⟩ := hbyte m₁ m₂ b hmsg hm hgroups
    rcases hfirst with hb | ⟨hb, hover⟩
    · exact absurd (hunknown hb) (exec_ne_failedOutput hx ht)
    · exact absurd (hoverflow hb hover) (exec_ne_failedOutput hx ht)

/-- A command that wrote the message of `s` shows it with its length (R111). -/
theorem succeededOutput_message (s : State) (bitLen pad : Nat) (u : State) :
    (succeededOutput (message s) bitLen pad u).outLen = s.inLen ∧
      outputBytes (succeededOutput (message s) bitLen pad u) = message s := by
  refine ⟨?_, outputBytes_succeeded (length_message_lt s)⟩
  show BitVec.ofNat 32 (message s).length = s.inLen
  rw [length_message, BitVec.ofNat_toNat, BitVec.setWidth_eq]

end Composite

end Sys2Proof.Machine

namespace Sys2Proof.Settled

open Sys2Proof.Machine

/-- Settles O35: COMPRESS has written the PackedBytes of the message's codes, whose symbols DECOMPRESS finds in the same
ring. -/
theorem compressRoundTrip : Obligations.CompressRoundTrip := by
  intro s t u hwf hpos hlen hobuf _ hcompress ht hout hparams hinLen hmsg hring
  have hsize : (staged s).params.obufSize ≤ 2 ^ 20 := (sizes_of_wf hwf).2.1
  rw [exec_compress hpos hlen] at hcompress
  obtain ⟨hfree, hm, hfit, rfl⟩ := encpack_success hcompress ht
  rw [outputBytes_succeeded (by rw [length_packedBytes]; omega)] at hmsg
  obtain ⟨hbits, hcoded⟩ := sameRing_bits hring hm
  obtain ⟨hp, hsym⟩ := packed_back hmsg
  obtain ⟨hvlen, hvbytes⟩ := succeededOutput_message s (packedSymbols u).length (paddingCount u) u
  refine ⟨_, decompressSucceeds u (message s) ?_ hp (sameRing_prefixFree hring hfree) hcoded (hsym.trans hbits.symm) ?_,
    rfl, rfl, hvlen, hvbytes⟩
  · rw [hinLen, hparams]; exact hout
  · rw [length_message, hparams]; exact hobuf

/-- Settles O36: ENCODE_ONLY has written the message's codes as text bits, which DECODE reads in the same ring. -/
theorem encodeOnlyRoundTrip : Obligations.EncodeOnlyRoundTrip := by
  intro s t u hwf hpos hlen hobuf _ hencode ht hout hparams hinLen hmsg hring
  have hsize : (staged s).params.obufSize ≤ 2 ^ 20 := (sizes_of_wf hwf).2.1
  rw [exec_encodeOnly hpos hlen] at hencode
  obtain ⟨-, hfree, hm, hfit, rfl⟩ := encode_success hencode ht
  rw [outputBytes_succeeded (by rw [length_textBits]; omega)] at hmsg
  obtain ⟨hbits, hcoded⟩ := sameRing_bits hring hm
  obtain ⟨hvlen, hvbytes⟩ := succeededOutput_message s u.inLen.toNat 0 u
  refine ⟨_, decodeSucceeds u (message s) ?_ (sameRing_prefixFree hring hfree) hcoded (hmsg.trans ?_) ?_,
    rfl, rfl, hvlen, hvbytes⟩
  · rw [hinLen, hparams]; exact hout
  · exact congrArg textBits hbits.symm
  · rw [length_message, hparams]; exact hobuf

/-- Settles O32: the composite's last stage starts on what the three commands leave, but for the completion state, which
no stage reads. -/
theorem compositeStages : Obligations.CompositeStages := by
  refine ⟨fun s hpos hlen => ?_, fun s h i => exec_composite_empty h⟩
  obtain ⟨s₁, s₂, hanalyze, hbuild, hderive⟩ := exec_stages hpos hlen
  refine ⟨s₁, s₂, _, hanalyze, hbuild, hderive, rfl, rfl, rfl, ?_, ?_⟩
  · rw [exec_compress hpos hlen, exec_succeeded (by simp)]
  · rw [exec_encodeOnly hpos hlen, exec_succeeded (by simp)]

/-- Settles O33: the tables are those of the stages, whose codebook covers the message, so ENCPACK on them succeeds or
runs out of room. The stages changed nothing else but the hidden state, which either completion discards. -/
theorem compressResult : Obligations.CompressResult := by
  intro s hpos hlen
  obtain ⟨hcount, hnsym, htree, hfree, hvalid, hmax, hlongest⟩ := staged_spec hpos
  have hbits := length_encodedBits_message (staged s).code s
  obtain ⟨hbyte, htrailer⟩ := encpackErrors (staged s) hlen hfree
  refine ⟨_, _, _, _, _, _, hcount, hnsym, htree, hfree, hvalid, hmax, hlongest, hbits, exec_compress_fits hpos hlen,
    fun hfit => exec_compress_fits hpos hlen (by omega), fun m₁ m₂ b hmsg hgroups hover => ?_, fun hgroups hover => ?_⟩
  · obtain ⟨hm, hb⟩ := staged_coded_split hpos hmsg
    exact (exec_compress hpos hlen).trans ((hbyte m₁ m₂ b hmsg hm hgroups).2 hb hover)
  · exact (exec_compress hpos hlen).trans (htrailer (staged_code hpos).2 hgroups hover)

/-- Settles O34: as O33, with ENCODE on what the stages left. -/
theorem encodeOnlyResult : Obligations.EncodeOnlyResult := by
  intro s hpos hlen
  obtain ⟨hcount, hnsym, htree, hfree, hvalid, hmax, hlongest⟩ := staged_spec hpos
  have hbits := length_encodedBits_message (staged s).code s
  refine ⟨_, _, _, _, _, _, hcount, hnsym, htree, hfree, hvalid, hmax, hlongest, hbits, exec_encodeOnly_fits hpos hlen,
    fun hfit => exec_encodeOnly_fits hpos hlen (hbits.trans hfit), fun m₁ m₂ b hmsg hfit hover => ?_⟩
  obtain ⟨hm, hb⟩ := staged_coded_split hpos hmsg
  exact (exec_encodeOnly hpos hlen).trans ((encodeErrors (staged s) m₁ m₂ b hlen hfree hmsg hm hfit).2 hb hover)

/-- Settles O9: NOP's run ends at once, in the state it began in. -/
theorem nopOnlyCompletes : Obligations.NopOnlyCompletes := fun s => exec_ok (i := .nop) (s := s) rfl

/-- Settles O10: a reserved word fails, and its acceptance has put it into CMD. -/
theorem reservedIsBadCommand : Obligations.ReservedIsBadCommand := by
  refine ⟨fun w h => decodeWord_reserved (reserved_fields h), exec_reserved, fun w s => ?_⟩
  exact ⟨_, exec_reserved w (accept w s), rfl, rfl, rfl⟩

end Sys2Proof.Settled
end

section
/-! The statements about the life of a command (60_exceptions.md): its acceptance and start (R112, R54), and its
completion, with or without an error (R113, R114, R116, R118). -/

namespace Sys2Proof.Machine

/-- A fetched word is the one CMD then holds (log entry 2). -/
theorem withFetchWord_word (s : State) (w : Word) : s.withFetchWord 32 w.toNat = acceptNow w s := by
  rw [State.withFetchWord, Nat.mod_eq_of_lt w.isLt, BitVec.ofNat_toNat, BitVec.setWidth_eq]

/-- With nothing held, a CMD write that arrives is answered and accepted (R112). -/
theorem idleStep_issue_cmd {s : State} {w : Word} {es : List HostEvent} (hheld : s.held = [])
    (hinput : s.input = .issue (.write 0x008#22 0xF#4 w) :: es) :
    idleStep s = record (.write 0x008#22 0xF#4 w) .okay 0 (accept w (withInput es s)) := by
  rw [idleStep_issue hheld hinput, transact_cmd]

/-- Neither kind of completion touches what the host and the port own; both end the command and its hidden state (R113,
R114, R45). -/
theorem complete_kept (output : Bool) (m : Run State) : ∃ t, complete output m = .next t ∧
    t.phase = .idle ∧ t.done = true ∧ t.hidden = Hidden.empty ∧
    t.params = m.left.params ∧ t.ie = m.left.ie ∧ t.cmd = m.left.cmd ∧ t.inLen = m.left.inLen ∧
    t.ibuf = m.left.ibuf ∧ t.rstN = m.left.rstN ∧ t.recovery = m.left.recovery ∧ t.input = m.left.input ∧
    t.held = m.left.held ∧ t.answers = m.left.answers ∧ t.work = m.left.work := by
  cases m with
  | ok u => exact ⟨_, rfl, rfl, rfl, rfl, rfl, rfl, rfl, rfl, rfl, rfl, rfl, rfl, rfl, rfl, rfl⟩
  | raised r u =>
    refine ⟨_, rfl, rfl, rfl, rfl, ?_⟩
    cases output <;> exact ⟨rfl, rfl, rfl, rfl, rfl, rfl, rfl, rfl, rfl, rfl, rfl⟩

end Sys2Proof.Machine

namespace Sys2Proof.Settled

open Sys2Proof.Machine

/-- Settles O8: a run that reaches its end leaves the record it found, and one that raises does so with a code of the
command's row. -/
theorem errorsOfEachCommand : Obligations.ErrorsOfEachCommand := by
  refine ⟨fun i s => ?_, mayRaise_real⟩
  rcases exec_cases i s with ⟨u, -, hw, he⟩ | ⟨r, u, -, -, hcode, he⟩
  · exact ⟨_, he, .inl hw.record⟩
  · exact ⟨_, he, .inr ⟨rfl, hcode⟩⟩

/-- Settles O7: neither the run nor the completion writes what the host and the port own. -/
theorem commandsKeepHostState : Obligations.CommandsKeepHostState := by
  intro i s
  have h := complete_kept (isOutput i) (runOf i s)
  rw [← exec_eq, runOf_wrote i s] at h
  exact h

/-- Settles O39: entered without an error the command ends in one only by a raise, whose completion spoils the
output. -/
theorem outputErrorSpoils : Obligations.OutputErrorSpoils := by
  intro i s hi herr
  rcases exec_cases i s with ⟨u, -, hw, he⟩ | ⟨r, u, -, hw, hcode, he⟩
  · refine ⟨_, he, fun hu => ?_⟩
    rw [completeOk_err, hw.record.1, herr] at hu
    cases hu
  · rw [hi] at he
    refine ⟨_, he, fun _ => ⟨rfl, rfl, rfl, fun hnone => (mayRaise_real i).2 (hnone ▸ hcode), fun a => ?_⟩⟩
    rw [raiseError_output_obuf, Memory.read_unspecified, (draws_wrote hw).1]

/-- Settles O4: the fetched word is the encoding of the instruction, which the decoder gives back. -/
theorem stepRunsDecoded : Obligations.StepRunsDecoded := by
  refine ⟨fun s => step_command, fun s i hi => ?_⟩
  rw [withFetchWord_word]
  refine ⟨?_, acceptNow_cmd _ _⟩
  rw [step_command (acceptNow_rstN _ _) (acceptNow_recovery _ _) (acceptNow_phase _ _) (acceptNow_work _ _),
    acceptNow_cmd, decodeWord_encode hi]

/-- Settles O5: the write takes effect at once or is released first, and the STATUS reads behind it show a running
command. -/
theorem cmdWriteAccepts : Obligations.CmdWriteAccepts := by
  intro s w hrst hrec hidle
  refine ⟨Config.commandTime s.draws, fun es hheld hinput => ⟨s.draws + 1, ?_⟩, fun ts hheld => ?_,
    fun t hrst' hrec' hbusy hwork hcmd => ?_⟩
  · rw [step_idle hrst hrec hidle, idleStep_issue_cmd hheld hinput]; rfl
  · obtain ⟨data, d, hrelease, hlength, hdata⟩ := release_cmd w ts s
    refine ⟨d, data, hlength, fun v hv => ?_, ?_⟩
    · obtain ⟨k, rfl⟩ := hdata v hv
      obtain ⟨hb, hd, he⟩ := busyStatus_low (decodeWord w) { accept w s with draws := k }
      exact ⟨hb, hd, he, k, rfl⟩
    · rw [step_idle hrst hrec hidle, idleStep_held hheld, hrelease]; rfl
  · rw [step_command hrst' hrec' hbusy hwork, hcmd]

end Sys2Proof.Settled
end

section
/-! The statements about the resets and the running command (70_reset_and_hazards.md): the bounded life of a command
(R133), the two resets (R128, R129), and the state after reset (R130). -/

namespace Sys2Proof.Machine

/-! ### The reset pin and the port (R128) -/

/-- The pin moves while a command runs (R128). -/
theorem busyStep_rst {s : State} {level : Bool} {es : List HostEvent} (n : Nat) (h : s.input = .rst level :: es) :
    busyStep n s = { withInput es { s with work := n } with rstN := level } := by
  simp only [busyStep, h]

/-- The pin moves while the block is IDLE with nothing held (R128). -/
theorem idleStep_rst {s : State} {level : Bool} {es : List HostEvent} (hheld : s.held = [])
    (h : s.input = .rst level :: es) : idleStep s = { withInput es s with rstN := level } := by
  simp only [idleStep, hheld, h]

/-- A transaction that arrives in reset recovery is held (R128). -/
theorem recoveryStep_issue {s : State} {x : Transaction} {es : List HostEvent} (n : Nat) (h : s.input = .issue x :: es) :
    recoveryStep n s = hold x (withInput es (settle n { s with recovery := n })) := by
  simp only [recoveryStep, h]

/-- The rise of the pin with no transaction open resets the block (R128, R135). -/
theorem lowStep_rise {s : State} {es : List HostEvent} (hheld : s.held = []) (h : s.input = .rst true :: es) :
    lowStep s = .next (hardReset { withInput es s with rstN := true }) := by
  simp only [lowStep, h, hheld]

theorem hardReset_answers (s : State) : (hardReset s).answers = s.answers := rfl

/-- Whatever comes while `rst_n = 0`, nothing is answered; only a rise in the middle of a transaction stops the model
(R128, R135). -/
theorem lowStep_answers (s : State) :
    (∃ t, lowStep s = .next t ∧ t.answers = s.answers) ∨ lowStep s = .fault .resetInMidTransaction := by
  unfold lowStep
  split
  · exact .inl ⟨_, rfl, rfl⟩
  · exact .inl ⟨_, rfl, rfl⟩
  · exact .inl ⟨_, rfl, rfl⟩
  · exact .inl ⟨_, rfl, by split <;> rfl⟩
  · exact .inl ⟨_, rfl, rfl⟩
  · split
    · exact .inl ⟨_, rfl, hardReset_answers _⟩
    · exact .inr rfl

theorem irq_of_low {s : State} (h : s.rstN = false) : irq s = false := by rw [irq, h, Bool.false_and]

/-! ### The registers after a reset (R128, R129) -/

theorem memRead_cmd (s : State) : memRead s 0x008#22 = (.okay, s.cmd) := rfl

/-- STATUS reads 0 while the block is IDLE and its four flags are 0 (R22). -/
theorem memRead_status_zero {s : State} (hidle : s.phase = .idle) (hdone : s.done = false) (herr : s.err = false)
    (hfreq : s.freqValid = false) (htree : s.treeValid = false) : memRead s 0x00C#22 = (.okay, 0) := by
  rw [memRead_status, statusWord, hidle, hdone, herr, hfreq, htree]; rfl

@[simp] theorem State.reset_freq : State.reset.freq = zeroFreqs := rfl

@[simp] theorem State.reset_node : State.reset.node = zeroNodes := rfl

@[simp] theorem State.reset_code : State.reset.code = zeroCodes := rfl

/-! ### The invariant at reset -/

/-- The empty table, no tree and neither flag agree (R22, R30, R34, R36). -/
theorem reset_tables : TablesOk State.reset where
  nsym := by rw [State.reset_freq, presentBytes_zeroFreqs]; rfl
  counts := by rw [State.reset_freq, freqTotal_zeroFreqs]; exact Nat.zero_le _
  freqValid := fun _ => State.reset_freq
  node := .inl State.reset_node
  treeValid := fun h => by cases h

/-- No error is recorded at reset (R22, R23). -/
theorem reset_record : RecordOk State.reset where
  errRecord := ⟨fun _ => rfl, fun _ => rfl⟩
  emptyRecord := fun _ => ⟨rfl, rfl⟩
  noDegenerate := fun h => by cases h

/-- OBUF lists no byte and the result registers are 0 (R27, R29, R40). -/
theorem reset_results : ResultsOk State.reset where
  obuf := rfl
  outLen := Nat.zero_le _
  pad := Nat.zero_le _

end Sys2Proof.Machine

namespace Sys2Proof.Settled

open Sys2Proof.Machine

/-- Settles O6: `work` steps move only the port and use up the waiting, and the next is the command's own. -/
theorem commandCompletes : Obligations.CommandCompletes := by
  intro s hrst hrec hbusy hpin
  obtain ⟨s', hrun, hport, -⟩ := runSteps_busy hrst hrec hbusy rfl hpin
  obtain ⟨t, hexec, hidle, hdone⟩ := exec_idle (decodeWord s.cmd) s'
  have hstep : step s' = exec (decodeWord s.cmd) s' := by
    rw [hport]; exact step_command hrst hrec hbusy rfl
  exact ⟨s.work, s', t, le_rfl, hrun, hport, hexec, by rw [runSteps_succ hrun, hstep, hexec], hidle, hdone⟩

/-- Settles O51: bit 1 of the CTRL write resets the block, and IE is 0 after it. -/
theorem softReset : Obligations.SoftReset := by
  intro s v _ hbit
  refine ⟨Machine.softReset s, ?_, rfl, irq_of_done_false rfl, memRead_status_zero rfl rfl rfl rfl rfl,
    memRead_cmd _⟩
  rw [memWrite_ctrl, writeCtrl_reset hbit]

/-- Settles O52: the steps while the pin is low, at its fall from a running and from an IDLE block, at its rise, and in
recovery. -/
theorem hardReset : Obligations.HardReset := by
  refine ⟨fun s hlow => ?_, fun s n es hrst hrec hbusy hwork hin => ?_, fun s es hrst hrec hidle hheld hin => ?_,
    fun s es hlow hheld hin => ?_, fun s n hrst hrec => ?_⟩
  · rw [step_low hlow]; exact ⟨irq_of_low hlow, lowStep_answers s⟩
  · rw [step_busy hrst hrec hbusy hwork, busyStep_rst n hin]; rfl
  · rw [step_idle hrst hrec hidle, idleStep_rst hheld hin]; rfl
  · obtain ⟨done, ie, hreset, hdone, hie, hend⟩ := hardReset_spec { withInput es s with rstN := true }
    rw [step_low hlow, lowStep_rise hheld hin, hreset]
    exact ⟨_, _, _, _, done, ie, rfl, Memory.read_unspecified _, Memory.read_unspecified _, hdone, hie, hend⟩
  · obtain ⟨done, ie, _, _, _, _, hstep, hdone, hie, hend⟩ := recoveryStep_spec n s
    refine ⟨done, ie, recoveryStep n s, step_recovery hrst hrec, by rw [hstep], hdone, hie, hend, fun x es hin => ?_⟩
    rw [recoveryStep_issue n hin]; exact ⟨rfl, rfl, hrst⟩

/-- Settles O56: the tables are the zero ones, and with nothing held and no input an IDLE block keeps its state. -/
theorem resetValues : Obligations.ResetValues := by
  refine ⟨rfl, memRead_status_zero rfl rfl rfl rfl rfl, rfl, rfl, rfl, rfl, rfl, rfl, rfl, rfl, rfl, rfl, rfl, rfl,
    freqAt_zeroFreqs, nodeAt_zeroNodes, codeAt_zeroCodes, rfl, irq_of_done_false rfl, ?_⟩
  rw [step_idle rfl rfl rfl, idleStep_nothing rfl rfl]

/-- Settles O57: at reset the results, the error record and the tables are in order. -/
theorem resetInvariant : Obligations.ResetInvariant :=
  .of_idle (by decide) rfl rfl rfl reset_results reset_record reset_tables

end Sys2Proof.Settled
end
